-- ==== Sys2Proof/Word.lean ====
section
/-! DEFINITION. The word types of the block and the small records its encodings travel in: bytes, stream bits, tile
sizes, the byte registers a read can be addressed to, one command at the host's port, one request to the bit reader. -/

namespace Sys2Proof

/-- A byte: 8 bits, 0 to 255 (00_scope.md R7). -/
abbrev Byte := BitVec 8

/-- The three sizes at which a selector is read (00_scope.md R6): "8, 4, 2, fixed; no 1×1 level". -/
inductive TileSize where
  | t8 | t4 | t2
deriving DecidableEq, Repr

/-- The side of a tile in pixels. -/
def TileSize.side : TileSize → Nat
  | .t8 => 8
  | .t4 => 4
  | .t2 => 2

/-- A tile `(x, y, s)`: column and row of its top-left pixel in the frame, and its size (00_scope.md section 5). -/
structure Tile where
  x    : Nat
  y    : Nat
  size : TileSize
deriving DecidableEq, Repr

/-- The 8-bit working registers an 8-bit read can be for (10_state.md R29): the first and the second palette index,
and the literal of one pixel. -/
inductive ByteReg where
  | c0 | c1 | px
deriving DecidableEq, Repr

/-- What the host puts on the command port (30_encoding.md R91): the 4-bit command word `CMDW[3:0] = OP[1:0] : FTYPE[1:0]`
and the arguments delivered with it.  A command that takes no argument ignores the lines. -/
structure PortCommand where
  cmdw    : BitVec 4
  w       : Nat := 0
  h       : Nat := 0
  payload : List Byte := []
deriving DecidableEq, Repr

/-- The engine's request to the bit reader (30_encoding.md R91): the 2-bit width select `WSEL`, and the working register the
engine wants the answer in (used by an 8-bit read; a 1-bit read is always for `MB` and a 2-bit read for `SEL`, R29). -/
structure ReadRequest where
  wsel : BitVec 2
  dst  : ByteReg
deriving DecidableEq, Repr

end Sys2Proof
end

