-- ==== Sys2Proof/Config.lean ====
section
/-! DEFINITION. The parameters the spec leaves OPEN to the implementation (00_scope.md R6). -/

namespace Sys2Proof

/-- `IDX_RESET`, the contents of the index buffer after STREAM_START: a map from cell address to byte which the spec leaves OPEN
(00_scope.md R6, 92_eei_decisions.md D6, 93_implementation_defined.md U1).  It has no body, so a claim about it holds for every
value.  It is fixed per instance and not drawn per step (70_reset_and_hazards.md R248).  Log entry 3. -/
opaque Config.idxReset : Nat → Byte

end Sys2Proof
end

