-- ==== Sys2Proof/Syntax.lean ====
section
/-! DEFINITION. The instructions of the block: one constructor for each row of spec/opcode_table.json, in the table's order. -/

namespace Sys2Proof

/-- The 23 rows of the opcode table.  A tile code carries the operands its own bits hold (30_encoding.md R82); the tile it applies to
is context, not bits (R81).  A mask is the MSB-first field of its stream: mask bit `j` is the field's `j`-th bit from the top.
SPLIT is one tile code without its descendants (41_tile_codes.md R156).  A command carries the arguments delivered with it (R91).
An 8-bit read carries the working register it is for. -/
inductive Instr where
  -- tile codes (41_tile_codes.md)
  | skip8
  | skip4
  | skip2
  | fill8 (c : Byte)
  | fill4 (c : Byte)
  | fill2 (c : Byte)
  | mask8 (c0 c1 : Byte) (m : BitVec 64)
  | mask4 (c0 c1 : Byte) (m : BitVec 16)
  | mask2 (c0 c1 : Byte) (m : BitVec 4)
  | split8
  | split4
  | raw2 (p q r t : Byte)
  -- commands (42_frame_commands.md, 40_bitreader.md)
  | streamStart (w h : Nat)
  | frameComp0 (payload : List Byte)
  | frameBlank (payload : List Byte)
  | frameComp1 (payload : List Byte)
  | frameIllegal (payload : List Byte)
  | readerReset
  | cmdIllegal
  -- requests of the engine to the bit reader (40_bitreader.md)
  | rd1
  | rd2
  | rd8 (dst : ByteReg)
  | rdNone
deriving DecidableEq, Repr

end Sys2Proof
end

