-- ==== Sys2Proof/Decode.lean ====
section
/-! DEFINITION. The bits of a payload, the decoder and the encoder, all from the encoding tables of spec/30_encoding.md. -/

namespace Sys2Proof

/-! ### Bits of the stream -/

/-- The `n`-bit field that starts `off` bits into a bit string, as a number: the first bit is the most significant
(20_memory.md R52, 30_encoding.md R83).  A bit beyond the end of the string counts as 0; the reader's end-of-buffer test keeps such a
bit out of every value that is used (R57). -/
def fieldNat (bits : List Bool) (off : Nat) : Nat → Nat
  | 0 => 0
  | n + 1 => 2 * fieldNat bits off n + (bits.getD (off + n) false).toNat

/-- The same field as an `n`-bit word. -/
def field (n off : Nat) (bits : List Bool) : BitVec n := BitVec.ofNat n (fieldNat bits off n)

/-- The bits of a field in stream order, most significant bit first (30_encoding.md R82, R83). -/
def fieldBits {n : Nat} (v : BitVec n) : List Bool := (List.range n).map v.getMsbD

/-- Bit `k` of a byte buffer: bit `7 - (k mod 8)` of byte `k div 8` (20_memory.md R51); 0 where the buffer has no such byte. -/
def bitAt (buf : List Byte) (k : Nat) : Bool := (buf.getD (k / 8) 0).getMsbD (k % 8)

/-- The `n` bits of a buffer from bit address `pos` on, in stream order. -/
def window (buf : List Byte) (pos n : Nat) : List Bool :=
  let near := buf.drop (pos / 8)
  (List.range n).map fun j => bitAt near (pos % 8 + j)

/-- A bit string packed into bytes, most significant bit first, the last byte filled up with zeros (30_encoding.md R90). -/
def packBits (bits : List Bool) : List Byte :=
  (List.range ((bits.length + 7) / 8)).map fun i => field 8 (8 * i) bits

/-! ### The three encodings -/

/-- An instruction as the hardware sees it (the "space" of its row of the opcode table): bits of a payload read for a tile of a known
size, a command at the host's port, or a request to the bit reader. -/
inductive Encoding where
  | tile (size : TileSize) (bits : List Bool)
  | command (c : PortCommand)
  | request (r : ReadRequest)
deriving DecidableEq, Repr

/-- The length of the longest tile code's own bits, MASK.8 (30_encoding.md R82). -/
def maxOwnBits : Nat := 82

/-- The tile code at the start of a bit string, for a tile of the given size (30_encoding.md R81, R82; 41_tile_codes.md R140).  It is
total and never rejects: all four selectors are defined at every size (R87). -/
def decodeTile (size : TileSize) (bits : List Bool) : Instr :=
  match size, fieldNat bits 0 2 with
  | .t8, 0 => .skip8
  | .t4, 0 => .skip4
  | .t2, 0 => .skip2
  | .t8, 1 => .fill8 (field 8 2 bits)
  | .t4, 1 => .fill4 (field 8 2 bits)
  | .t2, 1 => .fill2 (field 8 2 bits)
  | .t8, 2 => .mask8 (field 8 2 bits) (field 8 10 bits) (field 64 18 bits)
  | .t4, 2 => .mask4 (field 8 2 bits) (field 8 10 bits) (field 16 18 bits)
  | .t2, 2 => .mask2 (field 8 2 bits) (field 8 10 bits) (field 4 18 bits)
  | .t8, _ => .split8
  | .t4, _ => .split4
  | .t2, _ => .raw2 (field 8 2 bits) (field 8 10 bits) (field 8 18 bits) (field 8 26 bits)

/-- The command of a command word, with the arguments it takes (30_encoding.md R91); `x` bits are ignored. -/
def decodeCommand (c : PortCommand) : Instr :=
  match c.cmdw.toNat with
  | 0 | 1 | 2 | 3 => .streamStart c.w c.h
  | 4 => .frameComp0 c.payload
  | 5 => .frameBlank c.payload
  | 6 => .frameComp1 c.payload
  | 7 => .frameIllegal c.payload
  | 8 | 9 | 10 | 11 => .readerReset
  | _ => .cmdIllegal

/-- The read a width select asks for (30_encoding.md R91): `00` for 1 bit, `01` for 2 bits, `10` for 8 bits; `11` is never issued. -/
def decodeRequest (r : ReadRequest) : Instr :=
  match r.wsel.toNat with
  | 0 => .rd1
  | 1 => .rd2
  | 2 => .rd8 r.dst
  | _ => .rdNone

/-- The decoder: total, since every selector, every command word and every width select has a row in the opcode table. -/
def decode : Encoding → Instr
  | .tile size bits => decodeTile size bits
  | .command c => decodeCommand c
  | .request r => decodeRequest r

/-! ### The encoder -/

/-- An instruction's encoding (30_encoding.md R82 for tile codes, R91 for commands and requests).  Ignored bits are written as 0. -/
def encode : Instr → Encoding
  | .skip8 => .tile .t8 (fieldBits 0b00#2)
  | .skip4 => .tile .t4 (fieldBits 0b00#2)
  | .skip2 => .tile .t2 (fieldBits 0b00#2)
  | .fill8 c => .tile .t8 (fieldBits 0b01#2 ++ fieldBits c)
  | .fill4 c => .tile .t4 (fieldBits 0b01#2 ++ fieldBits c)
  | .fill2 c => .tile .t2 (fieldBits 0b01#2 ++ fieldBits c)
  | .mask8 c0 c1 m => .tile .t8 (fieldBits 0b10#2 ++ fieldBits c0 ++ fieldBits c1 ++ fieldBits m)
  | .mask4 c0 c1 m => .tile .t4 (fieldBits 0b10#2 ++ fieldBits c0 ++ fieldBits c1 ++ fieldBits m)
  | .mask2 c0 c1 m => .tile .t2 (fieldBits 0b10#2 ++ fieldBits c0 ++ fieldBits c1 ++ fieldBits m)
  | .split8 => .tile .t8 (fieldBits 0b11#2)
  | .split4 => .tile .t4 (fieldBits 0b11#2)
  | .raw2 p q r t => .tile .t2 (fieldBits 0b11#2 ++ fieldBits p ++ fieldBits q ++ fieldBits r ++ fieldBits t)
  | .streamStart w h => .command { cmdw := 0b0000#4, w := w, h := h }
  | .frameComp0 p => .command { cmdw := 0b0100#4, payload := p }
  | .frameBlank p => .command { cmdw := 0b0101#4, payload := p }
  | .frameComp1 p => .command { cmdw := 0b0110#4, payload := p }
  | .frameIllegal p => .command { cmdw := 0b0111#4, payload := p }
  | .readerReset => .command { cmdw := 0b1000#4 }
  | .cmdIllegal => .command { cmdw := 0b1100#4 }
  | .rd1 => .request { wsel := 0b00#2, dst := .px }
  | .rd2 => .request { wsel := 0b01#2, dst := .px }
  | .rd8 dst => .request { wsel := 0b10#2, dst := dst }
  | .rdNone => .request { wsel := 0b11#2, dst := .px }

/-- The own bits of a tile code in stream order (no descendants); nothing for a command or a request. -/
def Instr.ownBits (i : Instr) : List Bool :=
  match encode i with
  | .tile _ bits => bits
  | .command _ => []
  | .request _ => []

/-! ### The assembler's pseudo-instruction MASKV (30_encoding.md R90) -/

/-- MASKV's expansion: a mask given as the picture, top row first, in the order MASK reads it: the rows last to first at sizes 8 and 4,
first to last at size 2. -/
def maskvBits (size : TileSize) (rows : List (List Bool)) : List Bool :=
  match size with
  | .t8 | .t4 => rows.reverse.flatten
  | .t2 => rows.flatten

/-- MASKV at each size, as the MASK it expands to. -/
def maskv (size : TileSize) (c0 c1 : Byte) (rows : List (List Bool)) : Instr :=
  match size with
  | .t8 => .mask8 c0 c1 (field 64 0 (maskvBits .t8 rows))
  | .t4 => .mask4 c0 c1 (field 16 0 (maskvBits .t4 rows))
  | .t2 => .mask2 c0 c1 (field 4 0 (maskvBits .t2 rows))

/-! ### Words as the opcode table numbers them -/

/-- A tile code's word laid out as stream bits: the table's two lowest bits are the selector, "first bit more significant"; bit `i >= 2`
is stream bit `i`; every bit above the word is 0. -/
def tableTileBits (nbits w : Nat) : List Bool :=
  [w.testBit 1, w.testBit 0] ++ (List.range (maxOwnBits - 2)).map fun i => decide (i + 2 < nbits) && w.testBit (i + 2)

/-- The encoding a word of the opcode table stands for.  The table numbers three spaces from bit 0 and leaves the tile size to context,
so the values 0 to 3 stand for several rows at once (log entry 12): a word of one byte below 4 is read as a tile code of a top-level
tile, from 4 to 15 as a command word.  A longer word can only be a tile code; its length tells the size where lengths differ
(MASK.2 three bytes, MASK.4 and RAW.2 five).  A BLANK or COMP1 command word comes with a payload of one zero byte. -/
def tableEncoding (nbits w : Nat) : Option Encoding :=
  if nbits ≤ 8 then
    if w < 4 then some (.tile .t8 (tableTileBits nbits w))
    else if w < 16 then
      some (.command { cmdw := BitVec.ofNat 4 w, payload := if w = 5 ∨ w = 6 then [0] else [] })
    else none
  else
    let size := if nbits ≤ 16 then TileSize.t8
      else if nbits ≤ 24 then .t2
      else if nbits ≤ 40 then (if w % 4 = 3 then .t2 else .t4)
      else .t8
    some (.tile size (tableTileBits nbits w))

/-- The instruction the decoder reads from a word numbered as spec/opcode_table.json numbers it. -/
def decodeTableWord (nbits w : Nat) : Option Instr := (tableEncoding nbits w).map decode

end Sys2Proof
end

