-- ==== Sys2Proof/Machine/State.lean ====
section
/-! DEFINITION. The state of one instance of the block (10_state.md R20), the host's inputs to it, the reasons a step stops, and the
state after hardware reset. -/

namespace Sys2Proof.Machine

/-- The reasons a step stops with a fault.  The block itself has none (60_exceptions.md: its error kinds are STATUS codes, after
which it goes on); each of these is an access to an address the address map says does not exist (20_memory.md R59), and no state a run
from reset reaches raises one for a pixel write. -/
inductive Fault where
  /-- Raised by a pixel write at a pixel that is not in the W×H frame (20_memory.md R55).  Safe: the model stops. -/
  | noSuchPixel
  /-- Raised by a host read of an index cell the buffer does not have (R59).  Safe. -/
  | noSuchCell
  /-- Raised by a host read of a payload byte the buffer does not have (R51).  Safe. -/
  | noSuchByte
deriving DecidableEq, Repr

/-- The situations the spec gives no meaning ("refuse", 00_scope.md R8), each under its own name. -/
inductive Refusal where
  /-- An instruction the model gives no meaning yet; raised by a refused arm of exec only.  Safe. -/
  | notModelled (mnemonic : String)
  /-- A command while PHASE = RUN (42_frame_commands.md R189 c); raised by every command.  Safe. -/
  | commandWhileBusy
  /-- A FRAME or READER_RESET command before any STREAM_START (R189 a).  Safe. -/
  | streamNotStarted
  /-- STREAM_START with a width or height that is not a multiple of 8 (R189 b).  Safe. -/
  | dimensionNotMultipleOf8
  /-- A read request of width select 11, "not an operation of this hardware" (40_bitreader.md R118); raised by RD.NONE.  Safe. -/
  | noSuchReadWidth
  /-- A tile code with no tile of its size at the head of TODO: raised by exec outside the traversal, never by step.  Safe. -/
  | noTileOfThisSize
  /-- A host access while PHASE = RUN (10_state.md R32, 70_reset_and_hazards.md R244).  Safe. -/
  | hostAccessWhileBusy
  /-- A host access the access table does not allow at any time (R32): a write outside a command, or an internal register.  Safe. -/
  | hostAccessForbidden
deriving DecidableEq, Repr

/-- `PHASE` (10_state.md R28). -/
inductive Phase where
  | idle | run
deriving DecidableEq, Repr

/-- `STATUS`, the outcome of the last command (10_state.md R27); the 2-bit codes are `Status.code`. -/
inductive Status where
  | ok | corrupted | sizeViolation | illegal
deriving DecidableEq, Repr

/-- What the host can name in an access to the block (10_state.md R32): the registers, one byte of `BUF`, one cell of `IDX`, and, last,
the things it may not touch at all. -/
inductive HostItem where
  | w | h | ftype | vlen | pos | remaining | status | busy
  | buf (i : Nat)
  | idx (a : Nat)
  | started | working | todo
deriving DecidableEq, Repr

/-- One thing the host does (00_scope.md R4 agent 2, 70_reset_and_hazards.md R233): issue a command, assert hardware reset, read an item,
write an item, let one step of the engine go by, or wait until `BUSY` reads 0. -/
inductive HostEvent where
  | command (c : PortCommand)
  | hardwareReset
  | read (i : HostItem)
  | write (i : HostItem)
  | pass
  | waitIdle
deriving DecidableEq, Repr

/-- The index buffer as data: (address, byte) pairs, addresses strictly rising.  An unlisted address holds no value. -/
abbrev Memory := List Host.Cell

/-- The complete state of one instance (10_state.md R20), and below it two fields of the model's own. -/
structure State where
  /-- `W`, frame width in pixels, a natural (R24). -/
  w       : Nat
  /-- `H`, frame height in pixels, a natural (R24). -/
  h       : Nat
  /-- `STARTED`: a STREAM_START has happened since hardware reset (R28). -/
  started : Bool
  /-- `FTYPE`, frame type of the current frame command (R25). -/
  ftype   : BitVec 2
  /-- `VLEN` = `L`, payload length in bytes, a natural (R26, D9). -/
  vlen    : Nat
  /-- `BUF`, the current payload (R22). -/
  buf     : List Byte
  /-- `POS`, the bit cursor, the program counter, a natural (R21, D9). -/
  pos     : Nat
  /-- `IDX`, the index buffer (R23). -/
  idx     : Memory
  /-- `STATUS` (R27). -/
  status  : Status
  /-- `PHASE` (R28). -/
  phase   : Phase
  /-- `SEL`, the selector of the tile code in progress (R29). -/
  sel     : BitVec 2
  /-- `C0`, first palette index (R29). -/
  c0      : Byte
  /-- `C1`, second palette index (R29). -/
  c1      : Byte
  /-- `PX`, the literal of one pixel of RAW.2 (R29). -/
  px      : Byte
  /-- `MB`, the mask bit of one pixel of MASK (R29). -/
  mb      : BitVec 1
  /-- `TODO`, the tiles still to decode in this frame, in order (R30). -/
  todo    : List Tile
  /-- The model's own: a request waiting at the bit reader (30_encoding.md R91).  Log entry 10. -/
  req     : Option ReadRequest
  /-- The model's own: what the host will do from here on, in order.  Log entry 9. -/
  host    : List HostEvent
deriving DecidableEq, Repr

/-- The machine right after hardware reset (10_state.md R33, 70_reset_and_hazards.md R230).  The spec leaves W, H, FTYPE, IDX and the working
registers unspecified; the values here for those are log entry 2's. -/
def State.reset : State where
  w       := 0
  h       := 0
  started := false
  ftype   := 0
  vlen    := 0
  buf     := []
  pos     := 0
  idx     := []
  status  := .ok
  phase   := .idle
  sel     := 0
  c0      := 0
  c1      := 0
  px      := 0
  mb      := 0
  todo    := []
  req     := none
  host    := []

end Sys2Proof.Machine
end

