-- ==== Sys2Proof/Machine/Flags.lean ====
section
/-! DEFINITION. The registers the host reads as flags: STATUS and FTYPE codes, BUSY, REMAINING, and the payload-length rule of a frame type. -/

namespace Sys2Proof.Machine

/-- The 2-bit code of `STATUS` (10_state.md R27). -/
def Status.code : Status → BitVec 2
  | .ok => 0
  | .corrupted => 1
  | .sizeViolation => 2
  | .illegal => 3

/-- The codes of `FTYPE` at the port (10_state.md R25). -/
def ftypeComp0 : BitVec 2 := 0
def ftypeBlank : BitVec 2 := 1
def ftypeComp1 : BitVec 2 := 2
def ftypeIllegal : BitVec 2 := 3

/-- `BUSY = (PHASE = RUN)` (10_state.md R28). -/
def State.busy (s : State) : Bool := s.phase == .run

/-- `REMAINING = 8*VLEN - POS` (40_bitreader.md R114). -/
def State.remaining (s : State) : Nat := 8 * s.vlen - s.pos

/-- The payload length a COMP0 frame must have: none (42_frame_commands.md R181). -/
def comp0LengthOk (l : Nat) : Bool := l == 0

/-- The payload length a BLANK frame must have: one byte (42_frame_commands.md R182). -/
def blankLengthOk (l : Nat) : Bool := l == 1

end Sys2Proof.Machine
end

