-- ==== Sys2Proof/Machine/Ops.lean ====
section
/-! DEFINITION. The named operations over the block's memories and registers: the index space, the end of a command, taking `OutOfBits`,
the bit reader's read. -/

namespace Sys2Proof.Machine

/-! ### The index space `IX` -/

/-- The byte listed at an address. -/
def Memory.read (a : Nat) : Memory → Option Byte
  | [] => none
  | (k, v) :: m => if a = k then some v else if a < k then none else Memory.read a m

/-- A one-byte write, `MemWrite(IX, a, 1, v)` (20_memory.md R55), in the canonical form. -/
def Memory.write (a : Nat) (v : Byte) : Memory → Memory
  | [] => [(a, v)]
  | (k, u) :: m => if a = k then (a, v) :: m else if a < k then (a, v) :: (k, u) :: m else (k, u) :: Memory.write a v m

/-- A list of cell writes, one after another. -/
def Memory.writes (l : List (Nat × Byte)) (m : Memory) : Memory := l.foldl (fun m p => Memory.write p.1 p.2 m) m

/-- The canonical form: addresses strictly rising. -/
def Memory.wf : Memory → Bool
  | [] => true
  | [_] => true
  | (k, _) :: (l, v) :: m => decide (k < l) && Memory.wf ((l, v) :: m)

/-- The index buffer whose cells are `0 .. n - 1`, cell `a` holding `f a`. -/
def Memory.ofCells (n : Nat) (f : Nat → Byte) : Memory := (List.range n).map fun a => (a, f a)

/-- `IDX[a]`: the cell at address `a`, where the address map has one, `a < W*H` (20_memory.md R59). -/
def State.cell (s : State) (a : Nat) : Option Byte := if a < s.w * s.h then Memory.read a s.idx else none

/-- `PIX(x, y) = y*W + x` (20_memory.md R55). -/
def State.pix (s : State) (x y : Nat) : Nat := y * s.w + x

/-! ### The end of a command; taking an exception and returning from one -/

/-- `finish(st)`: `STATUS <- st ; TODO <- empty ; PHASE <- IDLE` (42_frame_commands.md R187). -/
def State.finish (s : State) (st : Status) : State := { s with status := st, todo := [], phase := .idle }

/-- Taking `OutOfBits`, the block's only mid-execution trap (60_exceptions.md R204): nothing is saved, control goes nowhere, the frame command ends
CORRUPTED; POS, BUF, VLEN, FTYPE, W, H and IDX with every write so far are kept.  There is no return instruction and nothing to
restore (R207): after any outcome the block is idle and takes the next command. -/
def State.takeOutOfBits (s : State) : State := s.finish .corrupted

/-- Why a tile code or a read stops before its end: `OutOfBits`, with the state at the failed read, or a fault. -/
inductive Trap where
  | outOfBits (s : State)
  | fault (f : Fault)
deriving DecidableEq, Repr

/-- The outcome of a step from the result of its engine operation: an `OutOfBits` is taken. -/
def conclude : Except Trap State → Host.Outcome State Fault Refusal
  | .ok s => .next s
  | .error (.outOfBits s) => .next s.takeOutOfBits
  | .error (.fault f) => .fault f

/-! ### The bit reader -/

/-- The admission test and the cursor's advance of a read of `n` bits: "Fails with OutOfBits if fewer than n bits remain", and then nothing
has changed (40_bitreader.md R110, R117). -/
def State.advance (n : Nat) (s : State) : Except Trap State :=
  if 8 * s.vlen - s.pos < n then .error (.outOfBits s) else .ok { s with pos := s.pos + n }

/-- The value of a read of `n` bits at the cursor, by the 16-bit peek window of 40_bitreader.md R110. -/
def State.peek (n : Nat) (s : State) : Nat :=
  let i := s.pos / 8
  let off := s.pos % 8
  let b0 := (s.buf.getD i 0).toNat
  let b1 := if i + 1 < s.vlen then (s.buf.getD (i + 1) 0).toNat else 0
  let win := b0 * 256 + b1
  win * 2 ^ off % 65536 / 2 ^ (16 - n)

/-- `BitRead(n)` (40_bitreader.md R110), for `n` in 1, 2, 8. -/
def State.bitRead (n : Nat) (s : State) : Except Trap (Nat × State) := do
  let t ← s.advance n
  return (s.peek n, t)

/-- A write of one of the 8-bit working registers (10_state.md R29). -/
def State.setByteReg (r : ByteReg) (v : Byte) (s : State) : State :=
  match r with
  | .c0 => { s with c0 := v }
  | .c1 => { s with c1 := v }
  | .px => { s with px := v }

/-! ### Pixel writes and the traversal -/

/-- A pixel write `IDX[PIX(x, y)] <- v` (20_memory.md R55). -/
def State.writePixel (x y : Nat) (v : Byte) (s : State) : Except Trap State :=
  if x < s.w ∧ y < s.h then .ok { s with idx := Memory.write (s.pix x y) v s.idx } else .error (.fault .noSuchPixel)

/-- The four children of a tile, sides `h`, in row-major order (41_tile_codes.md R150). -/
def childTiles (size : TileSize) (t : Tile) : List Tile :=
  let h := size.side
  [⟨t.x, t.y, size⟩, ⟨t.x + h, t.y, size⟩, ⟨t.x, t.y + h, size⟩, ⟨t.x + h, t.y + h, size⟩]

/-- The top-level tiles of a `W`×`H` frame in row-major order (42_frame_commands.md R183). -/
def topTiles (w h : Nat) : List Tile :=
  (List.range (h / 8)).flatMap fun ty => (List.range (w / 8)).map fun tx => ⟨8 * tx, 8 * ty, .t8⟩

/-- One tile code of a given size (41_tile_codes.md R156): remove the head of TODO, run the code on it, take `OutOfBits` where it raises one.
A tile code runs only when the frame's traversal has reached a tile of its size. -/
def runTileCode (size : TileSize) (s : State) (code : Tile → State → Except Trap State) : Host.Outcome State Fault Refusal :=
  match s.phase, s.todo with
  | .run, t :: rest => if t.size = size then conclude (code t { s with todo := rest }) else .refused .noTileOfThisSize
  | _, _ => .refused .noTileOfThisSize

end Sys2Proof.Machine
end

