-- ==== Sys2Proof/Machine/Command.lean ====
section
/-! DEFINITION. The commands (42_frame_commands.md; READER_RESET in 40_bitreader.md R115). -/

namespace Sys2Proof.Machine

/-- Why a command is not admitted, if it is not (42_frame_commands.md R189; the order of checks is 60_exceptions.md R205). -/
def notAdmitted (needsStream : Bool) (s : State) : Option Refusal :=
  if s.phase = .run then some .commandWhileBusy
  else if needsStream && !s.started then some .streamNotStarted
  else none

/-- A command on an idle block: refused where it is not admitted, else its effect. -/
def admitted (needsStream : Bool) (s : State) (effect : State → Host.Outcome State Fault Refusal) :
    Host.Outcome State Fault Refusal :=
  match notAdmitted needsStream s with
  | some r => .refused r
  | none => effect s

/-- The prologue of every FRAME command (42_frame_commands.md R180). -/
def State.framePrologue (ftype : BitVec 2) (payload : List Byte) (s : State) : State :=
  { s with phase := .run, ftype := ftype, vlen := payload.length, buf := payload, pos := 0, todo := [] }

/-- What STREAM_START does to a stream's state (R185): the dimensions, every cell at `IDX_RESET`, an empty payload, the cursor at 0. -/
def State.startStream (w h : Nat) (s : State) : State :=
  { s with
    w := w, h := h, idx := Memory.ofCells (w * h) Config.idxReset,
    vlen := 0, buf := [], pos := 0, todo := [], started := true }

/-- STREAM_START (R185). -/
def execStreamStart (w h : Nat) (s : State) : Host.Outcome State Fault Refusal :=
  admitted false s fun s =>
    if w % 8 = 0 ∧ h % 8 = 0 then
      .next ((s.startStream w h).finish .ok)
    else .refused .dimensionNotMultipleOf8

/-- FRAME.COMP0 (R181): no read, no write. -/
def execFrameComp0 (payload : List Byte) (s : State) : Host.Outcome State Fault Refusal :=
  admitted true s fun s =>
    let s := s.framePrologue ftypeComp0 payload
    .next (s.finish (if comp0LengthOk s.vlen then .ok else .sizeViolation))

/-- The body of a BLANK frame of the right length (R182): read the index, write it to every cell. -/
def blankFrame (s : State) : Except Trap State := do
  let (v, s) ← s.bitRead 8
  let s := s.setByteReg .c0 (BitVec.ofNat 8 v)
  let s := { s with idx := Memory.ofCells (s.w * s.h) fun _ => s.c0 }
  return s.finish .ok

/-- FRAME.BLANK (R182): the length is checked before any read or write. -/
def execFrameBlank (payload : List Byte) (s : State) : Host.Outcome State Fault Refusal :=
  admitted true s fun s =>
    let s := s.framePrologue ftypeBlank payload
    if blankLengthOk s.vlen then conclude (blankFrame s) else .next (s.finish .sizeViolation)

/-- FRAME.COMP1 (R183), in its step form: the prologue, then TODO is the list of top-level tiles and the engine runs; each further
step is one tile code (R156), and the step that finds TODO empty ends the frame. -/
def execFrameComp1 (payload : List Byte) (s : State) : Host.Outcome State Fault Refusal :=
  admitted true s fun s =>
    let s := s.framePrologue ftypeComp1 payload
    .next { s with todo := topTiles s.w s.h }

/-- FRAME with the illegal frame type (R184): `finish(ILLEGAL)` straight after the prologue. -/
def execFrameIllegal (payload : List Byte) (s : State) : Host.Outcome State Fault Refusal :=
  admitted true s fun s => .next ((s.framePrologue ftypeIllegal payload).finish .illegal)

/-- READER_RESET (40_bitreader.md R115): `POS <- 0`. -/
def execReaderReset (s : State) : Host.Outcome State Fault Refusal :=
  admitted true s fun s =>
    let s := { s with pos := 0 }
    .next (s.finish .ok)

/-- An illegal command code (R184): `finish(ILLEGAL)` at once, no prologue. -/
def execCmdIllegal (s : State) : Host.Outcome State Fault Refusal :=
  admitted false s fun s => .next (s.finish .illegal)

end Sys2Proof.Machine
end

