-- ==== Sys2Proof/Machine/Operands.lean ====
section
/-! DEFINITION. The operands of a tile code, read one after another from the stream: the selector, palette indices and literals, mask bits; and
the pixels they are for, in the order of the stream.  Each read makes the reader's own admission test and moves the cursor; its value is
the field the decoder took from the same bits (Laws/Reader.lean says the two agree). -/

namespace Sys2Proof.Machine

/-- `SEL <- BitRead(2)`, the read that opens every tile code (41_tile_codes.md R140). -/
def State.readSel (v : BitVec 2) (s : State) : Except Trap State := do
  let s ← s.advance 2
  return { s with sel := v }

/-- An 8-bit operand read into `C0`, `C1` or `PX` (10_state.md R29). -/
def State.readByte (r : ByteReg) (v : Byte) (s : State) : Except Trap State := do
  let s ← s.advance 8
  return s.setByteReg r v

/-- `MB <- BitRead(1)` (10_state.md R29). -/
def State.readMaskBit (b : Bool) (s : State) : Except Trap State := do
  let s ← s.advance 1
  return { s with mb := BitVec.ofBool b }

/-- The pixels of a tile, (row, column), rows top to bottom, left to right within a row. -/
def rowsDown (size : TileSize) : List (Nat × Nat) :=
  (List.range size.side).flatMap fun r => (List.range size.side).map fun c => (r, c)

/-- The pixels of a tile, (row, column), rows bottom to top, left to right within a row. -/
def rowsUp (size : TileSize) : List (Nat × Nat) :=
  (List.range size.side).reverse.flatMap fun r => (List.range size.side).map fun c => (r, c)

/-- The pixel of each mask bit in stream order (30_encoding.md R92): bottom row first at 8×8 and 4×4, top row first at 2×2. -/
def maskOrder : TileSize → List (Nat × Nat)
  | .t8 => rowsUp .t8
  | .t4 => rowsUp .t4
  | .t2 => rowsDown .t2

/-- Write one byte to each of a list of pixels of a tile, in order (41_tile_codes.md R144). -/
def paintPixels (t : Tile) (v : Byte) : List (Nat × Nat) → State → Except Trap State
  | [], s => .ok s
  | (r, c) :: ps, s => do
    let s ← s.writePixel (t.x + c) (t.y + r) v
    paintPixels t v ps s

/-- The mask loop (41_tile_codes.md R147): for each pixel read its bit, then write `C0` if the bit is 0 and `C1` if it is 1, before the
next read. -/
def maskPixels (t : Tile) : List ((Nat × Nat) × Bool) → State → Except Trap State
  | [], s => .ok s
  | ((r, c), b) :: ps, s => do
    let s ← s.readMaskBit b
    let s ← s.writePixel (t.x + c) (t.y + r) (if s.mb = 0#1 then s.c0 else s.c1)
    maskPixels t ps s

/-- The literal loop (41_tile_codes.md R152): for each pixel read its literal, then write it, before the next read. -/
def rawPixels (t : Tile) : List ((Nat × Nat) × Byte) → State → Except Trap State
  | [], s => .ok s
  | ((r, c), v) :: ps, s => do
    let s ← s.readByte .px v
    let s ← s.writePixel (t.x + c) (t.y + r) s.px
    rawPixels t ps s

/-- FILL at a tile: the selector, the palette index, then every pixel (41_tile_codes.md R144). -/
def fillTile (c : Byte) (t : Tile) (s : State) : Except Trap State := do
  let s ← s.readSel 1
  let s ← s.readByte .c0 c
  paintPixels t s.c0 (rowsDown t.size) s

/-- MASK at a tile: the selector, the two palette indices, then the mask loop (41_tile_codes.md R147, R149). -/
def maskTile {n : Nat} (c0 c1 : Byte) (m : BitVec n) (t : Tile) (s : State) : Except Trap State := do
  let s ← s.readSel 2
  let s ← s.readByte .c0 c0
  let s ← s.readByte .c1 c1
  maskPixels t ((maskOrder t.size).zip (fieldBits m)) s

/-- SPLIT at a tile: the selector, then the four children go to the front of TODO (41_tile_codes.md R150, R156). -/
def splitTile (childSize : TileSize) (t : Tile) (s : State) : Except Trap State := do
  let s ← s.readSel 3
  return { s with todo := childTiles childSize t ++ s.todo }

end Sys2Proof.Machine
end

