-- ==== Sys2Proof/Machine/Fill.lean ====
section
/-! DEFINITION. Selector 1, flat fill: FILL.8, FILL.4, FILL.2 (41_tile_codes.md R144 to R146). -/

namespace Sys2Proof.Machine

/-- FILL.8 (R144). -/
def execFill8 (c : Byte) (s : State) : Host.Outcome State Fault Refusal := runTileCode .t8 s (fillTile c)

/-- FILL.4 (R145). -/
def execFill4 (c : Byte) (s : State) : Host.Outcome State Fault Refusal := runTileCode .t4 s (fillTile c)

/-- FILL.2 (R146). -/
def execFill2 (c : Byte) (s : State) : Host.Outcome State Fault Refusal := runTileCode .t2 s (fillTile c)

end Sys2Proof.Machine
end

