-- ==== Sys2Proof/Machine/Mask.lean ====
section
/-! DEFINITION. Selector 2, two-tone mask: MASK.8, MASK.4, MASK.2 (41_tile_codes.md R147 to R149). -/

namespace Sys2Proof.Machine

/-- MASK.8 (R147): 64 mask bits, bottom row first. -/
def execMask8 (c0 c1 : Byte) (m : BitVec 64) (s : State) : Host.Outcome State Fault Refusal :=
  runTileCode .t8 s (maskTile c0 c1 m)

/-- MASK.4 (R148): 16 mask bits, bottom row first. -/
def execMask4 (c0 c1 : Byte) (m : BitVec 16) (s : State) : Host.Outcome State Fault Refusal :=
  runTileCode .t4 s (maskTile c0 c1 m)

/-- MASK.2 (R149): 4 mask bits, top row first. -/
def execMask2 (c0 c1 : Byte) (m : BitVec 4) (s : State) : Host.Outcome State Fault Refusal :=
  runTileCode .t2 s (maskTile c0 c1 m)

end Sys2Proof.Machine
end

