-- ==== Sys2Proof/Machine/Reader.lean ====
section
/-! DEFINITION. The bit reader's operations as instructions of their own: RD1, RD2, RD8 (40_bitreader.md R111 to R113) and the width select that
names no read (R118).  The answer goes to the working register the read is for (10_state.md R29); a read that fails raises `OutOfBits`,
which is taken as 60_exceptions.md R204 says. -/

namespace Sys2Proof.Machine

/-- RD1 (R111): the next bit, for `MB`. -/
def execRd1 (s : State) : Host.Outcome State Fault Refusal :=
  conclude do
    let (v, s) ← s.bitRead 1
    return { s with mb := BitVec.ofNat 1 v }

/-- RD2 (R112): the next two bits, for `SEL`. -/
def execRd2 (s : State) : Host.Outcome State Fault Refusal :=
  conclude do
    let (v, s) ← s.bitRead 2
    return { s with sel := BitVec.ofNat 2 v }

/-- RD8 (R113): the next eight bits, for `C0`, `C1` or `PX`. -/
def execRd8 (dst : ByteReg) (s : State) : Host.Outcome State Fault Refusal :=
  conclude do
    let (v, s) ← s.bitRead 8
    return s.setByteReg dst (BitVec.ofNat 8 v)

/-- RD.NONE (R118): "not an operation of this hardware and a model should not define it". -/
def execRdNone (_s : State) : Host.Outcome State Fault Refusal := .refused .noSuchReadWidth

end Sys2Proof.Machine
end

