-- ==== Sys2Proof/Machine/Skip.lean ====
section
/-! DEFINITION. Selector 0, unchanged: SKIP.8, SKIP.4, SKIP.2 (41_tile_codes.md R141 to R143). -/

namespace Sys2Proof.Machine

/-- SKIP.8 (R141): nothing after the selector. -/
def execSkip8 (s : State) : Host.Outcome State Fault Refusal := runTileCode .t8 s fun _ s => s.readSel 0

/-- SKIP.4 (R142). -/
def execSkip4 (s : State) : Host.Outcome State Fault Refusal := runTileCode .t4 s fun _ s => s.readSel 0

/-- SKIP.2 (R143). -/
def execSkip2 (s : State) : Host.Outcome State Fault Refusal := runTileCode .t2 s fun _ s => s.readSel 0

end Sys2Proof.Machine
end

