-- ==== Sys2Proof/Machine/Split.lean ====
section
/-! DEFINITION. Selector 3: SPLIT.8, SPLIT.4 and their base case RAW.2 (41_tile_codes.md R150 to R152). -/

namespace Sys2Proof.Machine

/-- SPLIT.8 (R150): four children of size 4. -/
def execSplit8 (s : State) : Host.Outcome State Fault Refusal := runTileCode .t8 s (splitTile .t4)

/-- SPLIT.4 (R151): four children of size 2. -/
def execSplit4 (s : State) : Host.Outcome State Fault Refusal := runTileCode .t4 s (splitTile .t2)

/-- RAW.2 (R152): four literals, top-left, top-right, bottom-left, bottom-right (30_encoding.md R93). -/
def execRaw2 (p q r t : Byte) (s : State) : Host.Outcome State Fault Refusal :=
  runTileCode .t2 s fun tile s => do
    let s ← s.readSel 3
    rawPixels tile ((rowsDown .t2).zip [p, q, r, t]) s

end Sys2Proof.Machine
end

