-- ==== Sys2Proof/Machine/Dispatch.lean ====
section
/-! DEFINITION. One arm per instruction: the call of its meaning. -/

namespace Sys2Proof.Machine

def exec (i : Instr) (s : State) : Host.Outcome State Fault Refusal :=
  match i with
  | .skip8 => Sys2Proof.Machine.execSkip8 s
  | .skip4 => Sys2Proof.Machine.execSkip4 s
  | .skip2 => Sys2Proof.Machine.execSkip2 s
  | .fill8 c => Sys2Proof.Machine.execFill8 c s
  | .fill4 c => Sys2Proof.Machine.execFill4 c s
  | .fill2 c => Sys2Proof.Machine.execFill2 c s
  | .mask8 c0 c1 m => Sys2Proof.Machine.execMask8 c0 c1 m s
  | .mask4 c0 c1 m => Sys2Proof.Machine.execMask4 c0 c1 m s
  | .mask2 c0 c1 m => Sys2Proof.Machine.execMask2 c0 c1 m s
  | .split8 => Sys2Proof.Machine.execSplit8 s
  | .split4 => Sys2Proof.Machine.execSplit4 s
  | .raw2 p q r t => Sys2Proof.Machine.execRaw2 p q r t s
  | .streamStart w h => Sys2Proof.Machine.execStreamStart w h s
  | .frameComp0 payload => Sys2Proof.Machine.execFrameComp0 payload s
  | .frameBlank payload => Sys2Proof.Machine.execFrameBlank payload s
  | .frameComp1 payload => Sys2Proof.Machine.execFrameComp1 payload s
  | .frameIllegal payload => Sys2Proof.Machine.execFrameIllegal payload s
  | .readerReset => Sys2Proof.Machine.execReaderReset s
  | .cmdIllegal => Sys2Proof.Machine.execCmdIllegal s
  | .rd1 => Sys2Proof.Machine.execRd1 s
  | .rd2 => Sys2Proof.Machine.execRd2 s
  | .rd8 dst => Sys2Proof.Machine.execRd8 dst s
  | .rdNone => Sys2Proof.Machine.execRdNone s

end Sys2Proof.Machine
end

