-- ==== Sys2Proof/Machine/Fetch.lean ====
section
/-! DEFINITION. Fetching a tile code from the payload, and placing an instruction where the next step fetches it. -/

namespace Sys2Proof.Machine

/-- The tile code at the cursor, for a tile of the given size (30_encoding.md R80, 41_tile_codes.md R140).  Bits beyond the end of the payload are
fetched as 0 and never used: each operand read of the code makes its own end-of-buffer test first. -/
def State.fetchTile (s : State) (size : TileSize) : Instr := decodeTile size (window s.buf s.pos maxOwnBits)

/-- A state in which a stream is under way whose frame has room for an 8×8 tile: the state itself if it is one, else what
STREAM_START(8, 8) leaves in W, H, IDX and STARTED. -/
def State.inStream (s : State) : State :=
  if s.started && decide (8 ≤ s.w) && decide (8 ≤ s.h) then s
  else { s with started := true, w := 8, h := 8, idx := Memory.ofCells 64 Config.idxReset }

/-- The state with an encoding placed where the next step takes its instruction from (log entry 11).  A tile code: the start of a COMP1 frame
whose payload is its bits (zeros up to the longest code) and whose one tile has its size.  A command: alone at the port of an
idle block, in a stream where the command needs one.  A read request: waiting at the reader. -/
def State.place (e : Encoding) (s : State) : State :=
  match e with
  | .tile size bits =>
    let buf := packBits (bits ++ List.replicate (maxOwnBits - bits.length) false)
    { s.inStream with
      phase := .run, ftype := 2, buf := buf, vlen := buf.length, pos := 0, todo := [⟨0, 0, size⟩], req := none, host := [] }
  | .command c =>
    let needsStream := c.cmdw.extractLsb' 2 2 = 1#2 ∨ c.cmdw.extractLsb' 2 2 = 2#2
    { (if needsStream then s.inStream else s) with phase := .idle, todo := [], req := none, host := [.command c] }
  | .request r => { s with req := some r, host := [] }

end Sys2Proof.Machine
end

