-- ==== Sys2Proof/Machine/Engine.lean ====
section
/-! DEFINITION. What one step does: the engine's part and the host's part. -/

namespace Sys2Proof.Machine

/-- One step of the engine.  A request waiting at the reader is served.  Otherwise, while a frame runs, the tile at the head of TODO is
decoded by the tile code at the cursor, and with TODO empty "the frame's tiles are done" (41_tile_codes.md R156) and the frame ends OK
(42_frame_commands.md R183).  An idle block simply waits (60_exceptions.md R211). -/
def engineStep (s : State) : Host.Outcome State Fault Refusal :=
  match s.req with
  | some r => exec (decodeRequest r) { s with req := none }
  | none =>
    match s.phase with
    | .idle => .next s
    | .run =>
      match s.todo with
      | [] => .next (s.finish .ok)
      | t :: _ => exec (s.fetchTile t.size) s

/-- The value of an item the host may read (10_state.md R32), as a number. -/
def hostValue (i : HostItem) (s : State) : Host.Outcome Nat Fault Refusal :=
  match i with
  | .w => .next s.w
  | .h => .next s.h
  | .ftype => .next s.ftype.toNat
  | .vlen => .next s.vlen
  | .pos => .next s.pos
  | .remaining => .next s.remaining
  | .status => .next s.status.code.toNat
  | .busy => .next s.busy.toNat
  | .buf i =>
    match s.buf[i]? with
    | some b => .next b.toNat
    | none => .fault .noSuchByte
  | .idx a =>
    match s.cell a with
    | some b => .next b.toNat
    | none => .fault .noSuchCell
  | .started => .refused .hostAccessForbidden
  | .working => .refused .hostAccessForbidden
  | .todo => .refused .hostAccessForbidden

/-- A host read: `BUSY` at any time, everything else only while the block is idle (10_state.md R32, 70_reset_and_hazards.md R244). -/
def hostRead (i : HostItem) (s : State) : Host.Outcome Nat Fault Refusal :=
  if s.phase = .run ∧ i ≠ .busy then .refused .hostAccessWhileBusy else hostValue i s

/-- One thing the host does, on the block as it is; the host's later actions are already the state's. -/
def hostStep (e : HostEvent) (s : State) : Host.Outcome State Fault Refusal :=
  match e with
  | .command c => exec (decodeCommand c) s
  | .hardwareReset => .next { State.reset with host := s.host }
  | .read i =>
    match hostRead i s with
    | .next _ => .next s
    | .fault f => .fault f
    | .refused r => .refused r
  | .write _ => .refused (if s.phase = .run then .hostAccessWhileBusy else .hostAccessForbidden)
  | .pass => engineStep s
  | .waitIdle => .next s

/-- One step of the block and its host: the host's next action where it has one and is not waiting for `BUSY = 0`, else the engine. -/
def blockStep (s : State) : Host.Outcome State Fault Refusal :=
  match s.host with
  | [] => engineStep s
  | e :: rest =>
    if e = .waitIdle ∧ s.phase = .run then engineStep s else hostStep e { s with host := rest }

end Sys2Proof.Machine
end

