-- ==== Sys2Proof/Machine/Step.lean ====
section
/-! DEFINITION. One step, and where a step's instruction stands. -/

namespace Sys2Proof.Machine

/-- One step of the machine. -/
def step (s : State) : Host.Outcome State Fault Refusal := blockStep s

/-- The state with the instruction of a table word placed where the next step takes it from; a word that stands for no instruction
changes nothing. -/
def State.withFetchWord (s : State) (nbits w : Nat) : State :=
  match tableEncoding nbits w with
  | some e => s.place e
  | none => s

end Sys2Proof.Machine
end

