-- ==== Sys2Proof/Machine/Payload.lean ====
section
/-! DEFINITION. Whole tile codes with their descendants (format `Q` of 30_encoding.md R82), as the assembler writes them (R90) and as a decoder that
knows the size finds where they end (R84). -/

namespace Sys2Proof.Machine

/-- A complete tile code of size 2. -/
inductive Quad2 where
  | skip
  | fill (c : Byte)
  | mask (c0 c1 : Byte) (m : BitVec 4)
  | raw (p q r t : Byte)
deriving DecidableEq, Repr

/-- A complete tile code of size 4. -/
inductive Quad4 where
  | skip
  | fill (c : Byte)
  | mask (c0 c1 : Byte) (m : BitVec 16)
  | split (k0 k1 k2 k3 : Quad2)
deriving DecidableEq, Repr

/-- A complete tile code of size 8. -/
inductive Quad8 where
  | skip
  | fill (c : Byte)
  | mask (c0 c1 : Byte) (m : BitVec 64)
  | split (k0 k1 k2 k3 : Quad4)
deriving DecidableEq, Repr

/-- The single codes of a complete tile code, in stream order, depth first (30_encoding.md R80). -/
def Quad2.codes : Quad2 → List Instr
  | .skip => [.skip2]
  | .fill c => [.fill2 c]
  | .mask c0 c1 m => [.mask2 c0 c1 m]
  | .raw p q r t => [.raw2 p q r t]

def Quad4.codes : Quad4 → List Instr
  | .skip => [.skip4]
  | .fill c => [.fill4 c]
  | .mask c0 c1 m => [.mask4 c0 c1 m]
  | .split k0 k1 k2 k3 => .split4 :: (k0.codes ++ k1.codes ++ k2.codes ++ k3.codes)

def Quad8.codes : Quad8 → List Instr
  | .skip => [.skip8]
  | .fill c => [.fill8 c]
  | .mask c0 c1 m => [.mask8 c0 c1 m]
  | .split k0 k1 k2 k3 => .split8 :: (k0.codes ++ k1.codes ++ k2.codes ++ k3.codes)

/-- `len(t)`, the number of bits a complete tile code is long (30_encoding.md R85). -/
def Quad2.len : Quad2 → Nat
  | .skip => 2
  | .fill _ => 10
  | .mask _ _ _ => 22
  | .raw _ _ _ _ => 34

def Quad4.len : Quad4 → Nat
  | .skip => 2
  | .fill _ => 10
  | .mask _ _ _ => 34
  | .split k0 k1 k2 k3 => 2 + k0.len + k1.len + k2.len + k3.len

def Quad8.len : Quad8 → Nat
  | .skip => 2
  | .fill _ => 10
  | .mask _ _ _ => 82
  | .split k0 k1 k2 k3 => 2 + k0.len + k1.len + k2.len + k3.len

/-- The widths of the reads a tile code makes of its own, in order (41_tile_codes.md R153): SKIP one RD2; FILL one RD2 and one RD8; MASK one RD2,
two RD8 and a RD1 for each pixel; SPLIT one RD2; RAW.2 one RD2 and four RD8.  Empty for an instruction that is no tile code. -/
def codeReads : Instr → List Nat
  | .skip8 | .skip4 | .skip2 => [2]
  | .fill8 _ | .fill4 _ | .fill2 _ => [2, 8]
  | .mask8 _ _ _ => [2, 8, 8] ++ List.replicate 64 1
  | .mask4 _ _ _ => [2, 8, 8] ++ List.replicate 16 1
  | .mask2 _ _ _ => [2, 8, 8] ++ List.replicate 4 1
  | .split8 | .split4 => [2]
  | .raw2 _ _ _ _ => [2, 8, 8, 8, 8]
  | .streamStart _ _ | .frameComp0 _ | .frameBlank _ | .frameComp1 _ | .frameIllegal _ | .readerReset | .cmdIllegal => []
  | .rd1 | .rd2 | .rd8 _ | .rdNone => []

/-- How many pixels a tile code writes of its own (R144 to R152).  None for an instruction that is no tile code. -/
def codeWrites : Instr → Nat
  | .skip8 | .skip4 | .skip2 => 0
  | .fill8 _ | .mask8 _ _ _ => 64
  | .fill4 _ | .mask4 _ _ _ => 16
  | .fill2 _ | .mask2 _ _ _ | .raw2 _ _ _ _ => 4
  | .split8 | .split4 => 0
  | .streamStart _ _ | .frameComp0 _ | .frameBlank _ | .frameComp1 _ | .frameIllegal _ | .readerReset | .cmdIllegal => 0
  | .rd1 | .rd2 | .rd8 _ | .rdNone => 0

/-- How far a sequence of reads moves the cursor with so many bits left: the widths of the reads that succeed, up to the first that does not
(R153). -/
def bitsRead : List Nat → Nat → Nat
  | [], _ => 0
  | n :: ns, m => if n ≤ m then n + bitsRead ns (m - n) else 0

/-- All reads, and all pixel writes, of a sequence of codes. -/
def readsOf (is : List Instr) : List Nat := is.flatMap codeReads
def writesOf (is : List Instr) : Nat := (is.map codeWrites).sum

/-- The bits of a sequence of codes laid end to end (30_encoding.md R80). -/
def codeBits (is : List Instr) : List Bool := is.flatMap Instr.ownBits

def Quad2.bits (q : Quad2) : List Bool := codeBits q.codes
def Quad4.bits (q : Quad4) : List Bool := codeBits q.codes
def Quad8.bits (q : Quad8) : List Bool := codeBits q.codes

/-- What a complete tile code makes of the pixel at a row and a column of its tile: a byte, or nothing where a SKIP lies on the path to it
(41_tile_codes.md R154). -/
def Quad2.pixel : Quad2 → Nat → Nat → Option Byte
  | .skip, _, _ => none
  | .fill c, _, _ => some c
  | .mask c0 c1 m, r, c => some (if m.getMsbD (r * 2 + c) then c1 else c0)
  | .raw p q u t, r, c => some (if r = 0 then (if c = 0 then p else q) else (if c = 0 then u else t))

def Quad4.pixel : Quad4 → Nat → Nat → Option Byte
  | .skip, _, _ => none
  | .fill c, _, _ => some c
  | .mask c0 c1 m, r, c => some (if m.getMsbD ((3 - r) * 4 + c) then c1 else c0)
  | .split k0 k1 k2 k3, r, c =>
    (if r < 2 then (if c < 2 then k0 else k1) else (if c < 2 then k2 else k3)).pixel (r % 2) (c % 2)

def Quad8.pixel : Quad8 → Nat → Nat → Option Byte
  | .skip, _, _ => none
  | .fill c, _, _ => some c
  | .mask c0 c1 m, r, c => some (if m.getMsbD ((7 - r) * 8 + c) then c1 else c0)
  | .split k0 k1 k2 k3, r, c =>
    (if r < 4 then (if c < 4 then k0 else k1) else (if c < 4 then k2 else k3)).pixel (r % 4) (c % 4)

/-- The payload of a COMP1 frame: its top-level codes laid end to end, then the trailing bits (30_encoding.md R80, R90). -/
def assemble (qs : List Quad8) (pad : List Bool) : List Byte := packBits (qs.flatMap Quad8.bits ++ pad)

/-- Read four things one after another. -/
def parseFour {α : Type} (one : List Bool → α × List Bool) (bits : List Bool) : (α × α × α × α) × List Bool :=
  let (a, bits) := one bits
  let (b, bits) := one bits
  let (c, bits) := one bits
  let (d, bits) := one bits
  ((a, b, c, d), bits)

/-- The complete tile code of a known size at the start of a bit string, and what is left (30_encoding.md R84). -/
def parse2 (bits : List Bool) : Quad2 × List Bool :=
  match decodeTile .t2 bits with
  | .fill2 c => (.fill c, bits.drop 10)
  | .mask2 c0 c1 m => (.mask c0 c1 m, bits.drop 22)
  | .raw2 p q r t => (.raw p q r t, bits.drop 34)
  | _ => (.skip, bits.drop 2)

def parse4 (bits : List Bool) : Quad4 × List Bool :=
  match decodeTile .t4 bits with
  | .fill4 c => (.fill c, bits.drop 10)
  | .mask4 c0 c1 m => (.mask c0 c1 m, bits.drop 34)
  | .split4 =>
    let ((a, b, c, d), rest) := parseFour parse2 (bits.drop 2)
    (.split a b c d, rest)
  | _ => (.skip, bits.drop 2)

def parse8 (bits : List Bool) : Quad8 × List Bool :=
  match decodeTile .t8 bits with
  | .fill8 c => (.fill c, bits.drop 10)
  | .mask8 c0 c1 m => (.mask c0 c1 m, bits.drop 82)
  | .split8 =>
    let ((a, b, c, d), rest) := parseFour parse4 (bits.drop 2)
    (.split a b c d, rest)
  | _ => (.skip, bits.drop 2)

end Sys2Proof.Machine
end

