-- ==== Sys2Proof/Machine/Recursion.lean ====
section
/-! DEFINITION. The decoder in the recursive form the spec gives it first (41_tile_codes.md R140 to R152, 42_frame_commands.md R183): every
operand comes from `BitRead` as 40_bitreader.md R110 computes it, and SPLIT decodes its children at once.  The machine steps by the work
list (R156); that the two are equal is a statement of Certificates/Slice0/Obligations.lean. -/

namespace Sys2Proof.Machine

/-- `SEL <- BitRead(2)`. -/
def recSel (s : State) : Except Trap (Nat × State) := do
  let (v, s) ← s.bitRead 2
  return (v, { s with sel := BitVec.ofNat 2 v })

/-- An 8-bit `BitRead` into a working register. -/
def recByte (r : ByteReg) (s : State) : Except Trap State := do
  let (v, s) ← s.bitRead 8
  return s.setByteReg r (BitVec.ofNat 8 v)

/-- FILL after its selector (R144). -/
def recFill (t : Tile) (s : State) : Except Trap State := do
  let s ← recByte .c0 s
  paintPixels t s.c0 (rowsDown t.size) s

/-- MASK's loop over its pixels (R147, R149). -/
def recMaskPixels (t : Tile) : List (Nat × Nat) → State → Except Trap State
  | [], s => .ok s
  | (r, c) :: ps, s => do
    let (v, s) ← s.bitRead 1
    let s := { s with mb := BitVec.ofNat 1 v }
    let s ← s.writePixel (t.x + c) (t.y + r) (if s.mb = 0#1 then s.c0 else s.c1)
    recMaskPixels t ps s

/-- MASK after its selector (R147 to R149). -/
def recMask (t : Tile) (s : State) : Except Trap State := do
  let s ← recByte .c0 s
  let s ← recByte .c1 s
  recMaskPixels t (maskOrder t.size) s

/-- RAW.2 after its selector (R152). -/
def recRaw (t : Tile) : List (Nat × Nat) → State → Except Trap State
  | [], s => .ok s
  | (r, c) :: ps, s => do
    let s ← recByte .px s
    let s ← s.writePixel (t.x + c) (t.y + r) s.px
    recRaw t ps s

/-- Decode a list of tiles one after another with a given `DecodeTile`. -/
def recTiles (decodeTile : Tile → State → Except Trap State) : List Tile → State → Except Trap State
  | [], s => .ok s
  | t :: ts, s => do
    let s ← decodeTile t s
    recTiles decodeTile ts s

/-- What a selector makes of a tile, SPLIT or its base case given (R140). -/
def recDispatch (selector3 : State → Except Trap State) (t : Tile) (s : State) : Except Trap State := do
  let (v, s) ← recSel s
  match v with
  | 0 => return s
  | 1 => recFill t s
  | 2 => recMask t s
  | _ => selector3 s

/-- `DecodeTile(x, y, 2)`: selector 3 is RAW.2 (R152). -/
def recTile2 (t : Tile) (s : State) : Except Trap State := recDispatch (recRaw t (rowsDown .t2)) t s

/-- `DecodeTile(x, y, 4)`: selector 3 is SPLIT.4 (R151). -/
def recTile4 (t : Tile) (s : State) : Except Trap State := recDispatch (recTiles recTile2 (childTiles .t2 t)) t s

/-- `DecodeTile(x, y, 8)`: selector 3 is SPLIT.8 (R150). -/
def recTile8 (t : Tile) (s : State) : Except Trap State := recDispatch (recTiles recTile4 (childTiles .t4 t)) t s

/-- `DecodeTile(x, y, s)` (R140). -/
def recTile (t : Tile) (s : State) : Except Trap State :=
  match t.size with
  | .t8 => recTile8 t s
  | .t4 => recTile4 t s
  | .t2 => recTile2 t s

/-- The outcome of decoding a list of tiles of a frame (42_frame_commands.md R183): `finish(OK)` after the last, `finish(CORRUPTED)` at the first
`OutOfBits`. -/
def recFrame (ts : List Tile) (s : State) : Host.Outcome State Fault Refusal :=
  match recTiles recTile ts s with
  | .ok s => .next (s.finish .ok)
  | .error (.outOfBits s) => .next (s.finish .corrupted)
  | .error (.fault f) => .fault f

end Sys2Proof.Machine
end

