-- ==== Sys2Proof/WellFormed.lean ====
section
/-! DEFINITION. Which instructions are well formed: the conditions the spec puts on the operands it gives. -/

namespace Sys2Proof

/-- A frame dimension is a multiple of 8 (10_state.md R24). -/
def dimWf (n : Nat) : Bool := n % 8 == 0

/-- A payload's length fits the 32 bits of `VLEN`: `0 <= L < 2^32` (00_scope.md R6, 92_eei_decisions.md D9). -/
def payloadWf (p : List Byte) : Bool := p.length < 2 ^ 32

/-- The well-formed instructions.  Every tile code is well formed, whatever its operands: "every 8-bit value is a legal palette index,
every mask bit value is legal" (30_encoding.md R87).  `WSEL = 11` is never issued, so RD.NONE is not (40_bitreader.md R118). -/
def Instr.wf : Instr → Bool
  | .skip8 | .skip4 | .skip2 => true
  | .fill8 _ | .fill4 _ | .fill2 _ => true
  | .mask8 _ _ _ | .mask4 _ _ _ | .mask2 _ _ _ => true
  | .split8 | .split4 => true
  | .raw2 _ _ _ _ => true
  | .streamStart w h => dimWf w && dimWf h
  | .frameComp0 p | .frameBlank p | .frameComp1 p | .frameIllegal p => payloadWf p
  | .readerReset | .cmdIllegal => true
  | .rd1 | .rd2 | .rd8 _ => true
  | .rdNone => false

end Sys2Proof
end

