-- ==== Sys2Proof/Safety.lean ====
section
/-! DEFINITION. The words claims about the machine are stated in: a tile's pixels, the machine's invariant, the shape of the work list. -/

namespace Sys2Proof.Machine

/-- The pixel `(x, y)` belongs to the tile. -/
def TileCovers (t : Tile) (x y : Nat) : Prop := t.x ≤ x ∧ x < t.x + t.size.side ∧ t.y ≤ y ∧ y < t.y + t.size.side

/-- The tile lies inside the frame (20_memory.md R55). -/
def TileInFrame (s : State) (t : Tile) : Prop := t.x + t.size.side ≤ s.w ∧ t.y + t.size.side ≤ s.h

/-- Two tiles have no pixel in common. -/
def TilesApart (t u : Tile) : Prop :=
  t.x + t.size.side ≤ u.x ∨ u.x + u.size.side ≤ t.x ∨ t.y + t.size.side ≤ u.y ∨ u.y + u.size.side ≤ t.y

/-- A frame is being decoded and the traversal has reached this tile. -/
def AtTile (s : State) (t : Tile) (rest : List Tile) : Prop := s.phase = .run ∧ s.todo = t :: rest

/-- The cell is none of the tile's. -/
def OutsideTile (s : State) (t : Tile) (a : Nat) : Prop := ∀ x y, TileCovers t x y → a ≠ s.pix x y

/-- The block is idle and a stream has been started: the condition on which a FRAME or READER_RESET command is admitted. -/
def IdleInStream (s : State) : Prop := s.phase = .idle ∧ s.started = true

/-- The machine's invariant.  Every clause is a sentence of the spec about every instant. -/
structure Inv (s : State) : Prop where
  /-- `VLEN` is the payload's length (10_state.md R22, R26). -/
  vlenIsLength : s.vlen = s.buf.length
  /-- `0 <= POS <= 8*L` (R21). -/
  posInPayload : s.pos ≤ 8 * s.vlen
  /-- `W` and `H` are multiples of 8 (R24). -/
  widthMultiple : s.w % 8 = 0
  heightMultiple : s.h % 8 = 0
  /-- The index buffer has exactly the cells `0 .. W*H - 1`, in canonical form (R23, 20_memory.md R59). -/
  cells : s.idx.map Prod.fst = List.range (s.w * s.h)
  /-- TODO is empty whenever PHASE = IDLE (R30). -/
  idleHasNoTiles : s.phase = .idle → s.todo = []
  /-- Only a COMP1 frame of a started stream runs across steps (R28, R30). -/
  runIsComp1 : s.phase = .run → s.started = true ∧ s.ftype = ftypeComp1
  /-- Every tile to be decoded lies inside the frame (20_memory.md R55). -/
  tilesInFrame : ∀ t ∈ s.todo, TileInFrame s t
  /-- The tiles of one frame never overlap (20_memory.md R60). -/
  tilesApart : s.todo.Pairwise TilesApart
  /-- Every selector is read at an even POS (41_tile_codes.md R160). -/
  posEven : s.phase = .run → s.pos % 2 = 0
  /-- The model's own: the engine's requests are served inside a tile code, none waits between steps (log entry 10). -/
  noRequest : s.req = none

/-- The shape of the work list behind R157: at most four tiles of size 2, then at most three of size 4 (four while no size-2 tile is left), then
top-level tiles, at most `T - 1` of them once one has been split. -/
def TodoShape (s : State) : Prop :=
  ∃ a b c : List Tile, s.todo = a ++ b ++ c ∧
    (∀ t ∈ a, t.size = .t2) ∧ (∀ t ∈ b, t.size = .t4) ∧ (∀ t ∈ c, t.size = .t8) ∧
    a.length ≤ 4 ∧ b.length ≤ 4 ∧ (a ≠ [] → b.length ≤ 3) ∧
    c.length ≤ (s.w / 8) * (s.h / 8) ∧ (a ≠ [] ∨ b ≠ [] → c.length + 1 ≤ (s.w / 8) * (s.h / 8))

/-- The most steps a tile takes with all its descendants: 1 at size 2, 1 + 4 at size 4, 1 + 4*5 at size 8, the "21 selector reads" of
30_encoding.md R86. -/
def tileSteps : TileSize → Nat
  | .t8 => 21
  | .t4 => 5
  | .t2 => 1

/-- The most steps a work list takes. -/
def todoSteps (ts : List Tile) : Nat := (ts.map fun t => tileSteps t.size).sum

/-- The next state of an outcome changed by a function; a fault or a refusal stays. -/
def mapNext (f : State → State) : Host.Outcome State Fault Refusal → Host.Outcome State Fault Refusal
  | .next s => .next (f s)
  | .fault r => .fault r
  | .refused r => .refused r

/-- The state with the working registers of a tile code blanked (10_state.md R29). -/
def blankWorking (s : State) : State := { s with sel := 0, c0 := 0, c1 := 0, px := 0, mb := 0 }

/-- The tile codes that are one for each size, by size. -/
def skipOf : TileSize → Instr
  | .t8 => .skip8
  | .t4 => .skip4
  | .t2 => .skip2

def fillOf (c : Byte) : TileSize → Instr
  | .t8 => .fill8 c
  | .t4 => .fill4 c
  | .t2 => .fill2 c

/-- A safe outcome: the step neither faults nor refuses. -/
def Completes (o : Host.Outcome State Fault Refusal) : Prop := ∃ s, o = .next s

/-- A sequence of reads of given widths, all of which succeed. -/
def readAll : List Nat → State → Except Trap State
  | [], s => .ok s
  | n :: ns, s => do
    let (_, s) ← s.bitRead n
    readAll ns s

/-- The state with the cursor `k` bits further on. -/
def movedOn (s : State) (k : Nat) : State := { s with pos := s.pos + k }

/-- What a MASK leaves at a tile of side `n` whose mask bit for row `r`, column `c` is `bit r c`: `C0` where it is 0, `C1` where it is 1; nothing outside
the tile. -/
def MaskPicture (s : State) (t : Tile) (m : Memory) (c0 c1 : Byte) (bit : Nat → Nat → Bool) : Prop :=
  (∀ r c, r < t.size.side → c < t.size.side →
    State.cell { s with idx := m } (s.pix (t.x + c) (t.y + r)) = some (if bit r c then c1 else c0)) ∧
  (∀ a, OutsideTile s t a → State.cell { s with idx := m } a = s.cell a)

end Sys2Proof.Machine
end

