-- ==== Sys2Proof/Certificates/Slice0/Obligations.lean ====
section
/-! DEFINITION. What is claimed of the model.  Each docstring names the rule of spec/ the claim follows, and, where a clause rests on a decision
of spec/92_eei_decisions.md or on a choice of the model, that decision and the log entry.  `s.remaining` is `REMAINING = 8*VLEN - POS`. -/

open Sys2Proof Sys2Proof.Machine

/-! ### Encoding -/

/-- Words written out bit by bit from 30_encoding.md R82 and R91 decode to the instruction they stand for. -/
def Obligations.WrittenOutWordsDecode : Prop :=
  decode (.tile .t8 [false, true, false, false, true, false, true, false, true, false]) = .fill8 0x2A ∧
  decode (.tile .t4 [false, false]) = .skip4 ∧
  decode (.tile .t4 [true, true]) = .split4 ∧
  decode (.tile .t2 [true, false, false, false, false, false, false, true, false, true, false, false, false, false, false, true,
    true, false, false, true, true, false]) = .mask2 0x05 0x06 0b0110 ∧
  decode (.command { cmdw := 0b0011, w := 16, h := 8 }) = .streamStart 16 8 ∧
  decode (.command { cmdw := 0b0110, payload := [0x11] }) = .frameComp1 [0x11] ∧
  decode (.request { wsel := 0b01, dst := .px }) = .rd2

/-- Decoding an encoded well-formed instruction gives it back, with every operand at every value (30_encoding.md R82, R83, R91). -/
def Obligations.DecodeOfEncode : Prop := ∀ i : Instr, i.wf = true → decode (encode i) = i

/-- A tile code is read the same whatever bits follow it in the stream: there is no marker between codes (30_encoding.md R80, R84). -/
def Obligations.DecodeIgnoresWhatFollows : Prop :=
  ∀ (i : Instr) (size : TileSize) (bits rest : List Bool), encode i = .tile size bits → decodeTile size (bits ++ rest) = i

/-- The coding of the seven commands, whose `x` bits are ignored, and of the four width selects (30_encoding.md R91).  The coding is wholly the
spec's own (92_eei_decisions.md D2, D3, D5, log entry 7). -/
def Obligations.CommandWordCoding : Prop :=
  (∀ (ft : BitVec 2) (w h : Nat) (p : List Byte),
    decodeCommand ⟨0b00#2 ++ ft, w, h, p⟩ = .streamStart w h ∧
    decodeCommand ⟨0b01#2 ++ ft, w, h, p⟩ =
      (if ft = 0 then .frameComp0 p else if ft = 1 then .frameBlank p else if ft = 2 then .frameComp1 p else .frameIllegal p) ∧
    decodeCommand ⟨0b10#2 ++ ft, w, h, p⟩ = .readerReset ∧
    decodeCommand ⟨0b11#2 ++ ft, w, h, p⟩ = .cmdIllegal) ∧
  (∀ dst : ByteReg,
    decodeRequest ⟨0b00#2, dst⟩ = .rd1 ∧ decodeRequest ⟨0b01#2, dst⟩ = .rd2 ∧ decodeRequest ⟨0b10#2, dst⟩ = .rd8 dst ∧
    decodeRequest ⟨0b11#2, dst⟩ = .rdNone)

/-- Packing a bit string into bytes keeps it: bit `k` of the bytes is bit `k` of the string, and a 0 fills up the last byte
(20_memory.md R51, 30_encoding.md R90). -/
def Obligations.PackedBitsAreReadBack : Prop :=
  ∀ (bits : List Bool) (k : Nat), bitAt (packBits bits) k = bits.getD k false

/-- A decoder that knows the size, 8, 4 or 2, finds where a complete tile code ends, with all its descendants, and what it says (30_encoding.md R84). -/
def Obligations.CompleteCodeParses : Prop :=
  (∀ (q : Quad8) (rest : List Bool), parse8 (q.bits ++ rest) = (q, rest)) ∧
  (∀ (q : Quad4) (rest : List Bool), parse4 (q.bits ++ rest) = (q, rest)) ∧
  (∀ (q : Quad2) (rest : List Bool), parse2 (q.bits ++ rest) = (q, rest))

/-- The length table of 30_encoding.md R85 is the length of the encodings and the sum of the widths of the reads; every length is even (R160); and
R86's bounds hold: on lengths, on reads (7, 29, 117), on selectors (1, 5, 21), on pixel writes (64 for a top-level tile), and for the codes of `T`
top-level tiles `T` times as much.  That the machine makes these reads and writes is TileCodeMakesExactlyItsReads. -/
def Obligations.CompleteCodeLengths : Prop :=
  (∀ q : Quad2, q.bits.length = q.len ∧ 2 ≤ q.len ∧ q.len ≤ 34 ∧ q.len % 2 = 0 ∧
    (readsOf q.codes).sum = q.len ∧ (readsOf q.codes).length ≤ 7 ∧ q.codes.length = 1 ∧ writesOf q.codes ≤ 4) ∧
  (∀ q : Quad4, q.bits.length = q.len ∧ 2 ≤ q.len ∧ q.len ≤ 138 ∧ q.len % 2 = 0 ∧
    (readsOf q.codes).sum = q.len ∧ (readsOf q.codes).length ≤ 29 ∧ q.codes.length ≤ 5 ∧ writesOf q.codes ≤ 16) ∧
  (∀ q : Quad8, q.bits.length = q.len ∧ 2 ≤ q.len ∧ q.len ≤ 554 ∧ q.len % 2 = 0 ∧
    (readsOf q.codes).sum = q.len ∧ (readsOf q.codes).length ≤ 117 ∧ q.codes.length ≤ 21 ∧ writesOf q.codes ≤ 64) ∧
  (∀ qs : List Quad8, 2 * qs.length ≤ (qs.map Quad8.len).sum ∧ (qs.map Quad8.len).sum ≤ 554 * qs.length ∧
    (readsOf (qs.flatMap Quad8.codes)).length ≤ 117 * qs.length ∧ writesOf (qs.flatMap Quad8.codes) ≤ 64 * qs.length)

/-! ### The bit reader -/

/-- An admitted read returns the bits at the cursor as an unsigned number, the earliest the most significant, and moves the cursor by its width;
it changes nothing else (20_memory.md R52, 40_bitreader.md R110). -/
def Obligations.BitReadReturnsTheBits : Prop :=
  ∀ (s : State) (n : Nat), (n = 1 ∨ n = 2 ∨ n = 8) → s.vlen = s.buf.length → n ≤ s.remaining →
    s.bitRead n = .ok (∑ j ∈ Finset.range n, (bitAt s.buf (s.pos + j)).toNat * 2 ^ (n - 1 - j), { s with pos := s.pos + n })

/-- Failure is all-or-nothing and repeatable: a read with too few bits left raises `OutOfBits` on the state as it was; a narrower read may still
succeed there; with nothing left, or an empty payload, every read fails (40_bitreader.md R117). -/
def Obligations.FailedReadChangesNothing : Prop :=
  ∀ (s : State) (n : Nat), (n = 1 ∨ n = 2 ∨ n = 8) →
    (s.bitRead n = .error (.outOfBits s) ↔ s.remaining < n) ∧
    (s.remaining = 1 → s.bitRead 2 = .error (.outOfBits s) ∧ s.bitRead 8 = .error (.outOfBits s) ∧
      ∃ v, s.bitRead 1 = .ok (v, { s with pos := s.pos + 1 })) ∧
    (s.remaining = 0 → s.bitRead n = .error (.outOfBits s)) ∧
    (s.vlen = 0 → s.bitRead n = .error (.outOfBits s))

/-- The accounting law (40_bitreader.md R119): a successful read lowers REMAINING by its width, a failed one leaves it, and after any sequence of
successful reads from `POS = 0` the cursor is the sum of their widths. -/
def Obligations.ReadAccounting : Prop :=
  (∀ (s t : State) (n v : Nat), (n = 1 ∨ n = 2 ∨ n = 8) → s.bitRead n = .ok (v, t) → t.remaining = s.remaining - n ∧ n ≤ s.remaining) ∧
  (∀ (s t : State) (n : Nat), (n = 1 ∨ n = 2 ∨ n = 8) → s.bitRead n = .error (.outOfBits t) → t.remaining = s.remaining) ∧
  (∀ (ns : List Nat) (s t : State), (∀ n ∈ ns, n = 1 ∨ n = 2 ∨ n = 8) → s.pos = 0 → readAll ns s = .ok t → t.pos = ns.sum)

/-- RD1 (40_bitreader.md R111): the bit at the cursor goes to MB, `(BUF[POS div 8] div 2^(7 - POS mod 8)) mod 2`, the cursor moves by 1; with no bit
left, `OutOfBits` is taken.  The model's choice is log entry 10: that the read is an instruction of its own whose answer goes to MB, and that
`OutOfBits` is taken (60_exceptions.md R204) also where no COMP1 frame runs, which R201 says does not arise. -/
def Obligations.Rd1ReadsOneBit : Prop :=
  ∀ s : State, s.vlen = s.buf.length → s.pos ≤ 8 * s.vlen →
    (s.pos < 8 * s.vlen →
      exec .rd1 s = .next { s with pos := s.pos + 1, mb := BitVec.ofNat 1 ((s.buf.getD (s.pos / 8) 0).toNat / 2 ^ (7 - s.pos % 8) % 2) }) ∧
    (s.pos = 8 * s.vlen → exec .rd1 s = .next { s with status := .corrupted, todo := [], phase := .idle })

/-- RD2 (40_bitreader.md R112): the two bits at the cursor go to SEL, `2*b(POS) + b(POS+1)`, from two bytes where they straddle; with fewer than two
left, `OutOfBits` is taken and the bit stays unread.  The model's choice is log entry 10: that the read is an instruction of its own whose answer
goes to SEL, and that `OutOfBits` is taken also where no COMP1 frame runs. -/
def Obligations.Rd2ReadsTwoBits : Prop :=
  ∀ s : State, s.vlen = s.buf.length →
    (2 ≤ s.remaining →
      exec .rd2 s = .next { s with
        pos := s.pos + 2, sel := BitVec.ofNat 2 (2 * (bitAt s.buf s.pos).toNat + (bitAt s.buf (s.pos + 1)).toNat) }) ∧
    (s.remaining < 2 → exec .rd2 s = .next { s with status := .corrupted, todo := [], phase := .idle })

/-- RD8 (40_bitreader.md R113): at a byte boundary the byte itself, elsewhere the low `8 - off` bits of one byte followed by the high `off` bits of the
next; with fewer than eight bits left, `OutOfBits` is taken.  The model's choice is log entry 10: that the read is an instruction of its own
whose request names the working register for the answer, and that `OutOfBits` is taken also where no COMP1 frame runs. -/
def Obligations.Rd8ReadsEightBits : Prop :=
  ∀ (s : State) (dst : ByteReg), s.vlen = s.buf.length →
    (8 ≤ s.remaining → s.pos % 8 = 0 →
      exec (.rd8 dst) s = .next ({ s with pos := s.pos + 8 }.setByteReg dst (s.buf.getD (s.pos / 8) 0))) ∧
    (8 ≤ s.remaining → s.pos % 8 ≠ 0 →
      exec (.rd8 dst) s = .next ({ s with pos := s.pos + 8 }.setByteReg dst
        (BitVec.ofNat 8 ((s.buf.getD (s.pos / 8) 0).toNat % 2 ^ (8 - s.pos % 8) * 2 ^ (s.pos % 8) +
          (s.buf.getD (s.pos / 8 + 1) 0).toNat / 2 ^ (8 - s.pos % 8))))) ∧
    (s.remaining < 8 → exec (.rd8 dst) s = .next { s with status := .corrupted, todo := [], phase := .idle })

/-- RD8 writes the one working register its request names, with the field the decoder takes from the same eight bits, and no other
(40_bitreader.md R113, 10_state.md R29).  That a request names its register is the model's reading (log entry 10). -/
def Obligations.ByteReadWritesOneRegister : Prop :=
  (∀ (s : State) (v : Byte),
    s.setByteReg .c0 v = { s with c0 := v } ∧ s.setByteReg .c1 v = { s with c1 := v } ∧ s.setByteReg .px v = { s with px := v }) ∧
  (∀ s : State, s.vlen = s.buf.length → 8 ≤ s.remaining →
    exec (.rd8 .c0) s = .next { s with pos := s.pos + 8, c0 := field 8 0 (window s.buf s.pos 8) } ∧
    exec (.rd8 .c1) s = .next { s with pos := s.pos + 8, c1 := field 8 0 (window s.buf s.pos 8) } ∧
    exec (.rd8 .px) s = .next { s with pos := s.pos + 8, px := field 8 0 (window s.buf s.pos 8) })

/-- A different split of the same bits into reads returns the same bits (40_bitreader.md R120): one 8-bit read is its four 2-bit reads, each of them its
two 1-bit reads. -/
def Obligations.SplittingReadsReturnsTheSameBits : Prop :=
  ∀ s : State, s.vlen = s.buf.length → 8 ≤ s.remaining →
    s.peek 8 = 64 * s.peek 2 + 16 * (movedOn s 2).peek 2 + 4 * (movedOn s 4).peek 2 + (movedOn s 6).peek 2 ∧
    (∀ k ∈ [0, 2, 4, 6], (movedOn s k).peek 2 = 2 * (movedOn s k).peek 1 + (movedOn s (k + 1)).peek 1)

/-- The width select 11 names no read: it stops under its own name (40_bitreader.md R118, 92_eei_decisions.md D29). -/
def Obligations.NoOtherReadWidth : Prop := ∀ s : State, exec .rdNone s = .refused .noSuchReadWidth

/-! ### The tile codes -/

/-- SKIP at each size (41_tile_codes.md R141 to R143): two bits, no cell written; `OutOfBits` from the selector read only. -/
def Obligations.SkipWritesNothing : Prop :=
  ∀ (s : State) (t : Tile) (rest : List Tile), AtTile s t rest →
    encode (skipOf t.size) = .tile t.size [false, false] ∧
    (2 ≤ s.remaining → exec (skipOf t.size) s = .next { s with pos := s.pos + 2, sel := 0, todo := rest }) ∧
    (s.remaining < 2 → exec (skipOf t.size) s = .next { s with status := .corrupted, todo := [], phase := .idle })

/-- FILL at each size (41_tile_codes.md R144 to R146): ten bits, every cell of the tile gets the index and no other cell changes; `OutOfBits` from the
selector read or the index read, and then no cell is written.  What SEL and C0 hold after the code, or once the command has ended, is the model's
(log entry 13). -/
def Obligations.FillPaintsItsTile : Prop :=
  ∀ (s : State) (t : Tile) (rest : List Tile) (c : Byte), AtTile s t rest → TileInFrame s t →
    encode (fillOf c t.size) = .tile t.size ([false, true] ++ fieldBits c) ∧
    (10 ≤ s.remaining → ∃ m, exec (fillOf c t.size) s = .next { s with pos := s.pos + 10, sel := 1, c0 := c, todo := rest, idx := m } ∧
      (∀ x y, TileCovers t x y → State.cell { s with idx := m } (s.pix x y) = some c) ∧
      (∀ a, OutsideTile s t a → State.cell { s with idx := m } a = s.cell a)) ∧
    (2 ≤ s.remaining → s.remaining < 10 →
      exec (fillOf c t.size) s = .next { s with pos := s.pos + 2, sel := 1, status := .corrupted, todo := [], phase := .idle }) ∧
    (s.remaining < 2 → exec (fillOf c t.size) s = .next { s with status := .corrupted, todo := [], phase := .idle })

/-- MASK.8 (41_tile_codes.md R147, 30_encoding.md R92): 82 bits; mask bit `j = (7 - r)*8 + c` is the pixel at row `r`, column `c`: the bottom row first.
Which bit value picks which colour is 92_eei_decisions.md D10, the order inside a row D11 (log entry 5). -/
def Obligations.Mask8PaintsBottomUp : Prop :=
  ∀ (s : State) (t : Tile) (rest : List Tile) (c0 c1 : Byte) (m : BitVec 64),
    AtTile s t rest → t.size = .t8 → TileInFrame s t → 82 ≤ s.remaining →
    ∃ mem, exec (.mask8 c0 c1 m) s = .next { s with
        pos := s.pos + 82, sel := 2, c0 := c0, c1 := c1, mb := BitVec.ofBool (m.getMsbD 63), todo := rest, idx := mem } ∧
      MaskPicture s t mem c0 c1 fun r c => m.getMsbD ((7 - r) * 8 + c)

/-- MASK.4 (R148, R92): 34 bits, the bottom row first (D10, D11, log entry 5). -/
def Obligations.Mask4PaintsBottomUp : Prop :=
  ∀ (s : State) (t : Tile) (rest : List Tile) (c0 c1 : Byte) (m : BitVec 16),
    AtTile s t rest → t.size = .t4 → TileInFrame s t → 34 ≤ s.remaining →
    ∃ mem, exec (.mask4 c0 c1 m) s = .next { s with
        pos := s.pos + 34, sel := 2, c0 := c0, c1 := c1, mb := BitVec.ofBool (m.getMsbD 15), todo := rest, idx := mem } ∧
      MaskPicture s t mem c0 c1 fun r c => m.getMsbD ((3 - r) * 4 + c)

/-- MASK.2 (R149, R92): 22 bits, the top row first, unlike the larger sizes (D10, D11, log entry 5). -/
def Obligations.Mask2PaintsTopDown : Prop :=
  ∀ (s : State) (t : Tile) (rest : List Tile) (c0 c1 : Byte) (m : BitVec 4),
    AtTile s t rest → t.size = .t2 → TileInFrame s t → 22 ≤ s.remaining →
    ∃ mem, exec (.mask2 c0 c1 m) s = .next { s with
        pos := s.pos + 22, sel := 2, c0 := c0, c1 := c1, mb := BitVec.ofBool (m.getMsbD 3), todo := rest, idx := mem } ∧
      MaskPicture s t mem c0 c1 fun r c => m.getMsbD (r * 2 + c)

/-- A MASK.8 that runs out at mask bit `j` has written the pixels of mask bits `0 .. j-1`, bottom rows first, and nothing else (41_tile_codes.md R155,
20_memory.md R64); each pixel is written right after its own bit (D13, log entry 6).  Colours and columns are D10 and D11 (log entry 5); what the working
registers hold once the command has ended is the model's (log entry 13). -/
def Obligations.Mask8RunsOutPartWay : Prop :=
  ∀ (s : State) (t : Tile) (rest : List Tile) (c0 c1 : Byte) (m : BitVec 64) (j : Nat),
    AtTile s t rest → t.size = .t8 → TileInFrame s t → j < 64 → s.remaining = 18 + j →
    ∃ mem, exec (.mask8 c0 c1 m) s = .next { s with
        pos := s.pos + 18 + j, sel := 2, c0 := c0, c1 := c1, mb := (if j = 0 then s.mb else BitVec.ofBool (m.getMsbD (j - 1))),
        status := .corrupted, todo := [], phase := .idle, idx := mem } ∧
      (∀ i, i < 64 → State.cell { s with idx := mem } (s.pix (t.x + i % 8) (t.y + (7 - i / 8))) =
        if i < j then some (if m.getMsbD i then c1 else c0) else s.cell (s.pix (t.x + i % 8) (t.y + (7 - i / 8)))) ∧
      (∀ a, OutsideTile s t a → State.cell { s with idx := mem } a = s.cell a)

/-- A MASK.4 that runs out at mask bit `j` has written the pixels of mask bits `0 .. j-1`, bottom rows first (R155, R64; D13, log entry 6).  Colours and columns
are D10 and D11 (log entry 5); what the working registers hold once the command has ended is the model's (log entry 13). -/
def Obligations.Mask4RunsOutPartWay : Prop :=
  ∀ (s : State) (t : Tile) (rest : List Tile) (c0 c1 : Byte) (m : BitVec 16) (j : Nat),
    AtTile s t rest → t.size = .t4 → TileInFrame s t → j < 16 → s.remaining = 18 + j →
    ∃ mem, exec (.mask4 c0 c1 m) s = .next { s with
        pos := s.pos + 18 + j, sel := 2, c0 := c0, c1 := c1, mb := (if j = 0 then s.mb else BitVec.ofBool (m.getMsbD (j - 1))),
        status := .corrupted, todo := [], phase := .idle, idx := mem } ∧
      (∀ i, i < 16 → State.cell { s with idx := mem } (s.pix (t.x + i % 4) (t.y + (3 - i / 4))) =
        if i < j then some (if m.getMsbD i then c1 else c0) else s.cell (s.pix (t.x + i % 4) (t.y + (3 - i / 4)))) ∧
      (∀ a, OutsideTile s t a → State.cell { s with idx := mem } a = s.cell a)

/-- A MASK.2 that runs out at mask bit `j` has written the pixels of mask bits `0 .. j-1`, from the top down (R155, R64; D13, log entry 6).  Colours and
columns are D10 and D11 (log entry 5); what the working registers hold once the command has ended is the model's (log entry 13). -/
def Obligations.Mask2RunsOutPartWay : Prop :=
  ∀ (s : State) (t : Tile) (rest : List Tile) (c0 c1 : Byte) (m : BitVec 4) (j : Nat),
    AtTile s t rest → t.size = .t2 → TileInFrame s t → j < 4 → s.remaining = 18 + j →
    ∃ mem, exec (.mask2 c0 c1 m) s = .next { s with
        pos := s.pos + 18 + j, sel := 2, c0 := c0, c1 := c1, mb := (if j = 0 then s.mb else BitVec.ofBool (m.getMsbD (j - 1))),
        status := .corrupted, todo := [], phase := .idle, idx := mem } ∧
      (∀ i, i < 4 → State.cell { s with idx := mem } (s.pix (t.x + i % 2) (t.y + i / 2)) =
        if i < j then some (if m.getMsbD i then c1 else c0) else s.cell (s.pix (t.x + i % 2) (t.y + i / 2))) ∧
      (∀ a, OutsideTile s t a → State.cell { s with idx := mem } a = s.cell a)

/-- A MASK of any size that runs out in its header, at the selector or at either index, writes no cell (41_tile_codes.md R147, R155).  What SEL and C0 hold once the
command has ended is the model's (log entry 13). -/
def Obligations.MaskRunsOutInItsHeader : Prop :=
  ∀ (s : State) (t : Tile) (rest : List Tile) (c0 c1 : Byte) (m8 : BitVec 64) (m4 : BitVec 16) (m2 : BitVec 4) (i : Instr),
    AtTile s t rest → (t.size = .t8 ∧ i = .mask8 c0 c1 m8 ∨ t.size = .t4 ∧ i = .mask4 c0 c1 m4 ∨ t.size = .t2 ∧ i = .mask2 c0 c1 m2) →
    (s.remaining < 2 → exec i s = .next { s with status := .corrupted, todo := [], phase := .idle }) ∧
    (2 ≤ s.remaining → s.remaining < 10 →
      exec i s = .next { s with pos := s.pos + 2, sel := 2, status := .corrupted, todo := [], phase := .idle }) ∧
    (10 ≤ s.remaining → s.remaining < 18 →
      exec i s = .next { s with pos := s.pos + 10, sel := 2, c0 := c0, status := .corrupted, todo := [], phase := .idle })

/-- SPLIT.8 and SPLIT.4 (41_tile_codes.md R150, R151, R156): two bits, no cell of its own; the four children of half the side come next, in row-major
order, before every tile that was waiting; `OutOfBits` from its own selector read ends the frame. -/
def Obligations.SplitQueuesItsChildren : Prop :=
  ∀ (s : State) (x y : Nat) (rest : List Tile),
    (AtTile s ⟨x, y, .t8⟩ rest → 2 ≤ s.remaining → exec .split8 s = .next { s with
      pos := s.pos + 2, sel := 3,
      todo := [⟨x, y, .t4⟩, ⟨x + 4, y, .t4⟩, ⟨x, y + 4, .t4⟩, ⟨x + 4, y + 4, .t4⟩] ++ rest }) ∧
    (AtTile s ⟨x, y, .t4⟩ rest → 2 ≤ s.remaining → exec .split4 s = .next { s with
      pos := s.pos + 2, sel := 3,
      todo := [⟨x, y, .t2⟩, ⟨x + 2, y, .t2⟩, ⟨x, y + 2, .t2⟩, ⟨x + 2, y + 2, .t2⟩] ++ rest }) ∧
    (AtTile s ⟨x, y, .t8⟩ rest → s.remaining < 2 → exec .split8 s = .next { s with status := .corrupted, todo := [], phase := .idle }) ∧
    (AtTile s ⟨x, y, .t4⟩ rest → s.remaining < 2 → exec .split4 s = .next { s with status := .corrupted, todo := [], phase := .idle })

/-- RAW.2 (41_tile_codes.md R152): 34 bits; the four literals go to the four pixels in the order top-left, top-right, bottom-left, bottom-right
(D12, log entry 5); no other cell changes. -/
def Obligations.Raw2WritesFourLiterals : Prop :=
  ∀ (s : State) (t : Tile) (rest : List Tile) (p q r u : Byte), AtTile s t rest → t.size = .t2 → TileInFrame s t → 34 ≤ s.remaining →
    ∃ m, exec (.raw2 p q r u) s = .next { s with pos := s.pos + 34, sel := 3, px := u, todo := rest, idx := m } ∧
      State.cell { s with idx := m } (s.pix t.x t.y) = some p ∧
      State.cell { s with idx := m } (s.pix (t.x + 1) t.y) = some q ∧
      State.cell { s with idx := m } (s.pix t.x (t.y + 1)) = some r ∧
      State.cell { s with idx := m } (s.pix (t.x + 1) (t.y + 1)) = some u ∧
      (∀ a, OutsideTile s t a → State.cell { s with idx := m } a = s.cell a)

/-- A RAW.2 that runs out at literal `k` has written pixels `0 .. k-1`, one that runs out at its selector none (41_tile_codes.md R155; D13, log entry 6).
Which pixel literal `k` is for is D12 (log entry 5); what PX and SEL hold once the command has ended is the model's (log entry 13). -/
def Obligations.Raw2RunsOutPartWay : Prop :=
  ∀ (s : State) (t : Tile) (rest : List Tile) (v : Fin 4 → Byte), AtTile s t rest → t.size = .t2 → TileInFrame s t →
    (s.remaining < 2 →
      exec (.raw2 (v 0) (v 1) (v 2) (v 3)) s = .next { s with status := .corrupted, todo := [], phase := .idle }) ∧
    (∀ k, k < 4 → 2 + 8 * k ≤ s.remaining → s.remaining < 10 + 8 * k →
      ∃ m, exec (.raw2 (v 0) (v 1) (v 2) (v 3)) s = .next { s with
          pos := s.pos + 2 + 8 * k, sel := 3, px := [s.px, v 0, v 1, v 2].getD k 0, status := .corrupted, todo := [], phase := .idle,
          idx := m } ∧
        (∀ i : Fin 4, State.cell { s with idx := m } (s.pix (t.x + i.val % 2) (t.y + i.val / 2)) =
          if i.val < k then some (v i) else s.cell (s.pix (t.x + i.val % 2) (t.y + i.val / 2))) ∧
        (∀ a, OutsideTile s t a → State.cell { s with idx := m } a = s.cell a))

/-- A tile code runs only where the traversal has reached a tile of its size; elsewhere it has no operands and stops by name (30_encoding.md R81: the
size "is context"; the refusal is log entry 8's). -/
def Obligations.TileCodeNeedsItsTile : Prop :=
  ∀ (s : State) (i : Instr) (size : TileSize) (bits : List Bool), encode i = .tile size bits →
    (s.phase = .idle ∨ s.todo = [] ∨ (∃ t rest, s.todo = t :: rest ∧ t.size ≠ size)) → exec i s = .refused .noTileOfThisSize

/-! ### The commands -/

/-- STREAM_START (42_frame_commands.md R185): the dimensions are taken, every cell of the new buffer holds `IDX_RESET` at its address, whatever that map is
(92_eei_decisions.md D6, log entry 3), the reader is empty, STATUS is OK, FTYPE is unchanged (10_state.md R33).  That the working registers
keep what they held is the model's (log entry 13). -/
def Obligations.StreamStartResetsTheBuffer : Prop :=
  ∀ (s : State) (w h : Nat), s.phase = .idle → w % 8 = 0 → h % 8 = 0 →
    ∃ m, exec (.streamStart w h) s = .next { s with
        w := w, h := h, started := true, idx := m, vlen := 0, buf := [], pos := 0, todo := [], status := .ok, phase := .idle } ∧
      (∀ a, a < w * h → State.cell { s with w := w, h := h, idx := m } a = some (Config.idxReset a)) ∧
      m.map Prod.fst = List.range (w * h)

/-- FRAME.COMP0 (42_frame_commands.md R181): no cell written, no bit read; OK with an empty payload, SIZE_VIOLATION otherwise (D16, log entry 7). -/
def Obligations.Comp0WritesNothing : Prop :=
  ∀ (s : State) (p : List Byte), IdleInStream s →
    exec (.frameComp0 p) s = .next { s with
      ftype := 0, vlen := p.length, buf := p, pos := 0, todo := [], phase := .idle, status := if p = [] then .ok else .sizeViolation }

/-- FRAME.BLANK (42_frame_commands.md R182): with a one-byte payload every cell of the frame gets that byte, POS = 8 and nothing remains; with any other
length nothing is read or written and STATUS is SIZE_VIOLATION (D17, log entry 7).  That C0 holds the byte once the command has ended is the model's
(log entry 13). -/
def Obligations.BlankFillsTheFrame : Prop :=
  ∀ (s : State), IdleInStream s →
    (∀ c : Byte, ∃ m, exec (.frameBlank [c]) s = .next { s with
        ftype := 1, vlen := 1, buf := [c], pos := 8, c0 := c, todo := [], phase := .idle, status := .ok, idx := m } ∧
      (∀ a, State.cell { s with idx := m } a = if a < s.w * s.h then some c else none)) ∧
    (∀ p : List Byte, p.length ≠ 1 → exec (.frameBlank p) s = .next { s with
      ftype := 1, vlen := p.length, buf := p, pos := 0, todo := [], phase := .idle, status := .sizeViolation })

/-- FRAME.COMP1 (42_frame_commands.md R180, R183, in the step form): the payload is taken, the cursor is at its start, and the tiles of the frame wait in
row-major order: `T = (W/8)*(H/8)` of them, the `k`-th at `x = 8*(k mod (W/8))`, `y = 8*(k div (W/8))`. -/
def Obligations.Comp1QueuesTheFrame : Prop :=
  ∀ (s : State) (p : List Byte), IdleInStream s →
    ∃ ts, exec (.frameComp1 p) s = .next { s with
        ftype := 2, vlen := p.length, buf := p, pos := 0, phase := .run, todo := ts } ∧
      ts.length = (s.w / 8) * (s.h / 8) ∧
      (∀ k, k < ts.length → ts[k]? = some ⟨8 * (k % (s.w / 8)), 8 * (k / (s.w / 8)), .t8⟩)

/-- Illegal codes (42_frame_commands.md R184): a FRAME of type 3 ends ILLEGAL straight after the prologue, an illegal command code at once; no cell is
written and no bit read (D18, log entry 7). -/
def Obligations.IllegalCodesEndIllegal : Prop :=
  ∀ s : State,
    (∀ p : List Byte, IdleInStream s → exec (.frameIllegal p) s = .next { s with
      ftype := 3, vlen := p.length, buf := p, pos := 0, todo := [], phase := .idle, status := .illegal }) ∧
    (s.phase = .idle → exec .cmdIllegal s = .next { s with todo := [], phase := .idle, status := .illegal })

/-- READER_RESET (40_bitreader.md R115): the cursor goes to 0, so REMAINING is `8*L` again, and nothing else changes but STATUS (D33). -/
def Obligations.ReaderResetRewinds : Prop :=
  ∀ s : State, IdleInStream s →
    ∃ s', exec .readerReset s = .next s' ∧ s' = { s with pos := 0, todo := [], phase := .idle, status := .ok } ∧ s'.remaining = 8 * s.vlen

/-- Where a command is refused (42_frame_commands.md R189, 60_exceptions.md R205, D23 to D25, log entry 8): any command while a frame runs; a FRAME or
READER_RESET before a STREAM_START; STREAM_START with a dimension that is not a multiple of 8. -/
def Obligations.CommandsAreRefusedByName : Prop :=
  (∀ (s : State) (c : PortCommand), s.phase = .run → exec (decodeCommand c) s = .refused .commandWhileBusy) ∧
  (∀ (s : State) (p : List Byte), s.phase = .idle → s.started = false →
    ∀ i ∈ [Instr.frameComp0 p, .frameBlank p, .frameComp1 p, .frameIllegal p, .readerReset], exec i s = .refused .streamNotStarted) ∧
  (∀ (s : State) (w h : Nat), s.phase = .idle → w % 8 ≠ 0 ∨ h % 8 ≠ 0 → exec (.streamStart w h) s = .refused .dimensionNotMultipleOf8)

/-! ### The step -/

/-- A step runs the decoded instruction: the command the host issues; the request waiting at the reader; while a frame runs, the tile code at the cursor for
the tile at the head of TODO.  Around exec, step only takes the host's action, or the request, off its list.  A host that waits for BUSY = 0, lets a step
pass, or has nothing more to do leaves the step to the engine; a wait is over on an idle block; a host read is one step that changes nothing, where `hostRead`
allows it; a host write is refused by name.  Hardware reset is HardwareResetFromAnywhere.  The host's list is log entry 9's, the request waiting at the reader
(`req`) log entry 10's, the refusals log entry 8's. -/
def Obligations.StepRunsTheDecodedInstruction : Prop :=
  (∀ (s : State) (c : PortCommand) (rest : List HostEvent), s.host = .command c :: rest →
    step s = exec (decode (.command c)) { s with host := rest }) ∧
  (∀ (s : State) (r : ReadRequest), s.host = [] → s.req = some r → step s = exec (decode (.request r)) { s with req := none }) ∧
  (∀ (s : State) (t : Tile) (rest : List Tile), s.host = [] → s.req = none → AtTile s t rest →
    step s = exec (decode (.tile t.size (window s.buf s.pos 82))) s) ∧
  (∀ (s : State) (rest : List HostEvent), s.host = .waitIdle :: rest → s.phase = .run → step s = engineStep s) ∧
  (∀ (s : State) (rest : List HostEvent), s.host = .pass :: rest → step s = engineStep { s with host := rest }) ∧
  (∀ s : State, s.host = [] → step s = engineStep s) ∧
  (∀ (s : State) (rest : List HostEvent), s.host = .waitIdle :: rest → s.phase = .idle → step s = .next { s with host := rest }) ∧
  (∀ (s : State) (i : HostItem) (rest : List HostEvent), s.host = .read i :: rest →
    (∀ v, hostRead i s = .next v → step s = .next { s with host := rest }) ∧
    (∀ f, hostRead i s = .fault f → step s = .fault f) ∧ (∀ r, hostRead i s = .refused r → step s = .refused r)) ∧
  (∀ (s : State) (i : HostItem) (rest : List HostEvent), s.host = .write i :: rest →
    step s = .refused (if s.phase = .run then .hostAccessWhileBusy else .hostAccessForbidden))

/-- The fetched tile code is the one the payload spells: where the stream at the cursor holds an encoded tile code's bits, that code is fetched
(30_encoding.md R80, 20_memory.md R51). -/
def Obligations.FetchReadsTheStream : Prop :=
  ∀ (s : State) (i : Instr) (size : TileSize) (bits : List Bool), encode i = .tile size bits →
    (∀ k, k < bits.length → bitAt s.buf (s.pos + k) = bits.getD k false) → s.fetchTile size = i

/-- The steps that run no instruction: an idle block waits; the step that finds TODO empty ends the frame OK and looks at no trailing bit
(41_tile_codes.md R156, 42_frame_commands.md R183, 60_exceptions.md R211; D15, log entry 7). -/
def Obligations.IdleWaitsAndFrameEnds : Prop :=
  (∀ s : State, s.host = [] → s.req = none → s.phase = .idle → step s = .next s) ∧
  (∀ s : State, s.host = [] → s.req = none → s.phase = .run → s.todo = [] →
    step s = .next { s with status := .ok, phase := .idle })

/-- Hardware reset at any time, also in the middle of a frame, is the reset state (70_reset_and_hazards.md R230), with the values the spec gives; what
the host does afterwards is its own.  The values of W, H, FTYPE, IDX and the working registers are log entry 2's. -/
def Obligations.HardwareResetFromAnywhere : Prop :=
  ∀ (s : State) (rest : List HostEvent), s.host = .hardwareReset :: rest →
    ∃ s', step s = .next s' ∧ s' = { State.reset with host := rest } ∧
      s'.phase = .idle ∧ s'.started = false ∧ s'.pos = 0 ∧ s'.vlen = 0 ∧ s'.buf = [] ∧ s'.status = .ok ∧ s'.todo = []

/-- What the host may read (10_state.md R32): while a frame runs only BUSY; when idle the registers, each as it stands; never an internal register; a read
changes nothing; and it may write nothing outside a command (70_reset_and_hazards.md R244, D22, log entry 8).  BUSY reads 1 while PHASE = RUN and 0 while it is
IDLE (10_state.md R28); STATUS reads 0 for OK, 1 for CORRUPTED, 2 for SIZE_VIOLATION, 3 for ILLEGAL (R27, D4, log entry 7). -/
def Obligations.HostAccessRules : Prop :=
  ∀ s : State,
    hostRead .busy s = .next s.busy.toNat ∧
    hostRead .busy s = .next (if s.phase = .run then 1 else 0) ∧
    (s.phase = .run → ∀ i, i ≠ .busy → hostRead i s = .refused .hostAccessWhileBusy) ∧
    (s.phase = .idle →
      hostRead .w s = .next s.w ∧ hostRead .h s = .next s.h ∧ hostRead .ftype s = .next s.ftype.toNat ∧ hostRead .vlen s = .next s.vlen ∧
      hostRead .pos s = .next s.pos ∧ hostRead .remaining s = .next (8 * s.vlen - s.pos) ∧ hostRead .status s = .next s.status.code.toNat ∧
      (s.status = .ok → hostRead .status s = .next 0) ∧ (s.status = .corrupted → hostRead .status s = .next 1) ∧
      (s.status = .sizeViolation → hostRead .status s = .next 2) ∧ (s.status = .illegal → hostRead .status s = .next 3) ∧
      (∀ a v, s.cell a = some v → hostRead (.idx a) s = .next v.toNat) ∧
      (∀ i v, s.buf[i]? = some v → hostRead (.buf i) s = .next v.toNat) ∧
      hostRead .started s = .refused .hostAccessForbidden ∧ hostRead .working s = .refused .hostAccessForbidden ∧
      hostRead .todo s = .refused .hostAccessForbidden) ∧
    (∀ i v, hostRead i s = .next v → hostStep (.read i) s = .next s) ∧
    (∀ i, ∃ r, hostStep (.write i) s = .refused r)

/-! ### Whole-machine rules -/

/-- The invariant holds at reset.  What R33 gives (10_state.md) makes most clauses true; that W and H are multiples of 8 and that IDX has exactly `W*H`
cells rest on the zeros and the empty list of log entry 2, and that no request waits on log entry 10. -/
def Obligations.ResetMeetsTheInvariant : Prop := Inv State.reset

/-- Every step keeps the invariant, whatever the host does: VLEN is the payload's length, POS stays inside it and even at every selector, the index
buffer has exactly the frame's cells in canonical form, the tiles to come lie in the frame and apart, an idle block has none
(10_state.md R21 to R30, 20_memory.md R55, R60, 41_tile_codes.md R160).  Where the step is a hardware reset, W, H and IDX meet it by the values of log entry 2
(10_state.md R33 leaves them unspecified); the clause on `req` is the model's own (log entry 10). -/
def Obligations.StepKeepsTheInvariant : Prop := ∀ s s' : State, Inv s → step s = .next s' → Inv s'

/-- From a state that meets the invariant the engine never stops: no step of its own faults or is refused, for any payload ("every bit string is a
legal prefix", 30_encoding.md R87; "no situation makes the block stuck", 93_implementation_defined.md section 2). -/
def Obligations.EngineNeverStops : Prop := ∀ s : State, Inv s → Completes (engineStep s)

/-- A frame ends: from any state of a running frame that meets the invariant, with no action of the host to come, the block is idle after at most as many steps as the
waiting tiles can take, 21 for one of size 8, and one more (42_frame_commands.md R187, 70_reset_and_hazards.md R247). -/
def Obligations.EveryFrameEnds : Prop :=
  ∀ s : State, Inv s → s.host = [] → ∃ s', core.run (todoSteps s.todo + 1) s = .next s' ∧ s'.phase = .idle ∧ s'.todo = []

/-- The work list is the recursion (41_tile_codes.md R156): stepping through TODO gives, in every register and every cell, what the recursive decoder gives
that takes every operand from `BitRead`, OK or cut short. -/
def Obligations.WorkListIsTheRecursion : Prop :=
  ∀ s : State, s.phase = .run → s.req = none → s.host = [] → s.vlen = s.buf.length →
    core.run (todoSteps s.todo + 1) s = recFrame s.todo s

/-- A COMP1 command, from the host's issue to the end, is the frame driver of 42_frame_commands.md R183: `finish(OK)` after the last top-level tile in row-major
order, `finish(CORRUPTED)` at the first `OutOfBits`, nothing undone. -/
def Obligations.Comp1FrameIsTheDriver : Prop :=
  ∀ (s : State) (p : List Byte), Inv s → IdleInStream s → s.host = [.command { cmdw := 0b0110, payload := p }] →
    core.run (21 * ((s.w / 8) * (s.h / 8)) + 2) s =
      recFrame (topTiles s.w s.h) { s with ftype := 2, vlen := p.length, buf := p, pos := 0, phase := .run, todo := topTiles s.w s.h, host := [] }

/-- A complete tile code, its bits in the payload at the cursor, is decoded by one step for each of its codes: it draws its picture, advances POS by
exactly its length, writes every cell of its tile but those under a SKIP and no other, and leaves the tiles behind it waiting
(41_tile_codes.md R153, R154, R156, 30_encoding.md R85; the pictures rest on D10 to D12, log entry 5). -/
def Obligations.CompleteCodeDrawsItsPicture : Prop :=
  ∀ (s : State) (t : Tile) (rest : List Tile) (q : Quad8), s.host = [] → s.req = none → AtTile s t rest → t.size = .t8 → TileInFrame s t →
    (∀ k, k < q.len → bitAt s.buf (s.pos + k) = q.bits.getD k false) → q.len ≤ s.remaining →
    ∃ s', core.run q.codes.length s = .next s' ∧ s'.pos = s.pos + q.len ∧ s'.todo = rest ∧ s'.phase = .run ∧
      (∀ r c, r < 8 → c < 8 →
        s'.cell (s.pix (t.x + c) (t.y + r)) = (q.pixel r c).orElse fun _ => s.cell (s.pix (t.x + c) (t.y + r))) ∧
      (∀ a, OutsideTile s t a → s'.cell a = s.cell a)

/-- A frame written by the assembler is decoded to the picture it was written for: after FRAME.COMP1 with the payload of one complete code for each
top-level tile, whatever bits fill it up, STATUS is OK, POS is the sum of the lengths, and each pixel is what the code of its tile makes of it,
or as the previous frame left it (42_frame_commands.md R183, R188, 30_encoding.md R80, R88, R90; D10 to D12, D15, log entries 5 and 7). -/
def Obligations.AssembledFrameDrawsItsPicture : Prop :=
  ∀ (s : State) (qs : List Quad8) (pad : List Bool), Inv s → IdleInStream s → qs.length = (s.w / 8) * (s.h / 8) →
    s.host = [.command { cmdw := 0b0110, payload := assemble qs pad }] →
    ∃ s', core.run ((qs.flatMap Quad8.codes).length + 2) s = .next s' ∧ s'.phase = .idle ∧ s'.status = .ok ∧
      s'.pos = (qs.map Quad8.len).sum ∧
      (∀ x y, x < s.w → y < s.h →
        s'.cell (s.pix x y) =
          ((qs.getD (y / 8 * (s.w / 8) + x / 8) .skip).pixel (y % 8) (x % 8)).orElse fun _ => s.cell (s.pix x y))

/-- TODO never holds more than `T - 1 + 3 + 4` tiles of a frame of `T` (41_tile_codes.md R157): its shape is kept by every step, and the shape gives the bound. -/
def Obligations.WorkListStaysShort : Prop :=
  TodoShape State.reset ∧
  (∀ s s' : State, Inv s → TodoShape s → step s = .next s' → TodoShape s') ∧
  (∀ s : State, TodoShape s → s.todo.length ≤ (s.w / 8) * (s.h / 8) + 6)

/-- A tile code writes only cells of its own tile (41_tile_codes.md R154), whatever the payload: a step at a tile leaves every other cell as it was. -/
def Obligations.StepWritesOnlyItsTile : Prop :=
  ∀ (s s' : State) (t : Tile) (rest : List Tile), Inv s → AtTile s t rest → engineStep s = .next s' →
    ∀ a, OutsideTile s t a → s'.cell a = s.cell a

/-- Only `OutOfBits` and the end of the tiles leave RUN (60_exceptions.md R201, R204, R206): where a step at a tile makes the block idle, STATUS is CORRUPTED, TODO
is empty, the payload had fewer bits left than the tile code is long, the cursor stands where the first read that did not succeed began
(41_tile_codes.md R153), and the rest of the block is kept; and at a tile inside the frame, where the payload has fewer bits left than the code is long, the step does end the frame so. -/
def Obligations.OnlyOutOfBitsCutsAFrameShort : Prop :=
  (∀ (s s' : State) (t : Tile) (rest : List Tile), s.req = none → AtTile s t rest → engineStep s = .next s' → s'.phase = .idle →
    s'.status = .corrupted ∧ s'.todo = [] ∧ (∃ n, (n = 1 ∨ n = 2 ∨ n = 8) ∧ s'.remaining < n) ∧ s.pos ≤ s'.pos ∧
    s.remaining < (s.fetchTile t.size).ownBits.length ∧
    s'.pos = s.pos + bitsRead (codeReads (s.fetchTile t.size)) s.remaining ∧
    s'.buf = s.buf ∧ s'.vlen = s.vlen ∧ s'.ftype = s.ftype ∧ s'.w = s.w ∧ s'.h = s.h) ∧
  (∀ (s : State) (t : Tile) (rest : List Tile), s.req = none → AtTile s t rest → TileInFrame s t →
    s.remaining < (s.fetchTile t.size).ownBits.length →
    ∃ s', engineStep s = .next s' ∧ s'.phase = .idle ∧ s'.status = .corrupted)

/-- The payload cannot change the block's configuration or itself, and moves the cursor only forward (10_state.md R21, R22, 41_tile_codes.md R158,
60_exceptions.md R210): a step of the engine changes none of W, H, STARTED, FTYPE, VLEN, BUF,
and STATUS only at the end of a command (R27). -/
def Obligations.EngineLeavesTheConfiguration : Prop :=
  ∀ s s' : State, engineStep s = .next s' →
    s'.w = s.w ∧ s'.h = s.h ∧ s'.started = s.started ∧ s'.ftype = s.ftype ∧ s'.vlen = s.vlen ∧ s'.buf = s.buf ∧ s'.host = s.host ∧
    s.pos ≤ s'.pos ∧ (s'.phase = .run → s'.status = s.status)

/-- The index buffer is never reset between frames except at stream start (10_state.md R23, 42_frame_commands.md R188): a command that is neither STREAM_START
nor FRAME.BLANK leaves it as it was. -/
def Obligations.CommandsCarryTheBufferForward : Prop :=
  ∀ (i : Instr) (c : PortCommand) (s s' : State), encode i = .command c → (∀ w h, i ≠ .streamStart w h) → (∀ p, i ≠ .frameBlank p) →
    exec i s = .next s' → s'.idx = s.idx ∧ s'.w = s.w ∧ s'.h = s.h ∧ s'.started = s.started

/-- No behaviour depends on STATUS (10_state.md R27, 42_frame_commands.md R186): after any outcome the block takes the next command the same way.  Nor is STATUS
sticky: a step either gives it the same value whatever it was or leaves it as it was, and the step that ends a command always gives it its value. -/
def Obligations.StatusIsNeverRead : Prop :=
  ∀ (s : State) (st : Status),
    mapNext (fun t => { t with status := .ok }) (step { s with status := st }) = mapNext (fun t => { t with status := .ok }) (step s) ∧
    (∀ t u, step s = .next t → step { s with status := st } = .next u →
      (u.status = t.status ∨ (u.status = st ∧ t.status = s.status)) ∧
      ((s.phase = .run ∨ ∃ c rest, s.host = .command c :: rest) → t.phase = .idle → u.status = t.status))

/-- The engine never reads the index buffer (20_memory.md R56, 41_tile_codes.md R159): with other contents every instruction ends the same way, with the same
cursor, STATUS and registers, and each cell is either written with the same byte in both or left alone in both. -/
def Obligations.IndexBufferIsNeverRead : Prop :=
  ∀ (i : Instr) (s : State) (m : Memory),
    mapNext (fun t => { t with idx := [] }) (exec i { s with idx := m }) = mapNext (fun t => { t with idx := [] }) (exec i s) ∧
    (∀ t u, exec i s = .next t → exec i { s with idx := m } = .next u →
      ∀ a, Memory.read a u.idx = Memory.read a t.idx ∨ (Memory.read a t.idx = Memory.read a s.idx ∧ Memory.read a u.idx = Memory.read a m))

/-- The working registers are dead at every tile-code boundary (10_state.md R29): what they hold before an instruction changes nothing but what they may hold
after it. -/
def Obligations.WorkingRegistersAreDead : Prop :=
  ∀ (i : Instr) (s : State) (sel : BitVec 2) (c0 c1 px : Byte) (mb : BitVec 1),
    mapNext blankWorking (exec i { s with sel := sel, c0 := c0, c1 := c1, px := px, mb := mb }) = mapNext blankWorking (exec i s)

/-! ### The assembler -/

/-- MASKV draws the picture it is given (30_encoding.md R90): after `MASKV.s c0 c1 : row0 / .. `, the pixel at row `r`, column `c` of the tile is `c1` where the
picture's bit is 1 and `c0` where it is 0 (D10, D11, log entry 5). -/
def Obligations.MaskvDrawsThePicture : Prop :=
  ∀ (s : State) (t : Tile) (rest : List Tile) (c0 c1 : Byte) (rows : List (List Bool)),
    AtTile s t rest → TileInFrame s t → rows.length = t.size.side → (∀ row ∈ rows, row.length = t.size.side) →
    18 + t.size.side * t.size.side ≤ s.remaining →
    ∃ s', exec (maskv t.size c0 c1 rows) s = .next s' ∧
      ∀ r c, r < t.size.side → c < t.size.side →
        s'.cell (s.pix (t.x + c) (t.y + r)) = some (if (rows.getD r []).getD c false then c1 else c0)

/-- A word placed by the opcode table's numbering is what the next step runs.  No rule gives this: how an instruction is placed is log entry 11's, how the
table's one numbering is read log entry 12's. -/
def Obligations.PlacedWordIsRun : Prop :=
  ∀ (s : State) (nbits w : Nat) (i : Instr), decodeTableWord nbits w = some i →
    ∃ t, step (s.withFetchWord nbits w) = exec i t ∧ t = { s.withFetchWord nbits w with host := [], req := none }

/-! ### The work of a tile code -/

/-- A tile code makes exactly its reads and its pixel writes (41_tile_codes.md R153, R154), whatever is left of the payload: it moves the cursor by the widths of
the reads that succeed, so that with enough bits, and only then, it completes, its whole length further on; the index buffer changes by writes to different
pixels of its own tile, as many as the code writes if it completes and no more if it does not. -/
def Obligations.TileCodeMakesExactlyItsReads : Prop :=
  ∀ (s : State) (t : Tile) (rest : List Tile) (i : Instr) (bits : List Bool), AtTile s t rest → TileInFrame s t → encode i = .tile t.size bits →
    (codeReads i).sum = bits.length ∧
    ∃ s' l, exec i s = .next s' ∧ s'.pos = s.pos + bitsRead (codeReads i) s.remaining ∧ (s'.phase = .run ↔ bits.length ≤ s.remaining) ∧
      s'.idx = Memory.writes l s.idx ∧ (l.map Prod.fst).Nodup ∧ (∀ p ∈ l, ∃ x y, TileCovers t x y ∧ p.1 = s.pix x y) ∧
      l.length ≤ codeWrites i ∧ (s'.phase = .run → l.length = codeWrites i)
end

