-- ==== Sys2Proof/Laws/Bits.lean ====
section
/-! SUPPORT. The laws of bit strings: a field of a longer string is found where it was laid, and packing keeps every bit. -/

namespace Sys2Proof

/-- A field depends only on the bits it spans. -/
theorem fieldNat_append {l r : List Bool} {off n : Nat} (h : off + n ≤ l.length) :
    fieldNat (l ++ r) off n = fieldNat l off n := by
  induction n with
  | zero => rfl
  | succ n ih =>
    simp only [fieldNat]
    rw [ih (by omega)]
    simp [List.getD_eq_getElem?_getD, List.getElem?_append_left (show off + n < l.length by omega)]

/-- A field after a prefix is the same field of what follows the prefix. -/
theorem fieldNat_skip {l r : List Bool} {off n : Nat} : fieldNat (l ++ r) (l.length + off) n = fieldNat r off n := by
  induction n with
  | zero => rfl
  | succ n ih =>
    simp only [fieldNat]
    rw [ih]
    simp [List.getD_eq_getElem?_getD, List.getElem?_append_right, Nat.add_assoc]

@[simp] theorem fieldBits_length {n : Nat} (v : BitVec n) : (fieldBits v).length = n := by simp [fieldBits]

/-- A field is a number of its width. -/
theorem fieldNat_lt (bits : List Bool) (off n : Nat) : fieldNat bits off n < 2 ^ n := by
  induction n with
  | zero => simp [fieldNat]
  | succ n ih =>
    simp only [fieldNat, pow_succ]
    have := Bool.toNat_lt (bits.getD (off + n) false)
    omega

/-- The top `k` bits of a word. -/
theorem fieldNat_fieldBits_top {n : Nat} (v : BitVec n) {k : Nat} (hk : k ≤ n) :
    fieldNat (fieldBits v) 0 k = v.toNat / 2 ^ (n - k) := by
  induction k with
  | zero => simp [fieldNat, Nat.div_eq_of_lt v.isLt]
  | succ k ih =>
    have hget : (fieldBits v).getD (0 + k) false = v.getMsbD k := by
      simp [fieldBits, List.getD_eq_getElem?_getD, show k < n by omega]
    have hbit : (v.getMsbD k).toNat = v.toNat / 2 ^ (n - (k + 1)) % 2 := by
      have : n - 1 - k = n - (k + 1) := by omega
      simp only [BitVec.getMsbD, show k < n by omega, BitVec.getLsbD, Nat.testBit_eq_decide_div_mod_eq, this]
      rcases Nat.mod_two_eq_zero_or_one (v.toNat / 2 ^ (n - (k + 1))) with h | h <;> simp [h]
    have e : (2 : Nat) ^ (n - k) = 2 ^ (n - (k + 1)) * 2 := by rw [← pow_succ]; congr 1; omega
    simp only [fieldNat, ih (by omega), hget, hbit, e, ← Nat.div_div_eq_div_mul]
    omega

/-- The bits of a word are the word. -/
theorem fieldNat_fieldBits {n : Nat} (v : BitVec n) : fieldNat (fieldBits v) 0 n = v.toNat := by
  simpa using fieldNat_fieldBits_top v (k := n) le_rfl

/-- A word laid somewhere in a bit string is found there. -/
theorem field_fieldBits {n : Nat} (v : BitVec n) {l r : List Bool} {off : Nat} (h : l.length = off) :
    field n off (l ++ (fieldBits v ++ r)) = v := by
  subst h
  have := @fieldNat_skip l (fieldBits v ++ r) 0 n
  simp only [Nat.add_zero] at this
  rw [field, this, fieldNat_append (by simp), fieldNat_fieldBits]
  simp

/-- The bits of a field, from the top. -/
theorem field_getMsbD {n off j : Nat} (bits : List Bool) (hj : j < n) : (field n off bits).getMsbD j = bits.getD (off + j) false := by
  have key : ∀ (n off j : Nat), j < n → (fieldNat bits off n).testBit (n - 1 - j) = bits.getD (off + j) false := by
    intro n
    induction n with
    | zero => intro _ _ h; omega
    | succ n ih =>
      intro off j hj
      simp only [fieldNat]
      by_cases hjn : j = n
      · subst hjn
        simp only [Nat.add_sub_cancel, Nat.sub_self, Nat.testBit_zero]
        cases bits.getD (off + j) false <;> simp
      · have e1 : n + 1 - 1 - j = (n - 1 - j) + 1 := by omega
        have e2 : (2 * fieldNat bits off n + (bits.getD (off + n) false).toNat) / 2 = fieldNat bits off n := by
          have := Bool.toNat_lt (bits.getD (off + n) false); omega
        rw [e1, Nat.testBit_succ, e2]
        exact ih off j (by omega)
  simp only [BitVec.getMsbD, hj, decide_true, Bool.true_and, field, BitVec.getLsbD, BitVec.toNat_ofNat,
    Nat.mod_eq_of_lt (fieldNat_lt bits off n)]
  exact key n off j hj

end Sys2Proof
end

