-- ==== Sys2Proof/Laws/Memory.lean ====
section
/-! SUPPORT. The laws of the index memory: what a read gives after a write, and that every operation keeps the canonical form. -/

namespace Sys2Proof.Machine

/-- A read after a write gives the written byte at the written address and the old byte everywhere else. -/
theorem Memory.read_write (a b : Nat) (v : Byte) (m : Memory) :
    Memory.read a (Memory.write b v m) = if a = b then some v else Memory.read a m := by
  induction m with
  | nil =>
    by_cases h : a = b <;> simp [Memory.write, Memory.read, h]
  | cons hd m ih =>
    obtain ⟨k, u⟩ := hd
    simp only [Memory.write]
    by_cases hbk : b = k
    · subst hbk
      by_cases hab : a = b <;> simp [Memory.read, hab]
    · by_cases hlt : b < k
      · simp only [if_neg hbk, if_pos hlt, Memory.read]
        by_cases hab : a = b
        · simp [hab]
        · by_cases h2 : a < b
          · have : ¬ a = k := by omega
            have : a < k := by omega
            simp [*]
          · simp [*]
      · simp only [if_neg hbk, if_neg hlt, Memory.read, ih]
        by_cases hak : a = k
        · have : ¬ k = b := fun h => hbk h.symm
          simp [hak, this]
        · by_cases h2 : a < k
          · have : ¬ a = b := by omega
            simp [*]
          · simp [*]

@[simp] theorem Memory.read_write_same (a : Nat) (v : Byte) (m : Memory) :
    Memory.read a (Memory.write a v m) = some v := by simp [Memory.read_write]

theorem Memory.read_write_other {a b : Nat} (v : Byte) (m : Memory) (h : a ≠ b) :
    Memory.read a (Memory.write b v m) = Memory.read a m := by simp [Memory.read_write, h]

/-- The canonical form says that the addresses are strictly rising. -/
theorem Memory.wf_iff (m : Memory) : Memory.wf m = true ↔ (m.map Prod.fst).Pairwise (· < ·) := by
  induction m with
  | nil => simp [Memory.wf]
  | cons hd m ih =>
    obtain ⟨k, u⟩ := hd
    cases m with
    | nil => simp [Memory.wf]
    | cons hd2 m =>
      obtain ⟨l, v⟩ := hd2
      simp only [Memory.wf, Bool.and_eq_true, decide_eq_true_eq, ih, List.map_cons, List.pairwise_cons,
        List.mem_cons, forall_eq_or_imp]
      constructor
      · rintro ⟨h, h1, h2⟩
        exact ⟨⟨h, fun a ha => lt_trans h (h1 a ha)⟩, h1, h2⟩
      · rintro ⟨⟨h, _⟩, h1, h2⟩
        exact ⟨h, h1, h2⟩

/-- The addresses a write leaves listed: the old ones and the written one. -/
theorem Memory.mem_keys_write {a b : Nat} {v : Byte} {m : Memory} :
    a ∈ (Memory.write b v m).map Prod.fst ↔ a = b ∨ a ∈ m.map Prod.fst := by
  induction m with
  | nil => simp [Memory.write]
  | cons hd m ih =>
    obtain ⟨k, u⟩ := hd
    simp only [Memory.write]
    split
    · rename_i h; subst h; simp
    · split
      · simp
      · simp only [List.map_cons, List.mem_cons, ih]; tauto

/-- A write keeps the canonical form. -/
theorem Memory.wf_write (b : Nat) (v : Byte) {m : Memory} (h : Memory.wf m = true) :
    Memory.wf (Memory.write b v m) = true := by
  rw [Memory.wf_iff] at h ⊢
  induction m with
  | nil => simp [Memory.write]
  | cons hd m ih =>
    obtain ⟨k, u⟩ := hd
    simp only [List.map_cons, List.pairwise_cons] at h
    simp only [Memory.write]
    split
    · rename_i hbk; subst hbk; simpa using h
    · split
      · rename_i hlt
        simp only [List.map_cons, List.pairwise_cons, List.mem_cons, forall_eq_or_imp]
        exact ⟨⟨hlt, fun a ha => lt_trans hlt (h.1 a ha)⟩, h.1, h.2⟩
      · simp only [List.map_cons, List.pairwise_cons]
        refine ⟨fun a ha => ?_, ih h.2⟩
        rcases Memory.mem_keys_write.1 ha with rfl | ha
        · omega
        · exact h.1 a ha

/-- A write to a listed address changes no address. -/
theorem Memory.keys_write {b : Nat} {v : Byte} {m : Memory} (h : Memory.wf m = true) (hb : b ∈ m.map Prod.fst) :
    (Memory.write b v m).map Prod.fst = m.map Prod.fst := by
  rw [Memory.wf_iff] at h
  induction m with
  | nil => simp at hb
  | cons hd m ih =>
    obtain ⟨k, u⟩ := hd
    simp only [List.map_cons, List.pairwise_cons] at h
    simp only [List.map_cons, List.mem_cons] at hb
    simp only [Memory.write]
    split
    · rename_i hbk; subst hbk; rfl
    · rename_i hbk
      have hmem : b ∈ m.map Prod.fst := hb.resolve_left hbk
      have : k < b := h.1 b hmem
      rw [if_neg (by omega)]
      simp [ih h.2 hmem]

@[simp] theorem Memory.keys_ofCells (n : Nat) (f : Nat → Byte) : (Memory.ofCells n f).map Prod.fst = List.range n := by
  simp [Memory.ofCells, Function.comp_def]

/-- A freshly made index buffer is in canonical form. -/
theorem Memory.wf_ofCells (n : Nat) (f : Nat → Byte) : Memory.wf (Memory.ofCells n f) = true := by
  rw [Memory.wf_iff, Memory.keys_ofCells]
  exact List.pairwise_lt_range

/-- A cell of a canonical memory is read where it is listed. -/
theorem Memory.read_of_mem {a : Nat} {v : Byte} {m : Memory} (h : Memory.wf m = true) (ha : (a, v) ∈ m) :
    Memory.read a m = some v := by
  rw [Memory.wf_iff] at h
  induction m with
  | nil => simp at ha
  | cons hd m ih =>
    obtain ⟨k, u⟩ := hd
    simp only [List.map_cons, List.pairwise_cons] at h
    simp only [Memory.read]
    rcases List.mem_cons.1 ha with heq | hmem
    · simp only [Prod.mk.injEq] at heq; simp [heq]
    · have : k < a := h.1 a (List.mem_map_of_mem (f := Prod.fst) hmem)
      rw [if_neg (by omega), if_neg (by omega)]
      exact ih h.2 hmem

theorem Memory.read_ofCells {a n : Nat} (f : Nat → Byte) (h : a < n) : Memory.read a (Memory.ofCells n f) = some (f a) :=
  Memory.read_of_mem (Memory.wf_ofCells n f) (by simp [Memory.ofCells, h])

theorem State.reset_idx_wf : Memory.wf State.reset.idx = true := rfl

/-- The canonical form as the state's invariant has it. -/
theorem Memory.wf_of_keys {m : Memory} {n : Nat} (h : m.map Prod.fst = List.range n) : Memory.wf m = true := by
  rw [Memory.wf_iff, h]; exact List.pairwise_lt_range

end Sys2Proof.Machine
end

