-- ==== Sys2Proof/Laws/State.lean ====
section
/-! SUPPORT. One lemma per field per named update of the state, true by computation, so that no later proof unfolds a record update. -/

namespace Sys2Proof.Machine

/-! ### finish -/

@[simp] theorem State.finish_w (st : Status) (s : State) : (s.finish st).w = s.w := rfl
@[simp] theorem State.finish_h (st : Status) (s : State) : (s.finish st).h = s.h := rfl
@[simp] theorem State.finish_started (st : Status) (s : State) : (s.finish st).started = s.started := rfl
@[simp] theorem State.finish_ftype (st : Status) (s : State) : (s.finish st).ftype = s.ftype := rfl
@[simp] theorem State.finish_vlen (st : Status) (s : State) : (s.finish st).vlen = s.vlen := rfl
@[simp] theorem State.finish_buf (st : Status) (s : State) : (s.finish st).buf = s.buf := rfl
@[simp] theorem State.finish_pos (st : Status) (s : State) : (s.finish st).pos = s.pos := rfl
@[simp] theorem State.finish_idx (st : Status) (s : State) : (s.finish st).idx = s.idx := rfl
@[simp] theorem State.finish_status (st : Status) (s : State) : (s.finish st).status = st := rfl
@[simp] theorem State.finish_phase (st : Status) (s : State) : (s.finish st).phase = .idle := rfl
@[simp] theorem State.finish_sel (st : Status) (s : State) : (s.finish st).sel = s.sel := rfl
@[simp] theorem State.finish_c0 (st : Status) (s : State) : (s.finish st).c0 = s.c0 := rfl
@[simp] theorem State.finish_c1 (st : Status) (s : State) : (s.finish st).c1 = s.c1 := rfl
@[simp] theorem State.finish_px (st : Status) (s : State) : (s.finish st).px = s.px := rfl
@[simp] theorem State.finish_mb (st : Status) (s : State) : (s.finish st).mb = s.mb := rfl
@[simp] theorem State.finish_todo (st : Status) (s : State) : (s.finish st).todo = [] := rfl
@[simp] theorem State.finish_req (st : Status) (s : State) : (s.finish st).req = s.req := rfl
@[simp] theorem State.finish_host (st : Status) (s : State) : (s.finish st).host = s.host := rfl

/-! ### takeOutOfBits -/

@[simp] theorem State.takeOutOfBits_w (s : State) : (s.takeOutOfBits).w = s.w := rfl
@[simp] theorem State.takeOutOfBits_h (s : State) : (s.takeOutOfBits).h = s.h := rfl
@[simp] theorem State.takeOutOfBits_started (s : State) : (s.takeOutOfBits).started = s.started := rfl
@[simp] theorem State.takeOutOfBits_ftype (s : State) : (s.takeOutOfBits).ftype = s.ftype := rfl
@[simp] theorem State.takeOutOfBits_vlen (s : State) : (s.takeOutOfBits).vlen = s.vlen := rfl
@[simp] theorem State.takeOutOfBits_buf (s : State) : (s.takeOutOfBits).buf = s.buf := rfl
@[simp] theorem State.takeOutOfBits_pos (s : State) : (s.takeOutOfBits).pos = s.pos := rfl
@[simp] theorem State.takeOutOfBits_idx (s : State) : (s.takeOutOfBits).idx = s.idx := rfl
@[simp] theorem State.takeOutOfBits_status (s : State) : (s.takeOutOfBits).status = .corrupted := rfl
@[simp] theorem State.takeOutOfBits_phase (s : State) : (s.takeOutOfBits).phase = .idle := rfl
@[simp] theorem State.takeOutOfBits_sel (s : State) : (s.takeOutOfBits).sel = s.sel := rfl
@[simp] theorem State.takeOutOfBits_c0 (s : State) : (s.takeOutOfBits).c0 = s.c0 := rfl
@[simp] theorem State.takeOutOfBits_c1 (s : State) : (s.takeOutOfBits).c1 = s.c1 := rfl
@[simp] theorem State.takeOutOfBits_px (s : State) : (s.takeOutOfBits).px = s.px := rfl
@[simp] theorem State.takeOutOfBits_mb (s : State) : (s.takeOutOfBits).mb = s.mb := rfl
@[simp] theorem State.takeOutOfBits_todo (s : State) : (s.takeOutOfBits).todo = [] := rfl
@[simp] theorem State.takeOutOfBits_req (s : State) : (s.takeOutOfBits).req = s.req := rfl
@[simp] theorem State.takeOutOfBits_host (s : State) : (s.takeOutOfBits).host = s.host := rfl

/-! ### framePrologue -/

@[simp] theorem State.framePrologue_w (ft : BitVec 2) (p : List Byte) (s : State) : (s.framePrologue ft p).w = s.w := rfl
@[simp] theorem State.framePrologue_h (ft : BitVec 2) (p : List Byte) (s : State) : (s.framePrologue ft p).h = s.h := rfl
@[simp] theorem State.framePrologue_started (ft : BitVec 2) (p : List Byte) (s : State) : (s.framePrologue ft p).started = s.started := rfl
@[simp] theorem State.framePrologue_ftype (ft : BitVec 2) (p : List Byte) (s : State) : (s.framePrologue ft p).ftype = ft := rfl
@[simp] theorem State.framePrologue_vlen (ft : BitVec 2) (p : List Byte) (s : State) : (s.framePrologue ft p).vlen = p.length := rfl
@[simp] theorem State.framePrologue_buf (ft : BitVec 2) (p : List Byte) (s : State) : (s.framePrologue ft p).buf = p := rfl
@[simp] theorem State.framePrologue_pos (ft : BitVec 2) (p : List Byte) (s : State) : (s.framePrologue ft p).pos = 0 := rfl
@[simp] theorem State.framePrologue_idx (ft : BitVec 2) (p : List Byte) (s : State) : (s.framePrologue ft p).idx = s.idx := rfl
@[simp] theorem State.framePrologue_status (ft : BitVec 2) (p : List Byte) (s : State) : (s.framePrologue ft p).status = s.status := rfl
@[simp] theorem State.framePrologue_phase (ft : BitVec 2) (p : List Byte) (s : State) : (s.framePrologue ft p).phase = .run := rfl
@[simp] theorem State.framePrologue_sel (ft : BitVec 2) (p : List Byte) (s : State) : (s.framePrologue ft p).sel = s.sel := rfl
@[simp] theorem State.framePrologue_c0 (ft : BitVec 2) (p : List Byte) (s : State) : (s.framePrologue ft p).c0 = s.c0 := rfl
@[simp] theorem State.framePrologue_c1 (ft : BitVec 2) (p : List Byte) (s : State) : (s.framePrologue ft p).c1 = s.c1 := rfl
@[simp] theorem State.framePrologue_px (ft : BitVec 2) (p : List Byte) (s : State) : (s.framePrologue ft p).px = s.px := rfl
@[simp] theorem State.framePrologue_mb (ft : BitVec 2) (p : List Byte) (s : State) : (s.framePrologue ft p).mb = s.mb := rfl
@[simp] theorem State.framePrologue_todo (ft : BitVec 2) (p : List Byte) (s : State) : (s.framePrologue ft p).todo = [] := rfl
@[simp] theorem State.framePrologue_req (ft : BitVec 2) (p : List Byte) (s : State) : (s.framePrologue ft p).req = s.req := rfl
@[simp] theorem State.framePrologue_host (ft : BitVec 2) (p : List Byte) (s : State) : (s.framePrologue ft p).host = s.host := rfl

/-! ### startStream -/

@[simp] theorem State.startStream_w (w h : Nat) (s : State) : (s.startStream w h).w = w := rfl
@[simp] theorem State.startStream_h (w h : Nat) (s : State) : (s.startStream w h).h = h := rfl
@[simp] theorem State.startStream_started (w h : Nat) (s : State) : (s.startStream w h).started = true := rfl
@[simp] theorem State.startStream_ftype (w h : Nat) (s : State) : (s.startStream w h).ftype = s.ftype := rfl
@[simp] theorem State.startStream_vlen (w h : Nat) (s : State) : (s.startStream w h).vlen = 0 := rfl
@[simp] theorem State.startStream_buf (w h : Nat) (s : State) : (s.startStream w h).buf = [] := rfl
@[simp] theorem State.startStream_pos (w h : Nat) (s : State) : (s.startStream w h).pos = 0 := rfl
@[simp] theorem State.startStream_idx (w h : Nat) (s : State) : (s.startStream w h).idx = Memory.ofCells (w * h) Config.idxReset := rfl
@[simp] theorem State.startStream_status (w h : Nat) (s : State) : (s.startStream w h).status = s.status := rfl
@[simp] theorem State.startStream_phase (w h : Nat) (s : State) : (s.startStream w h).phase = s.phase := rfl
@[simp] theorem State.startStream_sel (w h : Nat) (s : State) : (s.startStream w h).sel = s.sel := rfl
@[simp] theorem State.startStream_c0 (w h : Nat) (s : State) : (s.startStream w h).c0 = s.c0 := rfl
@[simp] theorem State.startStream_c1 (w h : Nat) (s : State) : (s.startStream w h).c1 = s.c1 := rfl
@[simp] theorem State.startStream_px (w h : Nat) (s : State) : (s.startStream w h).px = s.px := rfl
@[simp] theorem State.startStream_mb (w h : Nat) (s : State) : (s.startStream w h).mb = s.mb := rfl
@[simp] theorem State.startStream_todo (w h : Nat) (s : State) : (s.startStream w h).todo = [] := rfl
@[simp] theorem State.startStream_req (w h : Nat) (s : State) : (s.startStream w h).req = s.req := rfl
@[simp] theorem State.startStream_host (w h : Nat) (s : State) : (s.startStream w h).host = s.host := rfl

/-! ### setByteReg -/

@[simp] theorem State.setByteReg_w (r : ByteReg) (v : Byte) (s : State) : (s.setByteReg r v).w = s.w := by cases r <;> rfl
@[simp] theorem State.setByteReg_h (r : ByteReg) (v : Byte) (s : State) : (s.setByteReg r v).h = s.h := by cases r <;> rfl
@[simp] theorem State.setByteReg_started (r : ByteReg) (v : Byte) (s : State) : (s.setByteReg r v).started = s.started := by cases r <;> rfl
@[simp] theorem State.setByteReg_ftype (r : ByteReg) (v : Byte) (s : State) : (s.setByteReg r v).ftype = s.ftype := by cases r <;> rfl
@[simp] theorem State.setByteReg_vlen (r : ByteReg) (v : Byte) (s : State) : (s.setByteReg r v).vlen = s.vlen := by cases r <;> rfl
@[simp] theorem State.setByteReg_buf (r : ByteReg) (v : Byte) (s : State) : (s.setByteReg r v).buf = s.buf := by cases r <;> rfl
@[simp] theorem State.setByteReg_pos (r : ByteReg) (v : Byte) (s : State) : (s.setByteReg r v).pos = s.pos := by cases r <;> rfl
@[simp] theorem State.setByteReg_idx (r : ByteReg) (v : Byte) (s : State) : (s.setByteReg r v).idx = s.idx := by cases r <;> rfl
@[simp] theorem State.setByteReg_status (r : ByteReg) (v : Byte) (s : State) : (s.setByteReg r v).status = s.status := by cases r <;> rfl
@[simp] theorem State.setByteReg_phase (r : ByteReg) (v : Byte) (s : State) : (s.setByteReg r v).phase = s.phase := by cases r <;> rfl
@[simp] theorem State.setByteReg_sel (r : ByteReg) (v : Byte) (s : State) : (s.setByteReg r v).sel = s.sel := by cases r <;> rfl
@[simp] theorem State.setByteReg_c0 (r : ByteReg) (v : Byte) (s : State) : (s.setByteReg r v).c0 = if r = .c0 then v else s.c0 := by cases r <;> rfl
@[simp] theorem State.setByteReg_c1 (r : ByteReg) (v : Byte) (s : State) : (s.setByteReg r v).c1 = if r = .c1 then v else s.c1 := by cases r <;> rfl
@[simp] theorem State.setByteReg_px (r : ByteReg) (v : Byte) (s : State) : (s.setByteReg r v).px = if r = .px then v else s.px := by cases r <;> rfl
@[simp] theorem State.setByteReg_mb (r : ByteReg) (v : Byte) (s : State) : (s.setByteReg r v).mb = s.mb := by cases r <;> rfl
@[simp] theorem State.setByteReg_todo (r : ByteReg) (v : Byte) (s : State) : (s.setByteReg r v).todo = s.todo := by cases r <;> rfl
@[simp] theorem State.setByteReg_req (r : ByteReg) (v : Byte) (s : State) : (s.setByteReg r v).req = s.req := by cases r <;> rfl
@[simp] theorem State.setByteReg_host (r : ByteReg) (v : Byte) (s : State) : (s.setByteReg r v).host = s.host := by cases r <;> rfl

end Sys2Proof.Machine
end

