-- ==== Sys2Proof/Laws/Reader.lean ====
section
/-! SUPPORT. The laws of the bit reader: a read's value is the bits at the cursor, most significant first; a fetched field is what the reads of the
same bits return; a read either moves the cursor by its width or changes nothing. -/

namespace Sys2Proof.Machine

/-- The `n` bits of a buffer from bit address `pos` on, as a number, most significant first (20_memory.md R52). -/
def streamNat (buf : List Byte) (pos : Nat) : Nat → Nat
  | 0 => 0
  | n + 1 => 2 * streamNat buf pos n + (bitAt buf (pos + n)).toNat

theorem streamNat_lt (buf : List Byte) (pos n : Nat) : streamNat buf pos n < 2 ^ n := by
  induction n with
  | zero => simp [streamNat]
  | succ n ih =>
    simp only [streamNat, pow_succ]
    have := Bool.toNat_lt (bitAt buf (pos + n))
    omega

/-- Dropping whole bytes moves the bit address. -/
theorem bitAt_drop (buf : List Byte) (i k : Nat) : bitAt (buf.drop i) k = bitAt buf (8 * i + k) := by
  have h1 : (8 * i + k) / 8 = i + k / 8 := by omega
  have h2 : (8 * i + k) % 8 = k % 8 := by omega
  simp [bitAt, h1, h2, List.getD_eq_getElem?_getD]

/-- The window's `j`-th bit is the stream's. -/
theorem window_getD {buf : List Byte} {pos n j : Nat} (h : j < n) : (window buf pos n).getD j false = bitAt buf (pos + j) := by
  have : 8 * (pos / 8) + (pos % 8 + j) = pos + j := by omega
  simp [window, List.getD_eq_getElem?_getD, h, bitAt_drop, this]

/-- A field of the fetched window is the stream's bits at the field's place. -/
theorem fieldNat_window {buf : List Byte} {pos n off k : Nat} (h : off + k ≤ n) :
    fieldNat (window buf pos n) off k = streamNat buf (pos + off) k := by
  induction k with
  | zero => rfl
  | succ k ih =>
    simp only [fieldNat, streamNat]
    rw [ih (by omega), window_getD (by omega), Nat.add_assoc]

/-- Bit `i` of a byte from the top, as a number. -/
theorem getMsbD_toNat (b : Byte) {i : Nat} (h : i < 8) : (b.getMsbD i).toNat = b.toNat / 2 ^ (7 - i) % 2 := by
  simp [BitVec.getMsbD, h, BitVec.getLsbD, Nat.testBit_eq_decide_div_mod_eq]
  rcases Nat.mod_two_eq_zero_or_one (b.toNat / 2 ^ (7 - i)) with h | h <;> simp [h]

/-- The bits of a 16-bit window of two bytes, counted from the top: the first byte's, then the second's. -/
theorem win_bit {b0 b1 k : Nat} (h1 : b1 < 256) (hk : k < 16) :
    (b0 * 256 + b1) / 2 ^ (15 - k) % 2 = if k < 8 then b0 / 2 ^ (7 - k) % 2 else b1 / 2 ^ (15 - k) % 2 := by
  split
  · have : (2 : Nat) ^ (15 - k) = 256 * 2 ^ (7 - k) := by
      rw [show (256 : Nat) = 2 ^ 8 from rfl, ← pow_add]; congr 1; omega
    rw [this, ← Nat.div_div_eq_div_mul, show (b0 * 256 + b1) / 256 = b0 by omega]
  · have : b0 * 256 = 2 ^ (15 - k) * (2 * (b0 * 2 ^ (k - 8))) := by
      have : (256 : Nat) = 2 ^ (15 - k) * (2 * 2 ^ (k - 8)) := by
        rw [← pow_succ', ← pow_add, show (256 : Nat) = 2 ^ 8 from rfl]; congr 1; omega
      rw [this]; ring
    rw [this, Nat.mul_add_div (by positivity)]
    omega

/-- The peek window's shift to the top and shift to the width take out one field. -/
theorem win_field (win : Nat) {off n : Nat} (h : off + n ≤ 16) :
    win * 2 ^ off % 65536 / 2 ^ (16 - n) = win / 2 ^ (16 - off - n) % 2 ^ n := by
  have e1 : (65536 : Nat) = 2 ^ off * 2 ^ (16 - off) := by
    rw [← pow_add, show (65536 : Nat) = 2 ^ 16 from rfl]; congr 1; omega
  have e2 : (2 : Nat) ^ (16 - n) = 2 ^ off * 2 ^ (16 - off - n) := by rw [← pow_add]; congr 1; omega
  have e3 : (2 : Nat) ^ (16 - off) = 2 ^ (16 - off - n) * 2 ^ n := by rw [← pow_add]; congr 1; omega
  rw [e1, e2, Nat.mul_comm win, Nat.mul_mod_mul_left, Nat.mul_div_mul_left _ _ (by positivity), e3,
    Nat.mod_mul_right_div_self]

/-- Fields of the window are its bits, most significant first. -/
theorem win_field_bits {win : Nat} {off n : Nat} (h : off + n ≤ 16) (buf : List Byte) (pos : Nat)
    (hbit : ∀ j, j < n → win / 2 ^ (15 - (off + j)) % 2 = (bitAt buf (pos + j)).toNat) :
    win / 2 ^ (16 - off - n) % 2 ^ n = streamNat buf pos n := by
  induction n with
  | zero => simp [streamNat, Nat.mod_one]
  | succ n ih =>
    have h0 := hbit n (by omega)
    have ih' := ih (by omega) fun j hj => hbit j (by omega)
    rw [show 15 - (off + n) = 16 - off - (n + 1) by omega] at h0
    have e : (2 : Nat) ^ (16 - off - n) = 2 ^ (16 - off - (n + 1)) * 2 := by rw [← pow_succ]; congr 1; omega
    rw [e, ← Nat.div_div_eq_div_mul] at ih'
    rw [streamNat, ← ih', ← h0, pow_succ', Nat.mod_mul]
    omega

/-- The value of a read that is admitted is the bits at the cursor (40_bitreader.md R110, 20_memory.md R52, R57): the peek window's padding never
reaches it. -/
theorem peek_eq_streamNat {s : State} {n : Nat} (hlen : s.vlen = s.buf.length) (hn : n ≤ 8) (h : s.pos + n ≤ 8 * s.vlen) :
    s.peek n = streamNat s.buf s.pos n := by
  simp only [State.peek]
  rw [win_field _ (by omega)]
  refine win_field_bits (by omega) _ _ fun j hj => ?_
  have hlt1 : (if s.pos / 8 + 1 < s.vlen then (s.buf.getD (s.pos / 8 + 1) 0).toNat else 0) < 256 := by
    split
    · exact BitVec.isLt _
    · omega
  rw [win_bit hlt1 (by omega)]
  by_cases hk : s.pos % 8 + j < 8
  · have e1 : (s.pos + j) / 8 = s.pos / 8 := by omega
    have e2 : (s.pos + j) % 8 = s.pos % 8 + j := by omega
    rw [if_pos hk, bitAt, e1, e2, getMsbD_toNat _ hk]
  · have e1 : (s.pos + j) / 8 = s.pos / 8 + 1 := by omega
    have e2 : (s.pos + j) % 8 = s.pos % 8 + j - 8 := by omega
    rw [if_neg hk, if_pos (by omega), bitAt, e1, e2, getMsbD_toNat _ (by omega)]
    congr 3; omega

/-! ### What a read can do -/

/-- A read either moves the cursor by its width, where the bits are there, or raises `OutOfBits` with nothing changed (R110, R117). -/
theorem State.advance_ok {n : Nat} {s : State} (h : n ≤ s.remaining) : s.advance n = .ok { s with pos := s.pos + n } := by
  simp only [State.remaining] at h
  simp [State.advance, Nat.not_lt.2 h]

theorem State.advance_fail {n : Nat} {s : State} (h : s.remaining < n) : s.advance n = .error (.outOfBits s) := by
  simp only [State.remaining] at h
  simp [State.advance, h]

theorem State.advance_cases (n : Nat) (s : State) :
    (n ≤ s.remaining ∧ s.advance n = .ok { s with pos := s.pos + n }) ∨
    (s.remaining < n ∧ s.advance n = .error (.outOfBits s)) := by
  rcases Nat.lt_or_ge s.remaining n with h | h
  · exact .inr ⟨h, State.advance_fail h⟩
  · exact .inl ⟨h, State.advance_ok h⟩

theorem State.bitRead_ok {n : Nat} {s : State} (h : n ≤ s.remaining) :
    s.bitRead n = .ok (s.peek n, { s with pos := s.pos + n }) := by
  simp [State.bitRead, State.advance_ok h, bind, Except.bind, pure, Except.pure]

theorem State.bitRead_fail {n : Nat} {s : State} (h : s.remaining < n) : s.bitRead n = .error (.outOfBits s) := by
  simp [State.bitRead, State.advance_fail h, bind, Except.bind]

end Sys2Proof.Machine
end

