-- ==== Sys2Proof/Laws/Operands.lean ====
section
/-! SUPPORT. What the operand reads, the pixel writes and the three pixel loops of a tile code do: one lemma each. -/

namespace Sys2Proof.Machine

/-! ### Operand reads -/

theorem State.readSel_ok {v : BitVec 2} {s : State} (h : 2 ≤ s.remaining) :
    s.readSel v = .ok { s with pos := s.pos + 2, sel := v } := by
  simp [State.readSel, State.advance_ok h, bind, Except.bind, pure, Except.pure]

theorem State.readSel_fail {v : BitVec 2} {s : State} (h : s.remaining < 2) : s.readSel v = .error (.outOfBits s) := by
  simp [State.readSel, State.advance_fail h, bind, Except.bind]

theorem State.readByte_ok {r : ByteReg} {v : Byte} {s : State} (h : 8 ≤ s.remaining) :
    s.readByte r v = .ok ({ s with pos := s.pos + 8 }.setByteReg r v) := by
  simp [State.readByte, State.advance_ok h, bind, Except.bind, pure, Except.pure]

theorem State.readByte_fail {r : ByteReg} {v : Byte} {s : State} (h : s.remaining < 8) :
    s.readByte r v = .error (.outOfBits s) := by
  simp [State.readByte, State.advance_fail h, bind, Except.bind]

theorem State.readMaskBit_ok {b : Bool} {s : State} (h : 1 ≤ s.remaining) :
    s.readMaskBit b = .ok { s with pos := s.pos + 1, mb := BitVec.ofBool b } := by
  simp [State.readMaskBit, State.advance_ok h, bind, Except.bind, pure, Except.pure]

theorem State.readMaskBit_fail {b : Bool} {s : State} (h : s.remaining < 1) :
    s.readMaskBit b = .error (.outOfBits s) := by
  simp [State.readMaskBit, State.advance_fail h, bind, Except.bind]

/-! ### Pixel writes -/

@[simp] theorem Memory.writes_nil (m : Memory) : Memory.writes [] m = m := rfl

@[simp] theorem Memory.writes_cons (p : Nat × Byte) (l : List (Nat × Byte)) (m : Memory) :
    Memory.writes (p :: l) m = Memory.writes l (Memory.write p.1 p.2 m) := rfl

/-- A cell no write names keeps its byte. -/
theorem Memory.read_writes_other {a : Nat} {l : List (Nat × Byte)} (m : Memory) (h : a ∉ l.map Prod.fst) :
    Memory.read a (Memory.writes l m) = Memory.read a m := by
  induction l generalizing m with
  | nil => rfl
  | cons p l ih =>
    simp only [List.map_cons, List.mem_cons, not_or] at h
    rw [Memory.writes_cons, ih _ h.2, Memory.read_write_other _ _ h.1]

/-- A cell one write names has that write's byte. -/
theorem Memory.read_writes_mem {a : Nat} {v : Byte} {l : List (Nat × Byte)} (m : Memory) (hnd : (l.map Prod.fst).Nodup)
    (h : (a, v) ∈ l) : Memory.read a (Memory.writes l m) = some v := by
  induction l generalizing m with
  | nil => simp at h
  | cons p l ih =>
    simp only [List.map_cons, List.nodup_cons] at hnd
    rcases List.mem_cons.1 h with heq | hmem
    · subst heq
      rw [Memory.writes_cons, Memory.read_writes_other _ hnd.1, Memory.read_write_same]
    · rw [Memory.writes_cons, ih _ hnd.2 hmem]

/-- Writes to listed cells change no address. -/
theorem Memory.keys_writes {l : List (Nat × Byte)} {m : Memory} (h : Memory.wf m = true) (hl : ∀ p ∈ l, p.1 ∈ m.map Prod.fst) :
    (Memory.writes l m).map Prod.fst = m.map Prod.fst := by
  induction l generalizing m with
  | nil => rfl
  | cons p l ih =>
    have hp := hl p (by simp)
    have hk := Memory.keys_write (v := p.2) h hp
    rw [Memory.writes_cons, ih (Memory.wf_write _ _ h), hk]
    intro q hq; rw [hk]; exact hl q (by simp [hq])

/-- The cell of a pixel of a tile, given by row and column. -/
def tileCell (w : Nat) (t : Tile) (rc : Nat × Nat) : Nat := (t.y + rc.1) * w + (t.x + rc.2)

/-- Where a list of a tile's pixels lies inside the frame. -/
def PixelsInFrame (s : State) (t : Tile) (ps : List (Nat × Nat)) : Prop :=
  ∀ rc ∈ ps, t.x + rc.2 < s.w ∧ t.y + rc.1 < s.h

theorem State.writePixel_ok {x y : Nat} {v : Byte} {s : State} (hx : x < s.w) (hy : y < s.h) :
    s.writePixel x y v = .ok { s with idx := Memory.write (s.pix x y) v s.idx } := by
  simp [State.writePixel, hx, hy]

theorem State.writePixel_cases (x y : Nat) (v : Byte) (s : State) :
    s.writePixel x y v = .ok { s with idx := Memory.write (s.pix x y) v s.idx } ∨
    s.writePixel x y v = .error (.fault .noSuchPixel) := by
  simp only [State.writePixel]; split <;> simp

/-- Painting a list of pixels inside the frame. -/
theorem paintPixels_ok {t : Tile} {v : Byte} {ps : List (Nat × Nat)} {s : State} (h : PixelsInFrame s t ps) :
    paintPixels t v ps s = .ok { s with idx := Memory.writes (ps.map fun rc => (tileCell s.w t rc, v)) s.idx } := by
  induction ps generalizing s with
  | nil => rfl
  | cons p ps ih =>
    obtain ⟨r, c⟩ := p
    have hp := h (r, c) (by simp)
    simp only [paintPixels, State.writePixel_ok hp.1 hp.2, bind, Except.bind]
    rw [ih (by intro rc hrc; exact h rc (by simp [hrc]))]
    simp [tileCell, State.pix]

/-- What reading some mask bits and writing their pixels leaves. -/
def maskAfter (t : Tile) (ps : List ((Nat × Nat) × Bool)) (s : State) : State :=
  { s with
    pos := s.pos + ps.length
    mb := (ps.getLast?.map fun p => BitVec.ofBool p.2).getD s.mb
    idx := Memory.writes (ps.map fun p => (tileCell s.w t p.1, if p.2 then s.c1 else s.c0)) s.idx }

theorem maskAfter_cons (t : Tile) (p : (Nat × Nat) × Bool) (ps : List ((Nat × Nat) × Bool)) (s : State) :
    maskAfter t (p :: ps) s = maskAfter t ps
      { s with
        pos := s.pos + 1
        mb := BitVec.ofBool p.2
        idx := Memory.write (tileCell s.w t p.1) (if p.2 then s.c1 else s.c0) s.idx } := by
  cases ps with
  | nil => simp [maskAfter]
  | cons q ps =>
    simp only [maskAfter, List.length_cons, List.getLast?_cons_cons, List.map_cons, Memory.writes_cons]
    congr 1
    omega

/-- The mask loop runs to its end or to the last bit there is (41_tile_codes.md R147, R155). -/
theorem maskPixels_eq {t : Tile} {ps : List ((Nat × Nat) × Bool)} {s : State} (h : PixelsInFrame s t (ps.map Prod.fst)) :
    maskPixels t ps s =
      if ps.length ≤ s.remaining then .ok (maskAfter t ps s) else .error (.outOfBits (maskAfter t (ps.take s.remaining) s)) := by
  induction ps generalizing s with
  | nil => simp [maskPixels, maskAfter]
  | cons p ps ih =>
    obtain ⟨⟨r, c⟩, b⟩ := p
    have hp := h (r, c) (by simp)
    rcases Nat.lt_or_ge s.remaining 1 with hr | hr
    · have h0 : s.remaining = 0 := by omega
      simp [maskPixels, State.readMaskBit_fail hr, bind, Except.bind, h0, maskAfter]
    · have hb : (if (BitVec.ofBool b) = 0#1 then s.c0 else s.c1) = if b then s.c1 else s.c0 := by cases b <;> simp
      simp only [maskPixels, State.readMaskBit_ok hr, bind, Except.bind]
      rw [State.writePixel_ok (by exact hp.1) (by exact hp.2)]
      simp only [hb]
      rw [ih (by intro rc hrc; exact h rc (List.mem_cons_of_mem _ hrc))]
      obtain ⟨k, hk⟩ : ∃ k, s.remaining = k + 1 := ⟨s.remaining - 1, by omega⟩
      have hrem : ∀ m mb, State.remaining { s with pos := s.pos + 1, mb := mb, idx := m } = k := by
        intro m mb; simp only [State.remaining] at hk ⊢; omega
      simp only [hrem, hk, List.take_succ_cons, maskAfter_cons, List.length_cons, Nat.add_le_add_iff_right]
      rfl

/-- What reading some literals and writing their pixels leaves. -/
def rawAfter (t : Tile) (ps : List ((Nat × Nat) × Byte)) (s : State) : State :=
  { s with
    pos := s.pos + 8 * ps.length
    px := (ps.getLast?.map fun p => p.2).getD s.px
    idx := Memory.writes (ps.map fun p => (tileCell s.w t p.1, p.2)) s.idx }

theorem rawAfter_cons (t : Tile) (p : (Nat × Nat) × Byte) (ps : List ((Nat × Nat) × Byte)) (s : State) :
    rawAfter t (p :: ps) s =
      rawAfter t ps { s with pos := s.pos + 8, px := p.2, idx := Memory.write (tileCell s.w t p.1) p.2 s.idx } := by
  cases ps with
  | nil => simp [rawAfter]
  | cons q ps =>
    simp only [rawAfter, List.length_cons, List.getLast?_cons_cons, List.map_cons, Memory.writes_cons]
    congr 1
    omega

/-- The literal loop runs to its end or to the last whole literal there is (41_tile_codes.md R152, R155). -/
theorem rawPixels_eq {t : Tile} {ps : List ((Nat × Nat) × Byte)} {s : State} (h : PixelsInFrame s t (ps.map Prod.fst)) :
    rawPixels t ps s =
      if 8 * ps.length ≤ s.remaining then .ok (rawAfter t ps s)
      else .error (.outOfBits (rawAfter t (ps.take (s.remaining / 8)) s)) := by
  induction ps generalizing s with
  | nil => simp [rawPixels, rawAfter]
  | cons p ps ih =>
    obtain ⟨⟨r, c⟩, v⟩ := p
    have hp := h (r, c) (by simp)
    rcases Nat.lt_or_ge s.remaining 8 with hr | hr
    · have h0 : s.remaining / 8 = 0 := by omega
      have h1 : ¬ 8 * (ps.length + 1) ≤ s.remaining := by omega
      simp [rawPixels, State.readByte_fail hr, bind, Except.bind, h0, rawAfter, h1]
    · simp only [rawPixels, State.readByte_ok hr, bind, Except.bind, State.setByteReg]
      rw [State.writePixel_ok (by exact hp.1) (by exact hp.2)]
      simp only []
      rw [ih (by intro rc hrc; exact h rc (List.mem_cons_of_mem _ hrc))]
      obtain ⟨k, hk⟩ : ∃ k, s.remaining / 8 = k + 1 := ⟨s.remaining / 8 - 1, by omega⟩
      have hrem : ∀ m px, State.remaining { s with pos := s.pos + 8, px := px, idx := m } = s.remaining - 8 := by
        intro m px; simp only [State.remaining]; omega
      have hk' : (s.remaining - 8) / 8 = k := by omega
      simp only [hrem, hk, hk', List.take_succ_cons, rawAfter_cons, List.length_cons]
      have : 8 * ps.length ≤ s.remaining - 8 ↔ 8 * (ps.length + 1) ≤ s.remaining := by omega
      simp only [this]
      rfl

/-! ### The pixels of a tile -/

theorem mem_rowsDown {size : TileSize} {r c : Nat} : (r, c) ∈ rowsDown size ↔ r < size.side ∧ c < size.side := by
  simp [rowsDown]

theorem mem_rowsUp {size : TileSize} {r c : Nat} : (r, c) ∈ rowsUp size ↔ r < size.side ∧ c < size.side := by
  simp [rowsUp]

theorem mem_maskOrder {size : TileSize} {r c : Nat} : (r, c) ∈ maskOrder size ↔ r < size.side ∧ c < size.side := by
  cases size <;> simp [maskOrder, mem_rowsDown, mem_rowsUp]

/-- Every list of a tile's own pixels lies in the frame where the tile does. -/
theorem pixelsInFrame_of_tile {s : State} {t : Tile} {ps : List (Nat × Nat)} (hx : t.x + t.size.side ≤ s.w)
    (hy : t.y + t.size.side ≤ s.h) (hps : ∀ rc ∈ ps, rc.1 < t.size.side ∧ rc.2 < t.size.side) : PixelsInFrame s t ps := by
  intro rc hrc
  have := hps rc hrc
  omega

/-- Different pixels inside the frame have different cells (20_memory.md R55). -/
theorem pix_inj {w x y x' y' : Nat} (hx : x < w) (hx' : x' < w) (h : y * w + x = y' * w + x') : x = x' ∧ y = y' := by
  have hw : 0 < w := by omega
  have hy : y = y' := by
    have := congrArg (· / w) h
    simpa [Nat.mul_comm _ w, Nat.mul_add_div hw, Nat.div_eq_of_lt hx, Nat.div_eq_of_lt hx'] using this
  subst hy; exact ⟨by omega, rfl⟩

/-- A pixel inside the frame has a cell of the address map. -/
theorem pix_lt {w h x y : Nat} (hx : x < w) (hy : y < h) : y * w + x < w * h := by
  have : (y + 1) * w ≤ h * w := Nat.mul_le_mul_right w hy
  rw [Nat.mul_comm w h]
  have e : (y + 1) * w = y * w + w := by ring
  omega

end Sys2Proof.Machine
end

