-- ==== Sys2Proof/Laws/Exec.lean ====
section
/-! SUPPORT. What the shared operations around a meaning do: running a tile code, concluding an engine operation, admitting a command, one step. -/

namespace Sys2Proof.Machine

/-! ### Concluding -/

@[simp] theorem conclude_ok (s : State) : conclude (.ok s) = .next s := rfl

@[simp] theorem conclude_outOfBits (s : State) : conclude (.error (.outOfBits s)) = .next s.takeOutOfBits := rfl

@[simp] theorem conclude_fault (f : Fault) : conclude (.error (.fault f)) = .fault f := rfl

/-- An engine operation is concluded with a next state in two ways: it ran to its end, or it raised `OutOfBits`, which was taken. -/
theorem conclude_next {r : Except Trap State} {s : State} (h : conclude r = .next s) :
    r = .ok s ∨ ∃ t, r = .error (.outOfBits t) ∧ s = t.takeOutOfBits := by
  match r with
  | .ok t => exact .inl (by simpa using h)
  | .error (.outOfBits t) => exact .inr ⟨t, rfl, by simpa using h.symm⟩
  | .error (.fault f) => simp at h

/-- No engine operation is refused. -/
theorem conclude_ne_refused (r : Except Trap State) (x : Refusal) : conclude r ≠ .refused x := by
  match r with
  | .ok _ => simp
  | .error (.outOfBits _) => simp
  | .error (.fault _) => simp

/-! ### Tile codes and commands -/

/-- A tile code at a tile of its size. -/
theorem runTileCode_at {size : TileSize} {s : State} {t : Tile} {rest : List Tile} {code : Tile → State → Except Trap State}
    (hp : s.phase = .run) (ht : s.todo = t :: rest) (hs : t.size = size) :
    runTileCode size s code = conclude (code t { s with todo := rest }) := by
  simp [runTileCode, hp, ht, hs]

/-- A tile code answers a next state only at a tile of its size. -/
theorem runTileCode_next {size : TileSize} {s s' : State} {code : Tile → State → Except Trap State}
    (h : runTileCode size s code = .next s') :
    ∃ t rest, s.phase = .run ∧ s.todo = t :: rest ∧ t.size = size ∧ conclude (code t { s with todo := rest }) = .next s' := by
  simp only [runTileCode] at h
  split at h
  · rename_i t rest hp ht
    split at h
    · exact ⟨t, rest, hp, ht, ‹_›, h⟩
    · simp at h
  · simp at h

/-- A command is admitted on an idle block, with a stream started where it needs one. -/
theorem admitted_ok {b : Bool} {s : State} {f : State → Host.Outcome State Fault Refusal} (hp : s.phase = .idle)
    (hs : b = true → s.started = true) : admitted b s f = f s := by
  cases b <;> simp_all [admitted, notAdmitted]

/-- A command answers a next state only where it is admitted. -/
theorem admitted_next {b : Bool} {s s' : State} {f : State → Host.Outcome State Fault Refusal} (h : admitted b s f = .next s') :
    s.phase = .idle ∧ (b = true → s.started = true) ∧ f s = .next s' := by
  have hphase : s.phase = .run ∨ s.phase = .idle := by cases s.phase <;> simp
  rcases hphase with hp | hp
  · simp [admitted, notAdmitted, hp] at h
  · cases b <;> cases hst : s.started <;> simp_all [admitted, notAdmitted]

end Sys2Proof.Machine
end

