-- ==== Sys2Proof/Laws/Payload.lean ====
section
/-! SUPPORT. The bits of a complete tile code, constructor by constructor (30_encoding.md R82), and the reads and writes of codes. -/

namespace Sys2Proof.Machine

@[simp] theorem codeBits_nil : codeBits [] = [] := rfl

@[simp] theorem codeBits_cons (i : Instr) (is : List Instr) : codeBits (i :: is) = i.ownBits ++ codeBits is := rfl

@[simp] theorem codeBits_append (is js : List Instr) : codeBits (is ++ js) = codeBits is ++ codeBits js := by
  simp [codeBits]

theorem Quad2.bits_skip : Quad2.skip.bits = fieldBits 0#2 := rfl
theorem Quad2.bits_fill (c : Byte) : (Quad2.fill c).bits = fieldBits 1#2 ++ fieldBits c := by
  simp only [Quad2.bits, Quad2.codes, codeBits_cons, codeBits_nil, List.append_nil, Instr.ownBits, encode]
theorem Quad2.bits_mask (c0 c1 : Byte) (m : BitVec 4) :
    (Quad2.mask c0 c1 m).bits = fieldBits 2#2 ++ fieldBits c0 ++ fieldBits c1 ++ fieldBits m := by
  simp only [Quad2.bits, Quad2.codes, codeBits_cons, codeBits_nil, List.append_nil, Instr.ownBits, encode]
theorem Quad2.bits_raw (p q r t : Byte) :
    (Quad2.raw p q r t).bits = fieldBits 3#2 ++ fieldBits p ++ fieldBits q ++ fieldBits r ++ fieldBits t := by
  simp only [Quad2.bits, Quad2.codes, codeBits_cons, codeBits_nil, List.append_nil, Instr.ownBits, encode]

theorem Quad4.bits_skip : Quad4.skip.bits = fieldBits 0#2 := rfl
theorem Quad4.bits_fill (c : Byte) : (Quad4.fill c).bits = fieldBits 1#2 ++ fieldBits c := by
  simp only [Quad4.bits, Quad4.codes, codeBits_cons, codeBits_nil, List.append_nil, Instr.ownBits, encode]
theorem Quad4.bits_mask (c0 c1 : Byte) (m : BitVec 16) :
    (Quad4.mask c0 c1 m).bits = fieldBits 2#2 ++ fieldBits c0 ++ fieldBits c1 ++ fieldBits m := by
  simp only [Quad4.bits, Quad4.codes, codeBits_cons, codeBits_nil, List.append_nil, Instr.ownBits, encode]
theorem Quad4.bits_split (a b c d : Quad2) :
    (Quad4.split a b c d).bits = fieldBits 3#2 ++ (a.bits ++ (b.bits ++ (c.bits ++ d.bits))) := by
  simp only [Quad4.bits, Quad4.codes, codeBits_cons, codeBits_append, Instr.ownBits, encode, Quad2.bits, List.append_assoc]

theorem Quad8.bits_skip : Quad8.skip.bits = fieldBits 0#2 := rfl
theorem Quad8.bits_fill (c : Byte) : (Quad8.fill c).bits = fieldBits 1#2 ++ fieldBits c := by
  simp only [Quad8.bits, Quad8.codes, codeBits_cons, codeBits_nil, List.append_nil, Instr.ownBits, encode]
theorem Quad8.bits_mask (c0 c1 : Byte) (m : BitVec 64) :
    (Quad8.mask c0 c1 m).bits = fieldBits 2#2 ++ fieldBits c0 ++ fieldBits c1 ++ fieldBits m := by
  simp only [Quad8.bits, Quad8.codes, codeBits_cons, codeBits_nil, List.append_nil, Instr.ownBits, encode]
theorem Quad8.bits_split (a b c d : Quad4) :
    (Quad8.split a b c d).bits = fieldBits 3#2 ++ (a.bits ++ (b.bits ++ (c.bits ++ d.bits))) := by
  simp only [Quad8.bits, Quad8.codes, codeBits_cons, codeBits_append, Instr.ownBits, encode, Quad4.bits, List.append_assoc]

/-! ### The reads and writes of codes (41_tile_codes.md R153) -/

@[simp] theorem readsOf_nil : readsOf [] = [] := rfl
@[simp] theorem readsOf_cons (i : Instr) (is : List Instr) : readsOf (i :: is) = codeReads i ++ readsOf is := rfl
@[simp] theorem readsOf_append (is js : List Instr) : readsOf (is ++ js) = readsOf is ++ readsOf js := by simp [readsOf]

@[simp] theorem writesOf_nil : writesOf [] = 0 := rfl
@[simp] theorem writesOf_cons (i : Instr) (is : List Instr) : writesOf (i :: is) = codeWrites i + writesOf is := by simp [writesOf]
@[simp] theorem writesOf_append (is js : List Instr) : writesOf (is ++ js) = writesOf is + writesOf js := by simp [writesOf]

/-- The widths of a code's reads add up to its own length. -/
theorem codeReads_sum (i : Instr) : (codeReads i).sum = i.ownBits.length := by
  cases i <;> simp [codeReads, Instr.ownBits, encode, fieldBits]

/-- All reads succeed exactly where the bits are there for all of them. -/
theorem bitsRead_of_le {ns : List Nat} {m : Nat} (h : ns.sum ≤ m) : bitsRead ns m = ns.sum := by
  induction ns generalizing m with
  | nil => rfl
  | cons n ns ih =>
    simp only [List.sum_cons] at h
    simp only [bitsRead, List.sum_cons, if_pos (show n ≤ m by omega)]
    rw [ih (by omega)]

theorem bitsRead_le (ns : List Nat) (m : Nat) : bitsRead ns m ≤ m := by
  induction ns generalizing m with
  | nil => simp [bitsRead]
  | cons n ns ih =>
    simp only [bitsRead]
    split
    · have := ih (m - n); omega
    · omega

end Sys2Proof.Machine
end

