-- ==== Sys2Proof/Laws/TileCodes.lean ====
section
/-! SUPPORT. What FILL and MASK leave at a tile: the whole next state, and each of its cells.  The operand reads, the loops and the memory are not unfolded
again after this file. -/

namespace Sys2Proof.Machine

/-! ### Cells after a list of writes -/

/-- A cell none of the writes names keeps its byte. -/
theorem cell_writes_other {s : State} {l : List (Nat × Byte)} {a : Nat} (h : a ∉ l.map Prod.fst) :
    State.cell { s with idx := Memory.writes l s.idx } a = s.cell a := by
  simp only [State.cell]; split <;> simp [Memory.read_writes_other _ h]

/-- A cell of the frame that one write names has that write's byte. -/
theorem cell_writes_mem {s : State} {l : List (Nat × Byte)} {a : Nat} {v : Byte} (hlt : a < s.w * s.h)
    (hnd : (l.map Prod.fst).Nodup) (h : (a, v) ∈ l) : State.cell { s with idx := Memory.writes l s.idx } a = some v := by
  simp only [State.cell]; rw [if_pos (by exact hlt), Memory.read_writes_mem _ hnd h]

/-- Different pixels of a tile in the frame have different cells. -/
theorem nodup_cells {s : State} {t : Tile} {ps : List (Nat × Nat)} (h : PixelsInFrame s t ps) (hnd : ps.Nodup) :
    (ps.map (tileCell s.w t)).Nodup := by
  refine (List.nodup_map_iff_inj_on hnd).2 ?_
  rintro ⟨r, c⟩ h1 ⟨r', c'⟩ h2 heq
  have a := h _ h1; have b := h _ h2
  have := pix_inj a.1 b.1 heq
  simp only [Prod.mk.injEq]; simp only at this; omega

theorem nodup_rowsDown (size : TileSize) : (rowsDown size).Nodup := by cases size <;> decide

theorem nodup_maskOrder (size : TileSize) : (maskOrder size).Nodup := by cases size <;> decide

/-- A cell outside the tile is no pixel's of it. -/
theorem outside_notMem {s : State} {t : Tile} {ps : List (Nat × Nat)} {a : Nat} (ho : OutsideTile s t a)
    (hps : ∀ rc ∈ ps, rc.1 < t.size.side ∧ rc.2 < t.size.side) : a ∉ ps.map (tileCell s.w t) := by
  intro h
  obtain ⟨⟨r, c⟩, hm, rfl⟩ := List.mem_map.1 h
  have := hps _ hm
  exact ho (t.x + c) (t.y + r) ⟨by omega, by omega, by omega, by omega⟩ rfl

/-! ### FILL -/

/-- FILL with its ten bits there (41_tile_codes.md R144): the whole result. -/
theorem fillTile_eq {s : State} {t : Tile} {rest : List Tile} {c : Byte} (hin : TileInFrame s t) (hr : 10 ≤ s.remaining) :
    fillTile c t { s with todo := rest } = .ok { s with
      pos := s.pos + 10, sel := 1, c0 := c, todo := rest
      idx := Memory.writes ((rowsDown t.size).map fun rc => (tileCell s.w t rc, c)) s.idx } := by
  have hpf : PixelsInFrame s t (rowsDown t.size) := pixelsInFrame_of_tile hin.1 hin.2 (fun rc h => mem_rowsDown.1 h)
  have hr2 : 2 ≤ State.remaining { s with todo := rest } := Nat.le_trans (by omega) hr
  simp only [fillTile, bind, Except.bind]
  rw [State.readSel_ok hr2]
  simp only
  rw [State.readByte_ok (by simp only [State.remaining] at hr ⊢; omega)]
  simp only
  rw [paintPixels_ok (by exact hpf)]
  rfl

/-! ### MASK -/

/-- The last of the first `k` mask bits. -/
theorem getLast?_zip_fieldBits {n : Nat} (l : List (Nat × Nat)) (m : BitVec n) (hl : l.length = n) {k : Nat} (hk : k ≤ n) :
    (((l.zip (fieldBits m)).take k).getLast?.map fun p => BitVec.ofBool p.2) =
      if k = 0 then none else some (BitVec.ofBool (m.getMsbD (k - 1))) := by
  split
  · subst_vars; simp
  · rw [List.getLast?_eq_getElem?]
    have hk' : (List.take k (l.zip (fieldBits m))).length = k := by simp [hl]; omega
    rw [hk', List.getElem?_take_of_lt (by omega)]
    have hlt : k - 1 < l.length := by omega
    have hget : (l.zip (fieldBits m))[k - 1]? = some (l[k - 1], m.getMsbD (k - 1)) := by
      rw [List.getElem?_zip_eq_some]
      exact ⟨by simp, by simp [fieldBits, show k - 1 < n by omega]⟩
    rw [hget]; rfl

/-- The writes of the first `k` mask bits of a MASK at a tile. -/
def maskWrites {n : Nat} (w : Nat) (t : Tile) (c0 c1 : Byte) (m : BitVec n) (k : Nat) : List (Nat × Byte) :=
  (((maskOrder t.size).zip (fieldBits m)).take k).map fun p => (tileCell w t p.1, if p.2 then c1 else c0)

/-- What a MASK leaves that got its header and `k` mask bits. -/
def maskLeft {n : Nat} (s : State) (rest : List Tile) (t : Tile) (c0 c1 : Byte) (m : BitVec n) (k : Nat) : State :=
  { s with
    pos := s.pos + 18 + k, sel := 2, c0 := c0, c1 := c1, mb := if k = 0 then s.mb else BitVec.ofBool (m.getMsbD (k - 1)), todo := rest
    idx := Memory.writes (maskWrites s.w t c0 c1 m k) s.idx }

theorem maskOrder_length {t : Tile} {n : Nat} (hn : n = t.size.side * t.size.side) : (maskOrder t.size).length = n := by
  subst hn; cases t.size <;> rfl

/-- MASK with its header there (41_tile_codes.md R147, R149, R155): it runs to its end or to the last mask bit there is. -/
theorem maskTile_eq {n : Nat} {s : State} {t : Tile} {rest : List Tile} {c0 c1 : Byte} {m : BitVec n}
    (hn : n = t.size.side * t.size.side) (hin : TileInFrame s t) (hr : 18 ≤ s.remaining) :
    maskTile c0 c1 m t { s with todo := rest } =
      if n ≤ s.remaining - 18 then .ok (maskLeft s rest t c0 c1 m n)
      else .error (.outOfBits (maskLeft s rest t c0 c1 m (s.remaining - 18))) := by
  have hlen := maskOrder_length hn
  have hpf : PixelsInFrame s t (((maskOrder t.size).zip (fieldBits m)).map Prod.fst) := by
    refine pixelsInFrame_of_tile hin.1 hin.2 (fun rc h => ?_)
    obtain ⟨q, hq, rfl⟩ := List.mem_map.1 h
    exact mem_maskOrder.1 (List.of_mem_zip (show (q.1, q.2) ∈ _ from hq)).1
  have e3 : maskTile c0 c1 m t { s with todo := rest } = maskPixels t ((maskOrder t.size).zip (fieldBits m))
      { s with pos := s.pos + 2 + 8 + 8, sel := 2, c0 := c0, c1 := c1, todo := rest } := by
    simp only [maskTile, bind, Except.bind]
    rw [State.readSel_ok (by simp only [State.remaining] at hr ⊢; omega)]
    simp only
    rw [State.readByte_ok (by simp only [State.remaining] at hr ⊢; omega)]
    simp only
    rw [State.readByte_ok (by simp only [State.remaining, State.setByteReg] at hr ⊢; omega)]
    rfl
  have hrem : State.remaining { s with pos := s.pos + 2 + 8 + 8, sel := 2, c0 := c0, c1 := c1, todo := rest } = s.remaining - 18 := by
    simp only [State.remaining]; omega
  rw [e3, maskPixels_eq (by exact hpf), hrem]
  have hz : ((maskOrder t.size).zip (fieldBits m)).length = n := by simp [hlen]
  rw [hz]
  by_cases hle : n ≤ s.remaining - 18
  · rw [if_pos hle, if_pos hle]
    have htk : ((maskOrder t.size).zip (fieldBits m)).take n = (maskOrder t.size).zip (fieldBits m) :=
      List.take_of_length_le (by omega)
    have hl := getLast?_zip_fieldBits (maskOrder t.size) m hlen le_rfl
    rw [htk] at hl
    simp only [maskLeft, maskWrites, maskAfter, hz, hl, htk]
    congr 2
    split <;> rfl
  · rw [if_neg hle, if_neg hle]
    have hl := getLast?_zip_fieldBits (maskOrder t.size) m hlen (show s.remaining - 18 ≤ n by omega)
    have hlt : (List.take (s.remaining - 18) ((maskOrder t.size).zip (fieldBits m))).length = s.remaining - 18 := by
      simp [hlen]; omega
    simp only [maskLeft, maskWrites, maskAfter, hlt, hl]
    congr 3
    split <;> rfl

/-- The pixel of mask bit `j` (30_encoding.md R92): bottom row first at sizes 8 and 4, top row first at size 2. -/
theorem maskOrder_get8 : ∀ i : Fin 64, (maskOrder .t8)[i.val]? = some (7 - i.val / 8, i.val % 8) := by decide

theorem maskOrder_get4 : ∀ i : Fin 16, (maskOrder .t4)[i.val]? = some (3 - i.val / 4, i.val % 4) := by decide

theorem maskOrder_get2 : ∀ i : Fin 4, (maskOrder .t2)[i.val]? = some (i.val / 2, i.val % 2) := by decide

/-- The writes of the first `k` mask bits name the cells of the first `k` pixels. -/
theorem maskWrites_cells {n : Nat} {t : Tile} (hn : n = t.size.side * t.size.side) (w : Nat) (c0 c1 : Byte) (m : BitVec n) (k : Nat) :
    (maskWrites w t c0 c1 m k).map Prod.fst = ((maskOrder t.size).take k).map (tileCell w t) := by
  have hzip : List.take k ((maskOrder t.size).zip (fieldBits m)) = (List.take k (maskOrder t.size)).zip (List.take k (fieldBits m)) :=
    List.take_zipWith
  rw [maskWrites, List.map_map, hzip,
    show (Prod.fst ∘ fun p : (Nat × Nat) × Bool => (tileCell w t p.1, if p.2 then c1 else c0)) = tileCell w t ∘ Prod.fst from rfl,
    ← List.map_map, List.map_fst_zip]
  simp [maskOrder_length hn]

/-- After the first `k` mask bits the pixel of mask bit `i` has its colour if `i < k`, else what it had. -/
theorem cell_maskWrites {n : Nat} {s : State} {t : Tile} {c0 c1 : Byte} {m : BitVec n} (hn : n = t.size.side * t.size.side)
    (hin : TileInFrame s t) {k i r c : Nat} (hi : i < n) (hget : (maskOrder t.size)[i]? = some (r, c)) :
    State.cell { s with idx := Memory.writes (maskWrites s.w t c0 c1 m k) s.idx } (s.pix (t.x + c) (t.y + r)) =
      if i < k then some (if m.getMsbD i then c1 else c0) else s.cell (s.pix (t.x + c) (t.y + r)) := by
  have hlen := maskOrder_length hn
  have hmem : (r, c) ∈ maskOrder t.size := List.mem_of_getElem? hget
  have hrc := mem_maskOrder.1 hmem
  have hpf : PixelsInFrame s t (maskOrder t.size) := pixelsInFrame_of_tile hin.1 hin.2 (fun rc h => mem_maskOrder.1 h)
  have hkeys := maskWrites_cells hn s.w c0 c1 m k
  have hin2 := hin.1; have hin3 := hin.2
  split
  · rename_i hik
    refine cell_writes_mem (pix_lt (by omega) (by omega)) ?_ ?_
    · rw [hkeys]; exact (nodup_cells hpf (nodup_maskOrder _)).sublist (List.Sublist.map _ (List.take_sublist _ _))
    · refine List.mem_map.2 ⟨((r, c), m.getMsbD i), ?_, rfl⟩
      refine List.mem_of_getElem? (i := i) ?_
      rw [List.getElem?_take_of_lt hik, List.getElem?_zip_eq_some]
      exact ⟨hget, by simp [fieldBits, hi]⟩
  · rename_i hik
    refine cell_writes_other ?_
    rw [hkeys]
    intro hmem'
    obtain ⟨⟨r', c'⟩, hm', heq⟩ := List.mem_map.1 hmem'
    have hm'' : (r', c') ∈ maskOrder t.size := List.mem_of_mem_take hm'
    have a := hpf _ hm''; have b := hpf _ hmem
    have := pix_inj a.1 b.1 heq
    simp only at this
    have e1 : r' = r := by omega
    have e2 : c' = c := by omega
    subst e1 e2
    obtain ⟨j, hj⟩ := List.mem_iff_getElem?.1 hm'
    have hjk : j < k := by
      by_contra hc
      rw [List.getElem?_eq_none (by simp; omega)] at hj; simp at hj
    rw [List.getElem?_take_of_lt hjk] at hj
    have : j = i := by
      have hj' : j < (maskOrder t.size).length := by by_contra hc; rw [List.getElem?_eq_none (by omega)] at hj; simp at hj
      exact (List.getElem?_inj hj' (nodup_maskOrder _)).1 (hj.trans hget.symm)
    omega

/-- No cell outside the tile is touched. -/
theorem cell_maskWrites_outside {n : Nat} {s : State} {t : Tile} {c0 c1 : Byte} {m : BitVec n} (hn : n = t.size.side * t.size.side)
    (k : Nat) {a : Nat} (ho : OutsideTile s t a) :
    State.cell { s with idx := Memory.writes (maskWrites s.w t c0 c1 m k) s.idx } a = s.cell a := by
  refine cell_writes_other ?_
  rw [maskWrites_cells hn]
  exact outside_notMem ho fun rc h => mem_maskOrder.1 (List.mem_of_mem_take h)

end Sys2Proof.Machine
end

