-- ==== Sys2Proof/Laws/Reads.lean ====
section
/-! SUPPORT. What the reads of a tile code do, whatever is left of the payload: one predicate, kept by every read, every pixel write and every sequence of them,
and the lemma that every tile code meets it with the widths 41_tile_codes.md R153 lists. -/

namespace Sys2Proof.Machine

/-- Nothing a tile code is not to change has changed. -/
def KeepsFrame (a s : State) : Prop :=
  a.vlen = s.vlen ∧ a.buf = s.buf ∧ a.ftype = s.ftype ∧ a.w = s.w ∧ a.h = s.h ∧ a.phase = s.phase

theorem KeepsFrame.refl (s : State) : KeepsFrame s s := ⟨rfl, rfl, rfl, rfl, rfl, rfl⟩

theorem KeepsFrame.trans {a b c : State} (h : KeepsFrame a b) (k : KeepsFrame b c) : KeepsFrame a c := by
  obtain ⟨h1, h2, h3, h4, h5, h6⟩ := h
  obtain ⟨k1, k2, k3, k4, k5, k6⟩ := k
  exact ⟨h1.trans k1, h2.trans k2, h3.trans k3, h4.trans k4, h5.trans k5, h6.trans k6⟩

/-- An operation that makes reads of these widths, from the state `s`: it ends with the cursor moved by all of them, or raises `OutOfBits` with the
cursor moved by those that succeeded, or faults. -/
def Reads (ns : List Nat) (s : State) : Except Trap State → Prop
  | .ok a => a.pos = s.pos + ns.sum ∧ ns.sum ≤ s.remaining ∧ KeepsFrame a s
  | .error (.outOfBits a) =>
    s.remaining < ns.sum ∧ a.pos = s.pos + bitsRead ns s.remaining ∧ KeepsFrame a s ∧ ∃ n, (n = 1 ∨ n = 2 ∨ n = 8) ∧ a.remaining < n
  | .error (.fault _) => True

theorem bitsRead_append_of_le {ns ms : List Nat} {m : Nat} (h : ns.sum ≤ m) :
    bitsRead (ns ++ ms) m = ns.sum + bitsRead ms (m - ns.sum) := by
  induction ns generalizing m with
  | nil => simp
  | cons n ns ih =>
    simp only [List.sum_cons] at h
    simp only [List.cons_append, bitsRead, List.sum_cons, if_pos (show n ≤ m by omega), ih (show ns.sum ≤ m - n by omega)]
    rw [show m - n - ns.sum = m - (n + ns.sum) by omega]; omega

theorem bitsRead_append_of_lt {ns ms : List Nat} {m : Nat} (h : m < ns.sum) : bitsRead (ns ++ ms) m = bitsRead ns m := by
  induction ns generalizing m with
  | nil => simp at h
  | cons n ns ih =>
    simp only [List.sum_cons] at h
    simp only [List.cons_append, bitsRead]
    split
    · rw [ih (by omega)]
    · rfl

/-- One operation after another. -/
theorem Reads.bind {ns ms : List Nat} {s : State} {r : Except Trap State} {f : State → Except Trap State} (h : Reads ns s r)
    (hf : ∀ a, r = .ok a → Reads ms a (f a)) : Reads (ns ++ ms) s (r >>= f) := by
  match r, h with
  | .error (.fault _), _ => trivial
  | .error (.outOfBits a), h =>
    obtain ⟨h1, h2, h3, h4⟩ := h
    exact ⟨by simp; omega, by rw [h2, bitsRead_append_of_lt h1], h3, h4⟩
  | .ok a, h =>
    obtain ⟨h1, h2, hk⟩ := h
    have hr : a.remaining = s.remaining - ns.sum := by have := hk.1; simp only [State.remaining, h1, this] at *; omega
    have g := hf a rfl
    show Reads (ns ++ ms) s (f a)
    match f a, g with
    | .error (.fault _), _ => trivial
    | .error (.outOfBits b), ⟨g1, g2, g3, g4⟩ =>
      exact ⟨by simp; omega, by rw [g2, h1, bitsRead_append_of_le h2, hr]; omega, g3.trans hk, g4⟩
    | .ok b, ⟨g1, g2, g3⟩ => exact ⟨by simp [g1, h1]; omega, by simp; omega, g3.trans hk⟩

theorem Reads.done (s : State) : Reads [] s (.ok s) := ⟨by simp, by simp, KeepsFrame.refl s⟩

/-- One read, and what its answer sets. -/
theorem Reads.advance {n : Nat} {s : State} {g : State → State} (hn : n = 1 ∨ n = 2 ∨ n = 8) (hg : ∀ a, (g a).pos = a.pos ∧ KeepsFrame (g a) a) :
    Reads [n] s (s.advance n >>= fun a => pure (g a)) := by
  rcases State.advance_cases n s with ⟨h, e⟩ | ⟨h, e⟩ <;> rw [e]
  · obtain ⟨h1, h2⟩ := hg { s with pos := s.pos + n }
    exact ⟨by simpa using h1, by simpa using h, h2⟩
  · exact ⟨by simpa using h, by simp [bitsRead, Nat.not_le.2 h], KeepsFrame.refl s, n, hn, h⟩

theorem reads_readSel (v : BitVec 2) (s : State) : Reads [2] s (s.readSel v) :=
  Reads.advance (g := fun s => { s with sel := v }) (by simp) fun _ => ⟨rfl, KeepsFrame.refl _⟩

theorem reads_readByte (r : ByteReg) (v : Byte) (s : State) : Reads [8] s (s.readByte r v) :=
  Reads.advance (g := fun s => s.setByteReg r v) (by simp) fun _ => by cases r <;> exact ⟨rfl, KeepsFrame.refl _⟩

theorem reads_readMaskBit (b : Bool) (s : State) : Reads [1] s (s.readMaskBit b) :=
  Reads.advance (g := fun s => { s with mb := BitVec.ofBool b }) (by simp) fun _ => ⟨rfl, KeepsFrame.refl _⟩

theorem reads_writePixel (x y : Nat) (v : Byte) (s : State) : Reads [] s (s.writePixel x y v) := by
  rcases State.writePixel_cases x y v s with e | e <;> rw [e]
  · exact ⟨by simp, by simp, KeepsFrame.refl s⟩
  · trivial

theorem reads_paintPixels (t : Tile) (v : Byte) (ps : List (Nat × Nat)) (s : State) : Reads [] s (paintPixels t v ps s) := by
  induction ps generalizing s with
  | nil => exact Reads.done s
  | cons p ps ih => exact Reads.bind (ns := []) (reads_writePixel _ _ _ _) fun a _ => ih a

theorem reads_maskPixels (t : Tile) (ps : List ((Nat × Nat) × Bool)) (s : State) :
    Reads (List.replicate ps.length 1) s (maskPixels t ps s) := by
  induction ps generalizing s with
  | nil => exact Reads.done s
  | cons p ps ih =>
    exact Reads.bind (ns := [1]) (reads_readMaskBit _ _) fun _ _ => Reads.bind (ns := []) (reads_writePixel _ _ _ _) fun a _ => ih a

theorem reads_rawPixels (t : Tile) (ps : List ((Nat × Nat) × Byte)) (s : State) :
    Reads (List.replicate ps.length 8) s (rawPixels t ps s) := by
  induction ps generalizing s with
  | nil => exact Reads.done s
  | cons p ps ih =>
    exact Reads.bind (ns := [8]) (reads_readByte _ _ _) fun _ _ => Reads.bind (ns := []) (reads_writePixel _ _ _ _) fun a _ => ih a

theorem reads_fillTile (c : Byte) (t : Tile) (s : State) : Reads [2, 8] s (fillTile c t s) :=
  Reads.bind (ns := [2]) (reads_readSel _ _) fun _ _ =>
    Reads.bind (ns := [8]) (ms := []) (reads_readByte _ _ _) fun _ _ => reads_paintPixels _ _ _ _

theorem reads_maskTile {n : Nat} (c0 c1 : Byte) (m : BitVec n) (t : Tile) (hn : n = t.size.side * t.size.side) (s : State) :
    Reads ([2, 8, 8] ++ List.replicate n 1) s (maskTile c0 c1 m t s) := by
  have h := reads_maskPixels t ((maskOrder t.size).zip (fieldBits m))
  simp only [List.length_zip, maskOrder_length hn, fieldBits_length, Nat.min_self] at h
  exact Reads.bind (ns := [2]) (reads_readSel _ _) fun _ _ => Reads.bind (ns := [8]) (reads_readByte _ _ _) fun _ _ =>
    Reads.bind (ns := [8]) (reads_readByte _ _ _) fun a _ => h a

theorem reads_splitTile (size : TileSize) (t : Tile) (s : State) : Reads [2] s (splitTile size t s) :=
  Reads.bind (ns := [2]) (ms := []) (reads_readSel _ _) fun a _ => ⟨by simp, by simp, KeepsFrame.refl a⟩

/-- Every tile code at a tile of its size makes the reads R153 lists. -/
theorem reads_of_code {s : State} {t : Tile} {rest : List Tile} {i : Instr} {bits : List Bool} (h : AtTile s t rest)
    (he : encode i = .tile t.size bits) : ∃ r, exec i s = conclude r ∧ Reads (codeReads i) { s with todo := rest } r := by
  obtain ⟨hp, ht⟩ := h
  have run := fun {size : TileSize} (hz : t.size = size) code => runTileCode_at (size := size) (code := code) hp ht hz
  cases i <;> simp only [encode, Encoding.tile.injEq, reduceCtorEq] at he <;> obtain ⟨hz, -⟩ := he
  case raw2 p q r u =>
    exact ⟨_, run hz.symm (fun tile s => do { let s ← s.readSel 3; rawPixels tile ((rowsDown .t2).zip [p, q, r, u]) s }),
      Reads.bind (ns := [2]) (reads_readSel _ _) fun a _ => reads_rawPixels _ _ a⟩
  all_goals refine ⟨_, run hz.symm _, ?_⟩
  case skip8 | skip4 | skip2 => exact reads_readSel _ _
  case fill8 | fill4 | fill2 => exact reads_fillTile _ _ _
  case mask8 | mask4 | mask2 => exact reads_maskTile _ _ _ _ (by rw [← hz]; rfl) _
  case split8 | split4 => exact reads_splitTile _ _ _

end Sys2Proof.Machine
end

