-- ==== Sys2Proof/Tests/Slice0.lean ====
section
/-! SUPPORT. The model's own tests: well-formedness, the decoding of words written out from spec/30_encoding.md, single steps from the vectors of
spec/95_test_vectors.md, and, for each statement with hypotheses, a state that meets them all. -/

namespace Sys2Proof.Tests

set_option Elab.async false

open Sys2Proof Sys2Proof.Machine

/-! ### Well-formedness: one ill-formed instruction for each check -/

theorem test_wf_width_not_a_multiple_of_8 : (Instr.streamStart 12 8).wf = false := by decide

theorem test_wf_height_not_a_multiple_of_8 : (Instr.streamStart 8 7).wf = false := by decide

theorem test_wf_payload_longer_than_vlen (n : Nat) (h : 2 ^ 32 ≤ n) : (Instr.frameComp1 (List.replicate n 0)).wf = false := by
  simpa [Instr.wf, payloadWf] using h

theorem test_wf_no_fourth_width : Instr.rdNone.wf = false := by decide

theorem test_wf_accepts : (Instr.streamStart 16 0).wf = true ∧ (Instr.frameBlank [7]).wf = true ∧ (Instr.mask2 1 2 3).wf = true := by decide

/-! ### Decoding: each row's word, written out from 30_encoding.md R82 and R91 -/

/-- Stream bits written as digits. -/
def bin (ds : List Nat) : List Bool := ds.map fun d => d == 1

/-- The digits of the byte `0x11`, of `0x22`, and of `0xA1`. -/
def d11 : List Nat := [0, 0, 0, 1, 0, 0, 0, 1]
def d22 : List Nat := [0, 0, 1, 0, 0, 0, 1, 0]
def dA1 : List Nat := [1, 0, 1, 0, 0, 0, 0, 1]

theorem test_decode_skip8 : decode (.tile .t8 (bin [0, 0])) = .skip8 := by decide
theorem test_decode_skip4 : decode (.tile .t4 (bin [0, 0])) = .skip4 := by decide
theorem test_decode_skip2 : decode (.tile .t2 (bin [0, 0])) = .skip2 := by decide
theorem test_decode_fill8 : decode (.tile .t8 (bin ([0, 1] ++ dA1))) = .fill8 0xA1 := by decide
theorem test_decode_fill4 : decode (.tile .t4 (bin ([0, 1] ++ dA1))) = .fill4 0xA1 := by decide
theorem test_decode_fill2 : decode (.tile .t2 (bin ([0, 1] ++ dA1))) = .fill2 0xA1 := by decide

/-- The mask of vector T3: mask bits 0 and 63 are 1, and the first is the field's top bit. -/
theorem test_decode_mask8 :
    decode (.tile .t8 (bin ([1, 0] ++ d11 ++ d22 ++ [1] ++ List.replicate 62 0 ++ [1]))) = .mask8 0x11 0x22 0x8000000000000001 := by
  decide +kernel

/-- The mask of vector T6. -/
theorem test_decode_mask4 :
    decode (.tile .t4 (bin ([1, 0] ++ d11 ++ d22 ++ [1, 0, 0, 0, 0, 0, 0, 0, 0, 0, 0, 0, 0, 0, 1, 1]))) = .mask4 0x11 0x22 0x8003 := by
  decide +kernel

theorem test_decode_mask2 : decode (.tile .t2 (bin ([1, 0] ++ d11 ++ d22 ++ [1, 0, 1, 1]))) = .mask2 0x11 0x22 0b1011 := by decide +kernel

theorem test_decode_split8 : decode (.tile .t8 (bin [1, 1])) = .split8 := by decide
theorem test_decode_split4 : decode (.tile .t4 (bin [1, 1])) = .split4 := by decide

theorem test_decode_raw2 :
    decode (.tile .t2 (bin ([1, 1] ++ d11 ++ d22 ++ dA1 ++ [0, 0, 0, 0, 0, 1, 0, 0]))) = .raw2 0x11 0x22 0xA1 0x04 := by decide +kernel

/-- `00xx`: both values of an ignored bit. -/
theorem test_decode_streamStart :
    decode (.command { cmdw := 0b0000, w := 16, h := 8 }) = .streamStart 16 8 ∧
    decode (.command { cmdw := 0b0011, w := 16, h := 8 }) = .streamStart 16 8 := by decide

theorem test_decode_frameComp0 : decode (.command { cmdw := 0b0100, payload := [] }) = .frameComp0 [] := by decide
theorem test_decode_frameBlank : decode (.command { cmdw := 0b0101, payload := [7] }) = .frameBlank [7] := by decide
theorem test_decode_frameComp1 : decode (.command { cmdw := 0b0110, payload := [7, 8] }) = .frameComp1 [7, 8] := by decide
theorem test_decode_frameIllegal : decode (.command { cmdw := 0b0111, payload := [7] }) = .frameIllegal [7] := by decide

theorem test_decode_readerReset :
    decode (.command { cmdw := 0b1000 }) = .readerReset ∧ decode (.command { cmdw := 0b1011 }) = .readerReset := by decide

theorem test_decode_cmdIllegal :
    decode (.command { cmdw := 0b1100 }) = .cmdIllegal ∧ decode (.command { cmdw := 0b1110 }) = .cmdIllegal := by decide

theorem test_decode_rd1 : decode (.request { wsel := 0b00, dst := .c0 }) = .rd1 := by decide
theorem test_decode_rd2 : decode (.request { wsel := 0b01, dst := .c0 }) = .rd2 := by decide
theorem test_decode_rd8 : decode (.request { wsel := 0b10, dst := .c1 }) = .rd8 .c1 := by decide
theorem test_decode_rdNone : decode (.request { wsel := 0b11, dst := .c0 }) = .rdNone := by decide

/-- Words of the opcode table: a FILL.8 word of index `0x81` (the index's top bit is the table's bit 2), a RAW.2 word, a command word. -/
theorem test_table_words :
    decodeTableWord 16 0b1000000101 = some (.fill8 0x81) ∧
    decodeTableWord 40 0b10000000_00000000_00000000_00000001_11 = some (.raw2 0x80 0 0 0x01) ∧
    decodeTableWord 8 0x5 = some (.frameBlank [0]) ∧ decodeTableWord 8 0xC = some .cmdIllegal ∧ decodeTableWord 8 0x10 = none := by
  decide +kernel

/-! ### One step, from the vectors of 95_test_vectors.md (frames of 8×8 whose cells hold `EE` before) -/

/-- Every cell `EE`. -/
def ee : Memory := Memory.ofCells 64 fun _ => 0xEE

/-- An idle block in an 8×8 stream. -/
def idle8 : State := { State.reset with started := true, w := 8, h := 8, idx := ee }

/-- A COMP1 frame at its cursor, with tiles to go. -/
def running (payload : List Byte) (pos : Nat) (todo : List Tile) : State :=
  { idle8 with phase := .run, ftype := 2, vlen := payload.length, buf := payload, pos := pos, todo := todo }

def t8 : Tile := ⟨0, 0, .t8⟩
def t4 : Tile := ⟨4, 4, .t4⟩
def t2 : Tile := ⟨6, 6, .t2⟩

/-- A check of the next state; no fault and no refusal passes it. -/
def andThen (o : Host.Outcome State Fault Refusal) (p : State → Bool) : Bool :=
  match o with
  | .next s => p s
  | .fault _ => false
  | .refused _ => false

/-- The rows of cells `x .. x + n - 1`, `y .. y + n - 1`. -/
def picture (s : State) (x y n : Nat) : List (List (Option Byte)) :=
  (List.range n).map fun r => (List.range n).map fun c => s.cell (s.pix (x + c) (y + r))

/-- How many cells differ from `EE`. -/
def written (s : State) : Nat := (s.idx.filter fun c => c.2 != 0xEE).length

/-- T1. -/
theorem test_step_skip8 : andThen (step (running [0x00] 0 [t8])) (fun s => s.pos == 2 && s.idx == ee && s.todo == [] && s.phase == .run) := by
  decide +kernel

theorem test_step_skip4 : andThen (step (running [0xC4, 0xCC, 0x00] 14 [t4])) (fun s => s.pos == 16 && s.idx == ee) := by decide +kernel

theorem test_step_skip2 : andThen (step (running [0xF8, 0x14, 0x1A, 0x00, 0x00] 26 [t2])) (fun s => s.pos == 28 && s.idx == ee) := by
  decide +kernel

/-- T2. -/
theorem test_step_fill8 :
    andThen (step (running [0x4A, 0x80] 0 [t8])) (fun s => s.pos == 10 && s.idx == Memory.ofCells 64 fun _ => 0x2A) := by decide +kernel

/-- T5: the FILL.4 at bit 4. -/
theorem test_step_fill4 :
    andThen (step (running [0xC4, 0xCC, 0x00] 4 [⟨4, 0, .t4⟩])) (fun s =>
      s.pos == 14 && written s == 16 && picture s 4 0 4 == List.replicate 4 (List.replicate 4 (some 0x33))) := by decide +kernel

/-- T8: the FILL.2 at bit 4. -/
theorem test_step_fill2 :
    andThen (step (running [0xF5, 0x12, 0x05, 0x06, 0x6C, 0x04, 0x08, 0x0C, 0x10, 0x00] 4 [⟨0, 0, .t2⟩])) (fun s =>
      s.pos == 14 && written s == 4 && picture s 0 0 2 == [[some 0x44, some 0x44], [some 0x44, some 0x44]]) := by decide +kernel

/-- T3: mask bit 0 is the bottom-left pixel, mask bit 63 the top-right one. -/
theorem test_step_mask8 :
    andThen (step (running [0x84, 0x48, 0xA0, 0, 0, 0, 0, 0, 0, 0, 0x40] 0 [t8])) (fun s =>
      s.pos == 82 && s.cell 56 == some 0x22 && s.cell 7 == some 0x22 && (s.idx.filter fun c => c.2 == 0x11).length == 62) := by
  decide +kernel

/-- X1: cut inside its mask, and what was written stays. -/
theorem test_step_mask8_runs_out :
    andThen (step (running [0x84, 0x48, 0xBF, 0xFF, 0xFF] 0 [t8])) (fun s =>
      s.status == .corrupted && s.phase == .idle && s.pos == 40 && s.remaining == 0 && written s == 22 &&
      s.cell 45 == some 0x22 && s.cell 46 == some 0xEE) := by decide +kernel

/-- T6: the MASK.4 at bit 2. -/
theorem test_step_mask4 :
    andThen (step (running [0xE0, 0xA0, 0xB8, 0x00, 0x30, 0x00] 2 [⟨0, 0, .t4⟩])) (fun s =>
      s.pos == 36 && written s == 16 && picture s 0 0 4 ==
        [[some 0x0A, some 0x0A, some 0x0B, some 0x0B], [some 0x0A, some 0x0A, some 0x0A, some 0x0A],
         [some 0x0A, some 0x0A, some 0x0A, some 0x0A], [some 0x0B, some 0x0A, some 0x0A, some 0x0A]]) := by decide +kernel

/-- T7: the MASK.2 at bit 4, its first row the top one. -/
theorem test_step_mask2 :
    andThen (step (running [0xF8, 0x14, 0x1A, 0x00, 0x00] 4 [⟨0, 0, .t2⟩])) (fun s =>
      s.pos == 26 && written s == 4 && picture s 0 0 2 == [[some 0x06, some 0x05], [some 0x05, some 0x05]]) := by decide +kernel

/-- X7: two mask bits, then none. -/
theorem test_step_mask2_runs_out :
    andThen (step (running [0xFA, 0x86, 0xCA] 4 [⟨0, 0, .t2⟩])) (fun s =>
      s.status == .corrupted && s.pos == 24 && written s == 2 && picture s 0 0 2 == [[some 0xB2, some 0xA1], [some 0xEE, some 0xEE]]) := by
  decide +kernel

/-- T5: the four children of SPLIT.8, row-major. -/
theorem test_step_split8 :
    andThen (step (running [0xC4, 0xCC, 0x00] 0 [t8])) (fun s =>
      s.pos == 2 && s.idx == ee && s.todo == [⟨0, 0, .t4⟩, ⟨4, 0, .t4⟩, ⟨0, 4, .t4⟩, ⟨4, 4, .t4⟩]) := by decide +kernel

/-- T9: the SPLIT.4 at bit 8. -/
theorem test_step_split4 :
    andThen (step (running [0xC0, 0xC0, 0xE8, 0x68, 0xA8, 0xE9, 0x00] 8 [t4])) (fun s =>
      s.pos == 10 && s.idx == ee && s.todo == [⟨4, 4, .t2⟩, ⟨6, 4, .t2⟩, ⟨4, 6, .t2⟩, ⟨6, 6, .t2⟩]) := by decide +kernel

/-- T9: the RAW.2 in the last corner. -/
theorem test_step_raw2 :
    andThen (step (running [0xC0, 0xC0, 0xE8, 0x68, 0xA8, 0xE9, 0x00] 16 [t2])) (fun s =>
      s.pos == 50 && written s == 4 && picture s 6 6 2 == [[some 0xA1, some 0xA2], [some 0xA3, some 0xA4]]) := by decide +kernel

/-- X3: the third literal is not there. -/
theorem test_step_raw2_runs_out :
    andThen (step (running [0xFC, 0x04, 0x08] 4 [⟨0, 0, .t2⟩])) (fun s =>
      s.status == .corrupted && s.pos == 22 && s.remaining == 2 && written s == 2 &&
      picture s 0 0 2 == [[some 0x01, some 0x02], [some 0xEE, some 0xEE]]) := by decide +kernel

/-- X5: a FILL.8 without its index. -/
theorem test_step_fill8_runs_out :
    andThen (step (running [0x4A] 0 [t8])) (fun s => s.status == .corrupted && s.pos == 2 && s.remaining == 6 && s.idx == ee) := by
  decide +kernel

/-- A command issued on an idle 8×8 block. -/
def issue (c : PortCommand) : Host.Outcome State Fault Refusal := step { idle8 with host := [.command c] }

/-- F1: the dimensions and the number of cells. -/
theorem test_step_streamStart :
    andThen (step { State.reset with host := [.command { cmdw := 0b0000, w := 16, h := 8 }] }) (fun s =>
      s.w == 16 && s.h == 8 && s.started && s.vlen == 0 && s.buf == [] && s.pos == 0 && s.status == .ok && s.phase == .idle &&
      s.idx.map Prod.fst == List.range 128) := by decide +kernel

/-- F3. -/
theorem test_step_frameComp0 :
    andThen (issue { cmdw := 0b0100 }) (fun s => s.status == .ok && s.pos == 0 && s.idx == ee) ∧
    andThen (issue { cmdw := 0b0100, payload := [0] }) (fun s => s.status == .sizeViolation && s.remaining == 8 && s.idx == ee) := by
  decide +kernel

/-- F2. -/
theorem test_step_frameBlank :
    andThen (issue { cmdw := 0b0101, payload := [7] }) (fun s =>
      s.status == .ok && s.pos == 8 && s.remaining == 0 && s.idx == Memory.ofCells 64 fun _ => 7) ∧
    andThen (issue { cmdw := 0b0101, payload := [7, 7] }) (fun s => s.status == .sizeViolation && s.pos == 0 && s.remaining == 16 && s.idx == ee) := by
  decide +kernel

theorem test_step_frameComp1 :
    andThen (issue { cmdw := 0b0110, payload := [0x4A, 0x80] }) (fun s => s.phase == .run && s.todo == [t8] && s.vlen == 2 && s.pos == 0) := by
  decide +kernel

/-- F7. -/
theorem test_step_illegal_codes :
    andThen (issue { cmdw := 0b0111, payload := [0x55] }) (fun s => s.status == .illegal && s.pos == 0 && s.remaining == 8 && s.idx == ee) ∧
    andThen (issue { cmdw := 0b1101 }) (fun s => s == { idle8 with status := .illegal }) := by decide +kernel

/-- F9. -/
theorem test_step_readerReset :
    andThen (step { idle8 with buf := [0x4A, 0x80, 0xFF, 0xFF], vlen := 4, pos := 10, host := [.command { cmdw := 0b1000 }] })
      (fun s => s.pos == 0 && s.remaining == 32 && s.status == .ok && s.idx == ee) := by decide +kernel

/-- B3, B5: a read that straddles two bytes, at each width. -/
theorem test_step_rd1 :
    andThen (step { idle8 with buf := [0xA5, 0xC3], vlen := 2, pos := 15, req := some { wsel := 0, dst := .px } })
      (fun s => s.mb == 1 && s.pos == 16) := by decide +kernel

theorem test_step_rd2 :
    andThen (step { idle8 with buf := [0xA5, 0xC3], vlen := 2, pos := 7, req := some { wsel := 1, dst := .px } })
      (fun s => s.sel == 3 && s.pos == 9) := by decide +kernel

theorem test_step_rd8 :
    andThen (step { idle8 with buf := [0xA5, 0xC3], vlen := 2, pos := 3, req := some { wsel := 2, dst := .c1 } })
      (fun s => s.c1 == 46 && s.pos == 11) := by decide +kernel

/-- B3's last row: seven bits left. -/
theorem test_step_rd8_runs_out :
    andThen (step { idle8 with buf := [0xA5, 0xC3], vlen := 2, pos := 9, req := some { wsel := 2, dst := .c1 } })
      (fun s => s.status == .corrupted && s.pos == 9 && s.c1 == 0) := by decide +kernel

theorem test_step_rdNone : exec .rdNone idle8 = .refused .noSuchReadWidth := rfl

/-- The end of a frame (T2's last step), and an idle block (60_exceptions.md R211). -/
theorem test_step_end_of_frame :
    andThen (step (running [0x4A, 0x80] 10 [])) (fun s => s.status == .ok && s.phase == .idle && s.pos == 10 && s.remaining == 6) ∧
    andThen (step idle8) (fun s => s == idle8) := by decide +kernel

/-- A FILL.8 word of the opcode table, placed in the reset block, is what its next step runs. -/
theorem test_withFetchWord :
    andThen (step (State.reset.withFetchWord 16 0b0101010001)) (fun s => s.pos == 10 && s.c0 == 0x2A && s.cell 63 == some 0x2A) ∧
    andThen (step (State.reset.withFetchWord 8 0x5)) (fun s => s.status == .ok && s.cell 63 == some 0) := by decide +kernel

/-! ### Witnesses: for each statement with hypotheses, states and operands that meet them, at the ends of each clause's range -/

/-- A payload of `n` zero bytes. -/
def zeros (n : Nat) : List Byte := List.replicate n 0

theorem next_of_andThen {o : Host.Outcome State Fault Refusal} {p : State → Bool} (h : andThen o p = true) :
    ∃ s, o = .next s ∧ p s = true := by
  cases o with
  | next s => exact ⟨s, rfl, h⟩
  | fault _ => cases h
  | refused _ => cases h

theorem ee_cells : ee.map Prod.fst = List.range 64 := by decide +kernel

/-- A frame at an even cursor inside its payload, its tiles in the frame and apart, meets the invariant. -/
theorem running_inv (p : List Byte) (pos : Nat) (todo : List Tile) (hpos : pos ≤ 8 * p.length) (heven : pos % 2 = 0)
    (hin : ∀ t ∈ todo, t.x + t.size.side ≤ 8 ∧ t.y + t.size.side ≤ 8) (hapart : todo.Pairwise TilesApart) :
    Inv (running p pos todo) where
  vlenIsLength := rfl
  posInPayload := hpos
  widthMultiple := (by decide : 8 % 8 = 0)
  heightMultiple := (by decide : 8 % 8 = 0)
  cells := ee_cells
  idleHasNoTiles := fun h => by cases h
  runIsComp1 := fun _ => ⟨rfl, rfl⟩
  tilesInFrame := hin
  tilesApart := hapart
  posEven := fun _ => heven
  noRequest := rfl

theorem idle_inv (host : List HostEvent) : Inv { idle8 with host := host } where
  vlenIsLength := rfl
  posInPayload := Nat.zero_le _
  widthMultiple := (by decide : 8 % 8 = 0)
  heightMultiple := (by decide : 8 % 8 = 0)
  cells := ee_cells
  idleHasNoTiles := fun _ => rfl
  runIsComp1 := fun h => by cases h
  tilesInFrame := fun _ h => by cases h
  tilesApart := List.Pairwise.nil
  posEven := fun h => by cases h
  noRequest := rfl

/-- One 8×8 tile to go. -/
theorem one_tile_inv (p : List Byte) : Inv (running p 0 [t8]) :=
  running_inv p 0 [t8] (Nat.zero_le _) rfl (by decide) (by simp)

theorem witness_DecodeOfEncode : (Instr.mask8 1 2 3).wf = true ∧ (Instr.frameComp1 [1]).wf = true ∧ (Instr.rd8 .c1).wf = true := by decide

theorem witness_DecodeIgnoresWhatFollows : encode (.fill8 0x2A) = .tile .t8 (bin [0, 1, 0, 0, 1, 0, 1, 0, 1, 0]) := by decide

theorem witness_BitReadReturnsTheBits : ∀ n ∈ [1, 2, 8],
    (running (zeros 2) (16 - n) []).vlen = (running (zeros 2) (16 - n) []).buf.length ∧ n ≤ (running (zeros 2) (16 - n) []).remaining := by decide

theorem witness_FailedReadChangesNothing :
    (running (zeros 1) 7 []).remaining = 1 ∧ (running (zeros 1) 8 []).remaining = 0 ∧ (running [] 0 []).vlen = 0 := by decide

theorem witness_ReadAccounting :
    (running (zeros 1) 0 []).bitRead 8 = .ok (0, running (zeros 1) 8 []) ∧
    (running (zeros 1) 1 []).bitRead 8 = .error (.outOfBits (running (zeros 1) 1 [])) ∧
    (running (zeros 2) 0 []).pos = 0 ∧ readAll [1, 2, 8] (running (zeros 2) 0 []) = .ok (running (zeros 2) 11 []) := ⟨rfl, rfl, rfl, rfl⟩

theorem witness_Rd1ReadsOneBit :
    (running (zeros 1) 7 []).vlen = (running (zeros 1) 7 []).buf.length ∧ (running (zeros 1) 7 []).pos < 8 * (running (zeros 1) 7 []).vlen ∧
    (running (zeros 1) 8 []).pos = 8 * (running (zeros 1) 8 []).vlen := by decide

theorem witness_Rd2ReadsTwoBits :
    (running (zeros 1) 6 []).vlen = (running (zeros 1) 6 []).buf.length ∧ 2 ≤ (running (zeros 1) 6 []).remaining ∧
    (running (zeros 1) 7 []).vlen = (running (zeros 1) 7 []).buf.length ∧ (running (zeros 1) 7 []).remaining < 2 := by decide

theorem witness_Rd8ReadsEightBits :
    (8 ≤ (running (zeros 2) 8 []).remaining ∧ (running (zeros 2) 8 []).pos % 8 = 0) ∧
    (8 ≤ (running (zeros 2) 7 []).remaining ∧ (running (zeros 2) 7 []).pos % 8 ≠ 0) ∧
    (running (zeros 2) 9 []).remaining < 8 ∧ (∀ k ∈ [7, 8, 9], (running (zeros 2) k []).vlen = (running (zeros 2) k []).buf.length) := by decide

theorem witness_ByteReadWritesOneRegister :
    (running (zeros 2) 8 []).vlen = (running (zeros 2) 8 []).buf.length ∧ 8 ≤ (running (zeros 2) 8 []).remaining := by decide

theorem witness_SplittingReadsReturnsTheSameBits :
    (running (zeros 2) 8 []).vlen = (running (zeros 2) 8 []).buf.length ∧ 8 ≤ (running (zeros 2) 8 []).remaining := by decide

theorem witness_SkipWritesNothing :
    (AtTile (running (zeros 1) 6 [t8]) t8 [] ∧ 2 ≤ (running (zeros 1) 6 [t8]).remaining) ∧
    (AtTile (running (zeros 1) 6 [t4]) t4 [] ∧ 2 ≤ (running (zeros 1) 6 [t4]).remaining) ∧
    (AtTile (running (zeros 1) 6 [t2, t4]) t2 [t4] ∧ 2 ≤ (running (zeros 1) 6 [t2, t4]).remaining) ∧
    (AtTile (running (zeros 1) 7 [t2]) t2 [] ∧ (running (zeros 1) 7 [t2]).remaining < 2) :=
  ⟨⟨⟨rfl, rfl⟩, by decide⟩, ⟨⟨rfl, rfl⟩, by decide⟩, ⟨⟨rfl, rfl⟩, by decide⟩, ⟨⟨rfl, rfl⟩, by decide⟩⟩

/-- The tile at the far corner of the frame, at each size. -/
theorem corner_tiles_in_frame (p : List Byte) (pos : Nat) (todo : List Tile) :
    TileInFrame (running p pos todo) t8 ∧ TileInFrame (running p pos todo) t4 ∧ TileInFrame (running p pos todo) t2 :=
  ⟨⟨(by decide : 0 + 8 ≤ 8), (by decide : 0 + 8 ≤ 8)⟩, ⟨(by decide : 4 + 4 ≤ 8), (by decide : 4 + 4 ≤ 8)⟩,
    ⟨(by decide : 6 + 2 ≤ 8), (by decide : 6 + 2 ≤ 8)⟩⟩

theorem witness_FillPaintsItsTile :
    (∀ t ∈ [t8, t4, t2], AtTile (running (zeros 2) 6 [t]) t [] ∧ TileInFrame (running (zeros 2) 6 [t]) t) ∧
    10 ≤ (running (zeros 2) 6 [t8]).remaining ∧
    (2 ≤ (running (zeros 2) 7 [t8]).remaining ∧ (running (zeros 2) 7 [t8]).remaining < 10) ∧
    (2 ≤ (running (zeros 2) 14 [t8]).remaining ∧ (running (zeros 2) 14 [t8]).remaining < 10) ∧
    (running (zeros 2) 15 [t8]).remaining < 2 := by
  refine ⟨fun t h => ⟨⟨rfl, rfl⟩, ?_⟩, by decide, by decide, by decide, by decide⟩
  have hc := corner_tiles_in_frame (zeros 2) 6 [t]
  simp only [List.mem_cons, List.not_mem_nil, or_false] at h
  rcases h with rfl | rfl | rfl
  · exact hc.1
  · exact hc.2.1
  · exact hc.2.2

theorem witness_Mask8PaintsBottomUp :
    AtTile (running (zeros 11) 6 [t8]) t8 [] ∧ t8.size = .t8 ∧ TileInFrame (running (zeros 11) 6 [t8]) t8 ∧
    82 ≤ (running (zeros 11) 6 [t8]).remaining :=
  ⟨⟨rfl, rfl⟩, rfl, (corner_tiles_in_frame _ _ _).1, by decide⟩

theorem witness_Mask4PaintsBottomUp :
    AtTile (running (zeros 5) 6 [t4]) t4 [] ∧ t4.size = .t4 ∧ TileInFrame (running (zeros 5) 6 [t4]) t4 ∧
    34 ≤ (running (zeros 5) 6 [t4]).remaining :=
  ⟨⟨rfl, rfl⟩, rfl, (corner_tiles_in_frame _ _ _).2.1, by decide⟩

theorem witness_Mask2PaintsTopDown :
    AtTile (running (zeros 3) 2 [t2]) t2 [] ∧ t2.size = .t2 ∧ TileInFrame (running (zeros 3) 2 [t2]) t2 ∧
    22 ≤ (running (zeros 3) 2 [t2]).remaining :=
  ⟨⟨rfl, rfl⟩, rfl, (corner_tiles_in_frame _ _ _).2.2, by decide⟩

theorem witness_Mask8RunsOutPartWay :
    TileInFrame (running (zeros 11) 70 [t8]) t8 ∧ AtTile (running (zeros 11) 70 [t8]) t8 [] ∧ (running (zeros 11) 70 [t8]).remaining = 18 + 0 ∧
    AtTile (running (zeros 11) 7 [t8]) t8 [] ∧ (running (zeros 11) 7 [t8]).remaining = 18 + 63 :=
  ⟨(corner_tiles_in_frame _ _ _).1, ⟨rfl, rfl⟩, by decide, ⟨rfl, rfl⟩, by decide⟩

theorem witness_Mask4RunsOutPartWay :
    TileInFrame (running (zeros 5) 22 [t4]) t4 ∧ AtTile (running (zeros 5) 22 [t4]) t4 [] ∧ (running (zeros 5) 22 [t4]).remaining = 18 + 0 ∧
    AtTile (running (zeros 5) 7 [t4]) t4 [] ∧ (running (zeros 5) 7 [t4]).remaining = 18 + 15 :=
  ⟨(corner_tiles_in_frame _ _ _).2.1, ⟨rfl, rfl⟩, by decide, ⟨rfl, rfl⟩, by decide⟩

theorem witness_Mask2RunsOutPartWay :
    TileInFrame (running (zeros 3) 6 [t2]) t2 ∧ AtTile (running (zeros 3) 6 [t2]) t2 [] ∧ (running (zeros 3) 6 [t2]).remaining = 18 + 0 ∧
    AtTile (running (zeros 3) 3 [t2]) t2 [] ∧ (running (zeros 3) 3 [t2]).remaining = 18 + 3 :=
  ⟨(corner_tiles_in_frame _ _ _).2.2, ⟨rfl, rfl⟩, by decide, ⟨rfl, rfl⟩, by decide⟩

/-- The remainders where the header's clauses meet: 1, 2, 9, 10, 17; `t.size` picks the instruction. -/
theorem witness_MaskRunsOutInItsHeader :
    AtTile (running (zeros 3) 23 [t8]) t8 [] ∧ AtTile (running (zeros 3) 23 [t4]) t4 [] ∧ AtTile (running (zeros 3) 23 [t2]) t2 [] ∧
    (running (zeros 3) 23 [t8]).remaining < 2 ∧
    (∀ p ∈ [22, 15], 2 ≤ (running (zeros 3) p [t8]).remaining ∧ (running (zeros 3) p [t8]).remaining < 10) ∧
    (∀ p ∈ [14, 7], 10 ≤ (running (zeros 3) p [t8]).remaining ∧ (running (zeros 3) p [t8]).remaining < 18) :=
  ⟨⟨rfl, rfl⟩, ⟨rfl, rfl⟩, ⟨rfl, rfl⟩, by decide, by decide, by decide⟩

theorem witness_SplitQueuesItsChildren :
    (AtTile (running (zeros 1) 6 [t8]) ⟨0, 0, .t8⟩ [] ∧ 2 ≤ (running (zeros 1) 6 [t8]).remaining) ∧
    (AtTile (running (zeros 1) 6 [t4]) ⟨4, 4, .t4⟩ [] ∧ 2 ≤ (running (zeros 1) 6 [t4]).remaining) ∧
    (AtTile (running (zeros 1) 7 [t8]) ⟨0, 0, .t8⟩ [] ∧ (running (zeros 1) 7 [t8]).remaining < 2) ∧
    (AtTile (running (zeros 1) 7 [t4]) ⟨4, 4, .t4⟩ [] ∧ (running (zeros 1) 7 [t4]).remaining < 2) :=
  ⟨⟨⟨rfl, rfl⟩, by decide⟩, ⟨⟨rfl, rfl⟩, by decide⟩, ⟨⟨rfl, rfl⟩, by decide⟩, ⟨⟨rfl, rfl⟩, by decide⟩⟩

theorem witness_Raw2WritesFourLiterals :
    AtTile (running (zeros 5) 6 [t2]) t2 [] ∧ t2.size = .t2 ∧ TileInFrame (running (zeros 5) 6 [t2]) t2 ∧
    34 ≤ (running (zeros 5) 6 [t2]).remaining :=
  ⟨⟨rfl, rfl⟩, rfl, (corner_tiles_in_frame _ _ _).2.2, by decide⟩

/-- The remainders at both ends of each literal: 1; 2, 9; 10, 17; 18, 25; 26, 33. -/
theorem witness_Raw2RunsOutPartWay :
    AtTile (running (zeros 5) 39 [t2]) t2 [] ∧ TileInFrame (running (zeros 5) 39 [t2]) t2 ∧
    (running (zeros 5) 39 [t2]).remaining < 2 ∧
    (∀ k < 4, 2 + 8 * k ≤ (running (zeros 5) (38 - 8 * k) [t2]).remaining ∧ (running (zeros 5) (38 - 8 * k) [t2]).remaining < 10 + 8 * k) ∧
    (∀ k < 4, 2 + 8 * k ≤ (running (zeros 5) (31 - 8 * k) [t2]).remaining ∧ (running (zeros 5) (31 - 8 * k) [t2]).remaining < 10 + 8 * k) :=
  ⟨⟨rfl, rfl⟩, (corner_tiles_in_frame _ _ _).2.2, by decide, by decide, by decide⟩

theorem witness_TileCodeNeedsItsTile :
    encode .skip8 = .tile .t8 [false, false] ∧ idle8.phase = .idle ∧ (running [] 0 []).todo = [] ∧
    (running [] 0 [t4]).todo = t4 :: [] ∧ t4.size ≠ .t8 := by decide

theorem witness_StreamStartResetsTheBuffer : idle8.phase = .idle ∧ 16 % 8 = 0 ∧ 0 % 8 = 0 := by decide

/-- Also the hypotheses of BlankFillsTheFrame (any byte; a payload of two bytes and one of none), Comp1QueuesTheFrame, IllegalCodesEndIllegal and
ReaderResetRewinds. -/
theorem witness_Comp0WritesNothing : IdleInStream idle8 ∧ ([7, 7] : List Byte).length ≠ 1 ∧ ([] : List Byte).length ≠ 1 :=
  ⟨⟨rfl, rfl⟩, by decide, by decide⟩

theorem witness_Comp1QueuesTheFrame : IdleInStream idle8 ∧ (topTiles idle8.w idle8.h).length = 1 := ⟨⟨rfl, rfl⟩, by decide⟩

theorem witness_CommandsAreRefusedByName :
    (running [] 0 [t8]).phase = .run ∧ (State.reset.phase = .idle ∧ State.reset.started = false) ∧
    idle8.phase = .idle ∧ 7 % 8 ≠ 0 := by decide

theorem witness_StepRunsTheDecodedInstruction :
    { idle8 with host := [.command { cmdw := 6 }] }.host = .command { cmdw := 6 } :: [] ∧
    { idle8 with req := some ⟨2, .c0⟩ }.req = some ⟨2, .c0⟩ ∧ idle8.host = [] ∧
    (running [] 0 [t8]).host = [] ∧ (running [] 0 [t8]).req = none ∧ AtTile (running [] 0 [t8]) t8 [] ∧
    ({ running [] 0 [t8] with host := [.waitIdle] }.host = .waitIdle :: [] ∧ { running [] 0 [t8] with host := [.waitIdle] }.phase = .run) ∧
    { running [] 0 [t8] with host := [.pass] }.host = .pass :: [] ∧
    ({ idle8 with host := [.waitIdle] }.host = .waitIdle :: [] ∧ { idle8 with host := [.waitIdle] }.phase = .idle) :=
  ⟨rfl, rfl, rfl, rfl, rfl, ⟨rfl, rfl⟩, ⟨rfl, rfl⟩, rfl, rfl, rfl⟩

/-- Its clauses on host reads: one that is answered, one that faults, one that is refused; and its clause on host writes. -/
theorem witness_StepAtHostReads :
    hostRead .busy { running [] 0 [t8] with host := [.read .busy] } = .next 1 ∧
    hostRead (.idx 64) { idle8 with host := [.read (.idx 64)] } = .fault .noSuchCell ∧
    hostRead .status { running [] 0 [t8] with host := [.read .status] } = .refused .hostAccessWhileBusy ∧
    { idle8 with host := [.write (.idx 0)] }.host = .write (.idx 0) :: [] := ⟨rfl, rfl, rfl, rfl⟩

/-- T2's FILL.8 in its payload. -/
theorem witness_FetchReadsTheStream :
    encode (.fill8 0x2A) = .tile .t8 (bin [0, 1, 0, 0, 1, 0, 1, 0, 1, 0]) ∧
    ∀ k, k < (bin [0, 1, 0, 0, 1, 0, 1, 0, 1, 0]).length →
      bitAt (running [0x4A, 0x80] 0 [t8]).buf ((running [0x4A, 0x80] 0 [t8]).pos + k) = (bin [0, 1, 0, 0, 1, 0, 1, 0, 1, 0]).getD k false := by
  decide +kernel

theorem witness_IdleWaitsAndFrameEnds :
    (idle8.host = [] ∧ idle8.req = none ∧ idle8.phase = .idle) ∧
    ((running [] 0 []).host = [] ∧ (running [] 0 []).req = none ∧ (running [] 0 []).phase = .run ∧ (running [] 0 []).todo = []) := by decide

theorem witness_HardwareResetFromAnywhere : { running [0x4A] 2 [t8] with host := [.hardwareReset] }.host = .hardwareReset :: [] := rfl

/-- The first and the last cell, and the last byte of a payload. -/
theorem witness_HostAccessRules :
    hostRead .status idle8 = .next 0 ∧ (running [] 0 [t8]).phase = .run ∧ HostItem.status ≠ .busy ∧ idle8.phase = .idle ∧
    idle8.cell 0 = some 0xEE ∧ idle8.cell 63 = some 0xEE ∧ { idle8 with buf := [1, 2] }.buf[1]? = some 2 :=
  ⟨rfl, by decide +kernel⟩

/-- The four STATUS codes of 10_state.md R27 as the host reads them, and BUSY. -/
theorem test_status_codes :
    hostRead .status { idle8 with status := .ok } = .next 0 ∧ hostRead .status { idle8 with status := .corrupted } = .next 1 ∧
    hostRead .status { idle8 with status := .sizeViolation } = .next 2 ∧ hostRead .status { idle8 with status := .illegal } = .next 3 ∧
    hostRead .busy idle8 = .next 0 ∧ hostRead .busy (running [] 0 [t8]) = .next 1 := ⟨rfl, rfl, rfl, rfl, rfl, rfl⟩

/-- The end of a frame, and a command, on a block whose STATUS was ILLEGAL. -/
theorem witness_StatusIsNeverRead :
    (∃ t u, (running [] 0 []).phase = .run ∧ step (running [] 0 []) = .next t ∧ step { running [] 0 [] with status := .illegal } = .next u ∧
      t.phase = .idle) ∧
    (∃ t u, step { idle8 with host := [.command { cmdw := 0b0100 }] } = .next t ∧
      step { idle8 with host := [.command { cmdw := 0b0100 }], status := .illegal } = .next u ∧ t.phase = .idle) :=
  ⟨⟨_, _, rfl, rfl, rfl, rfl⟩, ⟨_, _, rfl, rfl, rfl⟩⟩

theorem witness_StepKeepsTheInvariant : ∃ s, Inv (running [0xC0] 0 [t8]) ∧ step (running [0xC0] 0 [t8]) = .next s := by
  obtain ⟨s, h, -⟩ := next_of_andThen (o := step (running [0xC0] 0 [t8])) (p := fun _ => true) (by decide +kernel)
  exact ⟨s, one_tile_inv _, h⟩

theorem witness_EngineNeverStops : Inv (running [] 0 [t8]) ∧ Inv (running [0xFF] 2 [t2]) :=
  ⟨one_tile_inv _, running_inv _ _ _ (by decide) rfl (by decide) (by simp)⟩

theorem witness_EveryFrameEnds : Inv (running [0xFF, 0xFF] 0 [t8]) ∧ (running [0xFF, 0xFF] 0 [t8]).host = [] := ⟨one_tile_inv _, rfl⟩

/-- A payload that ends its frame and one that runs out in it. -/
theorem witness_WorkListIsTheRecursion :
    (∀ p ∈ [zeros 1, [0xFF]], (running p 0 [t8]).phase = .run ∧ (running p 0 [t8]).req = none ∧ (running p 0 [t8]).host = [] ∧
      (running p 0 [t8]).vlen = (running p 0 [t8]).buf.length) := by decide

theorem witness_Comp1FrameIsTheDriver :
    Inv { idle8 with host := [.command { cmdw := 0b0110, payload := [0x4A, 0x80] }] } ∧
    IdleInStream { idle8 with host := [.command { cmdw := 0b0110, payload := [0x4A, 0x80] }] } ∧
    { idle8 with host := [.command { cmdw := 0b0110, payload := [0x4A, 0x80] }] }.host = [.command { cmdw := 0b0110, payload := [0x4A, 0x80] }] :=
  ⟨idle_inv _, ⟨rfl, rfl⟩, rfl⟩

/-- T5's SPLIT.8 as a complete code, its 18 bits at the cursor of a payload of three bytes. -/
theorem witness_CompleteCodeDrawsItsPicture :
    (running [0xC4, 0xCC, 0x00] 0 [t8]).host = [] ∧ (running [0xC4, 0xCC, 0x00] 0 [t8]).req = none ∧
    AtTile (running [0xC4, 0xCC, 0x00] 0 [t8]) t8 [] ∧ t8.size = .t8 ∧ TileInFrame (running [0xC4, 0xCC, 0x00] 0 [t8]) t8 ∧
    (∀ k, k < (Quad8.split .skip (.fill 0x33) .skip .skip).len →
      bitAt (running [0xC4, 0xCC, 0x00] 0 [t8]).buf ((running [0xC4, 0xCC, 0x00] 0 [t8]).pos + k) =
        (Quad8.split .skip (.fill 0x33) .skip .skip).bits.getD k false) ∧
    (Quad8.split .skip (.fill 0x33) .skip .skip).len ≤ (running [0xC4, 0xCC, 0x00] 0 [t8]).remaining :=
  ⟨rfl, rfl, ⟨rfl, rfl⟩, rfl, (corner_tiles_in_frame _ _ _).1, by decide +kernel, by decide⟩

/-- T2's frame, assembled. -/
theorem witness_AssembledFrameDrawsItsPicture :
    assemble [.fill 0x2A] [false] = [0x4A, 0x80] ∧
    Inv { idle8 with host := [.command { cmdw := 0b0110, payload := assemble [.fill 0x2A] [false] }] } ∧
    IdleInStream { idle8 with host := [.command { cmdw := 0b0110, payload := assemble [.fill 0x2A] [false] }] } ∧
    [Quad8.fill 0x2A].length = (idle8.w / 8) * (idle8.h / 8) :=
  ⟨by decide +kernel, idle_inv _, ⟨rfl, rfl⟩, rfl⟩

/-- A tile about to be split, its shape the one tile of the frame. -/
theorem witness_WorkListStaysShort :
    ∃ s, Inv (running [0xC0] 0 [t8]) ∧ TodoShape (running [0xC0] 0 [t8]) ∧ step (running [0xC0] 0 [t8]) = .next s := by
  obtain ⟨s, hi, h⟩ := witness_StepKeepsTheInvariant
  exact ⟨s, hi, ⟨[], [], [t8], rfl, by decide, by decide, by decide, by decide, by decide, by decide, by decide, by decide⟩, h⟩

/-- A size-2 tile, and the cell just before its first one. -/
theorem witness_StepWritesOnlyItsTile :
    ∃ s, Inv (running (zeros 1) 0 [t2]) ∧ AtTile (running (zeros 1) 0 [t2]) t2 [] ∧ engineStep (running (zeros 1) 0 [t2]) = .next s ∧
      OutsideTile (running (zeros 1) 0 [t2]) t2 53 := by
  obtain ⟨s, h, -⟩ := next_of_andThen (o := engineStep (running (zeros 1) 0 [t2])) (p := fun _ => true) (by decide +kernel)
  refine ⟨s, running_inv _ _ _ (by decide) rfl (by decide) (by simp), ⟨rfl, rfl⟩, h, fun x y hc => ?_⟩
  obtain ⟨h1, -, h3, -⟩ := hc
  have h1 : 6 ≤ x := h1
  have h3 : 6 ≤ y := h3
  show 53 ≠ y * 8 + x
  omega

theorem witness_OnlyOutOfBitsCutsAFrameShort :
    ∃ s, (running [] 0 [t8]).req = none ∧ AtTile (running [] 0 [t8]) t8 [] ∧ engineStep (running [] 0 [t8]) = .next s ∧ s.phase = .idle := by
  obtain ⟨s, h, hp⟩ := next_of_andThen (o := engineStep (running [] 0 [t8])) (p := fun s => s.phase == .idle) (by decide +kernel)
  exact ⟨s, rfl, ⟨rfl, rfl⟩, h, by simpa using hp⟩

/-- Its second clause, one bit short: T2's FILL.8 of ten bits with nine left. -/
theorem witness_TooFewBitsForTheCode :
    (running [0xA5, 0x40] 7 [t8]).req = none ∧ AtTile (running [0xA5, 0x40] 7 [t8]) t8 [] ∧ TileInFrame (running [0xA5, 0x40] 7 [t8]) t8 ∧
    (running [0xA5, 0x40] 7 [t8]).remaining = 9 ∧
    (running [0xA5, 0x40] 7 [t8]).remaining < ((running [0xA5, 0x40] 7 [t8]).fetchTile t8.size).ownBits.length :=
  ⟨rfl, ⟨rfl, rfl⟩, (corner_tiles_in_frame _ _ _).1, by decide, by decide +kernel⟩

theorem witness_EngineLeavesTheConfiguration : ∃ s, engineStep (running [0xC0] 0 [t8]) = .next s ∧ s.phase = .run := by
  obtain ⟨s, h, hp⟩ := next_of_andThen (o := engineStep (running [0xC0] 0 [t8])) (p := fun s => s.phase == .run) (by decide +kernel)
  exact ⟨s, h, by simpa using hp⟩

theorem witness_CommandsCarryTheBufferForward :
    ∃ c s, encode .readerReset = .command c ∧ (∀ w h, Instr.readerReset ≠ .streamStart w h) ∧ (∀ p, Instr.readerReset ≠ .frameBlank p) ∧
      exec .readerReset idle8 = .next s :=
  ⟨_, _, rfl, (by intro _ _ h; cases h), (by intro _ h; cases h), rfl⟩

theorem witness_IndexBufferIsNeverRead :
    ∃ t u, exec (.fill2 7) (running (zeros 2) 0 [t2]) = .next t ∧ exec (.fill2 7) { running (zeros 2) 0 [t2] with idx := [] } = .next u := by
  obtain ⟨t, ht, -⟩ := next_of_andThen (o := exec (.fill2 7) (running (zeros 2) 0 [t2])) (p := fun _ => true) (by decide +kernel)
  obtain ⟨u, hu, -⟩ :=
    next_of_andThen (o := exec (.fill2 7) { running (zeros 2) 0 [t2] with idx := [] }) (p := fun _ => true) (by decide +kernel)
  exact ⟨t, u, ht, hu⟩

/-- P1's `MASKV.2 0x40 0x41 : 10 / 01`, with no bit to spare. -/
theorem witness_MaskvDrawsThePicture :
    AtTile (running (zeros 3) 2 [t2]) t2 [] ∧ TileInFrame (running (zeros 3) 2 [t2]) t2 ∧ [[true, false], [false, true]].length = t2.size.side ∧
    (∀ row ∈ [[true, false], [false, true]], row.length = t2.size.side) ∧
    18 + t2.size.side * t2.size.side ≤ (running (zeros 3) 2 [t2]).remaining :=
  ⟨⟨rfl, rfl⟩, (corner_tiles_in_frame _ _ _).2.2, by decide, by decide, by decide⟩

/-- A tile word and a command word. -/
theorem witness_PlacedWordIsRun :
    decodeTableWord 16 0b0101010001 = some (.fill8 0x2A) ∧ decodeTableWord 8 0x4 = some (.frameComp0 []) := by decide +kernel

/-- A MASK.2 with all its bits there, and with none of its mask bits. -/
theorem witness_TileCodeMakesExactlyItsReads :
    AtTile (running (zeros 3) 2 [t2]) t2 [] ∧ TileInFrame (running (zeros 3) 2 [t2]) t2 ∧
    AtTile (running (zeros 3) 6 [t2]) t2 [] ∧ TileInFrame (running (zeros 3) 6 [t2]) t2 ∧
    encode (.mask2 1 2 3) = .tile t2.size (Instr.mask2 1 2 3).ownBits ∧
    (Instr.mask2 1 2 3).ownBits.length = (running (zeros 3) 2 [t2]).remaining :=
  ⟨⟨rfl, rfl⟩, (corner_tiles_in_frame _ _ _).2.2, ⟨rfl, rfl⟩, (corner_tiles_in_frame _ _ _).2.2, rfl, by decide⟩

/-- 95_test_vectors.md T10 and R86: the code with the most reads is SPLIT.8 over sixteen MASK.2, 117 of them in 362 bits. -/
theorem test_most_reads :
    let q4 : Quad4 := .split (.mask 1 2 3) (.mask 1 2 3) (.mask 1 2 3) (.mask 1 2 3)
    (readsOf (Quad8.split q4 q4 q4 q4).codes).length = 117 ∧ (Quad8.split q4 q4 q4 q4).len = 362 ∧
      writesOf (Quad8.split q4 q4 q4 q4).codes = 64 := by decide +kernel

end Sys2Proof.Tests
end

/-! SUPPORT. What an instruction does, said once for all the proofs below: a tile code is its body run at a tile, a read request is one read, a command is
a refusal or an effect; and one law about two runs of a body, from which its frame, its independence of STATUS and of the working registers
each follow by naming a relation. -/

namespace Sys2Proof.Machine

/-! ### The body of each instruction -/

/-- What a tile code does at its tile, as exec's arms have it. -/
def tileBody (i : Instr) (t : Tile) (s : State) : Except Trap State :=
  match i with
  | .skip8 | .skip4 | .skip2 => s.readSel 0
  | .fill8 c | .fill4 c | .fill2 c => fillTile c t s
  | .mask8 c0 c1 m => maskTile c0 c1 m t s
  | .mask4 c0 c1 m => maskTile c0 c1 m t s
  | .mask2 c0 c1 m => maskTile c0 c1 m t s
  | .split8 => splitTile .t4 t s
  | .split4 => splitTile .t2 t s
  | .raw2 p q r u => do
    let s ← s.readSel 3
    rawPixels t ((rowsDown .t2).zip [p, q, r, u]) s
  | _ => .ok s

/-- Every tile code is its body, run at a tile of its size. -/
theorem exec_tile {i : Instr} {size : TileSize} {bits : List Bool} (he : encode i = .tile size bits) (s : State) :
    exec i s = runTileCode size s (tileBody i) := by
  cases i <;> simp only [encode, Encoding.tile.injEq, reduceCtorEq] at he
  all_goals
    obtain ⟨rfl, -⟩ := he
    rfl

/-- A tile code away from a tile of its size is refused. -/
theorem runTileCode_refused {size : TileSize} {s : State} {code : Tile → State → Except Trap State}
    (h : ¬ ∃ t rest, AtTile s t rest ∧ t.size = size) : runTileCode size s code = .refused .noTileOfThisSize := by
  simp only [runTileCode]
  split
  · rename_i t rest hp ht
    exact if_neg fun hs => h ⟨t, rest, ⟨hp, ht⟩, hs⟩
  · rfl

/-- The fetched instruction is a tile code of the size asked for. -/
theorem encode_fetchTile (s : State) (size : TileSize) : ∃ bits, encode (s.fetchTile size) = .tile size bits := by
  simp only [State.fetchTile, decodeTile]
  split <;> exact ⟨_, rfl⟩

/-- One read, its answer taken by `g`. -/
def readInto (n : Nat) (g : Nat → State → State) (s : State) : Except Trap State := do
  let (v, s) ← s.bitRead n
  return g v s

/-- What a read request does at the reader, as exec's arms have it. -/
def requestBody (i : Instr) (s : State) : Except Trap State :=
  match i with
  | .rd1 => readInto 1 (fun v s => { s with mb := BitVec.ofNat 1 v }) s
  | .rd2 => readInto 2 (fun v s => { s with sel := BitVec.ofNat 2 v }) s
  | .rd8 dst => readInto 8 (fun v s => s.setByteReg dst (BitVec.ofNat 8 v)) s
  | _ => .ok s

/-- A read request is its body, or the read width that does not exist. -/
theorem exec_request {i : Instr} {r : ReadRequest} (he : encode i = .request r) :
    (∀ s, exec i s = conclude (requestBody i s)) ∨ ∀ s, exec i s = .refused .noSuchReadWidth := by
  cases i <;> simp only [encode, reduceCtorEq] at he
  case rd1 | rd2 | rd8 => exact .inl fun _ => rfl
  case rdNone => exact .inr fun _ => rfl

theorem encode_decodeRequest (r : ReadRequest) : ∃ q, encode (decodeRequest r) = .request q := by
  simp only [decodeRequest]
  split <;> exact ⟨_, rfl⟩

theorem encode_decodeCommand (c : PortCommand) : ∃ d, encode (decodeCommand c) = .command d := by
  simp only [decodeCommand]
  split <;> exact ⟨_, rfl⟩

/-! ### The commands -/

/-- What a BLANK frame of the right length leaves (42_frame_commands.md R182). -/
def blanked (s : State) : State :=
  State.finish { s with
    pos := s.pos + 8, c0 := BitVec.ofNat 8 (s.peek 8)
    idx := Memory.ofCells (s.w * s.h) fun _ => BitVec.ofNat 8 (s.peek 8) } .ok

theorem blankFrame_eq {s : State} (h : 8 ≤ s.remaining) : blankFrame s = .ok (blanked s) := by
  simp only [blankFrame, State.bitRead_ok h]
  rfl

/-- Which commands need a started stream (42_frame_commands.md R189 a). -/
def needsStream : Instr → Bool
  | .streamStart _ _ | .cmdIllegal => false
  | _ => true

/-- STREAM_START's own check of its dimensions (42_frame_commands.md R189 b). -/
def badDimensions : Instr → Option Refusal
  | .streamStart w h => if w % 8 = 0 ∧ h % 8 = 0 then none else some .dimensionNotMultipleOf8
  | _ => none

/-- Why a command is refused, if it is. -/
def commandRefusal (i : Instr) (s : State) : Option Refusal := (notAdmitted (needsStream i) s).or (badDimensions i)

/-- The next state of a command that is not refused. -/
def commandEffect (i : Instr) (s : State) : State :=
  match i with
  | .streamStart w h => (s.startStream w h).finish .ok
  | .frameComp0 p => (s.framePrologue ftypeComp0 p).finish (if comp0LengthOk p.length then .ok else .sizeViolation)
  | .frameBlank p =>
    if blankLengthOk p.length then blanked (s.framePrologue ftypeBlank p) else (s.framePrologue ftypeBlank p).finish .sizeViolation
  | .frameComp1 p => { s.framePrologue ftypeComp1 p with todo := topTiles s.w s.h }
  | .frameIllegal p => (s.framePrologue ftypeIllegal p).finish .illegal
  | .readerReset => State.finish { s with pos := 0 } .ok
  | .cmdIllegal => s.finish .illegal
  | _ => s

/-- FRAME.BLANK never runs out of bits: its one read is of the one byte it has (42_frame_commands.md R182). -/
theorem execFrameBlank_eq (p : List Byte) (s : State) :
    execFrameBlank p s = admitted true s fun s => .next (commandEffect (.frameBlank p) s) := by
  have effect : ∀ s : State, (if blankLengthOk p.length then conclude (blankFrame (s.framePrologue ftypeBlank p))
      else .next ((s.framePrologue ftypeBlank p).finish .sizeViolation)) = .next (commandEffect (.frameBlank p) s) := by
    intro s
    simp only [commandEffect]
    split
    · rename_i hl
      have hr : 8 ≤ (s.framePrologue ftypeBlank p).remaining := by
        simp only [blankLengthOk, beq_iff_eq] at hl
        simp [State.remaining, hl]
      rw [blankFrame_eq hr, conclude_ok]
    · rfl
  exact congrArg (admitted true s) (funext effect)

/-- `admitted` as the answer to its test. -/
theorem admitted_eq (b : Bool) (s : State) (f : State → Host.Outcome State Fault Refusal) :
    admitted b s f = (notAdmitted b s).elim (f s) .refused := by
  simp only [admitted]
  cases notAdmitted b s <;> rfl

/-- Every command is its effect, run where the command is admitted and STREAM_START's dimensions are in order. -/
theorem exec_command_admitted {i : Instr} {c : PortCommand} (he : encode i = .command c) (s : State) :
    exec i s = admitted (needsStream i) s fun s => (badDimensions i).elim (.next (commandEffect i s)) .refused := by
  cases i <;> simp only [encode, reduceCtorEq] at he
  case streamStart w h =>
    simp only [exec, execStreamStart, badDimensions, needsStream]
    refine congrArg _ (funext fun s => ?_)
    split <;> rfl
  case frameBlank p => exact execFrameBlank_eq p s
  all_goals rfl

/-- A command is refused, or answers its effect. -/
theorem exec_command {i : Instr} {c : PortCommand} (he : encode i = .command c) (s : State) :
    exec i s = (commandRefusal i s).elim (.next (commandEffect i s)) .refused := by
  rw [exec_command_admitted he, admitted_eq, commandRefusal]
  cases notAdmitted (needsStream i) s <;> rfl

/-- A command that answers is admitted, its dimensions are in order, and its answer is its effect. -/
theorem exec_command_next {i : Instr} {c : PortCommand} {s s' : State} (he : encode i = .command c) (h : exec i s = .next s') :
    s.phase = .idle ∧ (needsStream i = true → s.started = true) ∧ badDimensions i = none ∧ s' = commandEffect i s := by
  rw [exec_command_admitted he] at h
  obtain ⟨hp, hs, h⟩ := admitted_next h
  cases hb : badDimensions i with
  | some r => simp [hb] at h
  | none => exact ⟨hp, hs, rfl, by simpa [hb] using h.symm⟩

/-! ### Two runs of a body -/

/-- Two results of an engine operation of the same kind: both ended, in states that `Q` relates, or both ran out of bits, in states that `E`
relates, or both stopped with the same fault. -/
inductive Alike (E Q : State → State → Prop) : Except Trap State → Except Trap State → Prop where
  | ok {a b : State} : Q a b → Alike E Q (.ok a) (.ok b)
  | outOfBits {a b : State} : E a b → Alike E Q (.error (.outOfBits a)) (.error (.outOfBits b))
  | fault (f : Fault) : Alike E Q (.error (.fault f)) (.error (.fault f))

/-- One operation after another. -/
theorem Alike.bind {E R Q : State → State → Prop} {r r' : Except Trap State} {f f' : State → Except Trap State} (h : Alike E R r r')
    (hf : ∀ a b, R a b → Alike E Q (f a) (f' b)) : Alike E Q (r >>= f) (r' >>= f') := by
  cases h with
  | ok h => exact hf _ _ h
  | outOfBits h => exact .outOfBits h
  | fault f => exact .fault f

/-- The results of operations that end are related also by what that relation says. -/
theorem Alike.imp {E R Q : State → State → Prop} {r r' : Except Trap State} (h : Alike E R r r') (hQ : ∀ a b, R a b → Q a b) :
    Alike E Q r r' := by
  cases h with
  | ok h => exact .ok (hQ _ _ h)
  | outOfBits h => exact .outOfBits h
  | fault f => exact .fault f

/-- A relation between two states that the engine's small operations keep: related states agree in everything the engine looks at but the working
registers, and a move of the cursor, a write of a working register and a pixel write, made in both, leave them related. -/
structure Respected (R : State → State → Prop) : Prop where
  sees : ∀ {a b}, R a b → a.w = b.w ∧ a.h = b.h ∧ a.vlen = b.vlen ∧ a.buf = b.buf ∧ a.pos = b.pos
  move : ∀ {a b} {n : Nat}, R a b → n ≤ a.remaining → R (movedOn a n) (movedOn b n)
  setSel : ∀ {a b} (v : BitVec 2), R a b → R { a with sel := v } { b with sel := v }
  setByteReg : ∀ {a b} (r : ByteReg) (v : Byte), R a b → R (a.setByteReg r v) (b.setByteReg r v)
  setMb : ∀ {a b} (v : BitVec 1), R a b → R { a with mb := v } { b with mb := v }
  write : ∀ {a b} {x y : Nat} (v : Byte), R a b → x < a.w → y < a.h →
    R { a with idx := Memory.write (a.pix x y) v a.idx } { b with idx := Memory.write (b.pix x y) v b.idx }

/-- The tiles put to the front of TODO. -/
def State.queue (ts : List Tile) (s : State) : State := { s with todo := ts ++ s.todo }

/-- The children a tile code puts on the work list (41_tile_codes.md R150, R151). -/
def queued (i : Instr) (t : Tile) : List Tile :=
  match i with
  | .split8 => childTiles .t4 t
  | .split4 => childTiles .t2 t
  | _ => []

section
variable {R E Q : State → State → Prop} {a b : State}

theorem Respected.remaining (hR : Respected R) (h : R a b) : a.remaining = b.remaining := by
  obtain ⟨-, -, hv, -, hp⟩ := hR.sees h
  simp only [State.remaining, hv, hp]

theorem Respected.peek (hR : Respected R) (h : R a b) (n : Nat) : a.peek n = b.peek n := by
  obtain ⟨-, -, hv, hb, hp⟩ := hR.sees h
  simp only [State.peek, hv, hb, hp]

/-- One read and what its answer sets. -/
theorem Respected.read (hR : Respected R) (h : R a b) {n : Nat} {g g' : State → State}
    (hQ : R (movedOn a n) (movedOn b n) → Q (g (movedOn a n)) (g' (movedOn b n))) :
    Alike R Q (a.advance n >>= fun s => pure (g s)) (b.advance n >>= fun s => pure (g' s)) := by
  rcases State.advance_cases n a with ⟨hn, ea⟩ | ⟨hn, ea⟩
  · rw [ea, State.advance_ok (hR.remaining h ▸ hn)]
    exact .ok (hQ (hR.move h hn))
  · rw [ea, State.advance_fail (hR.remaining h ▸ hn)]
    exact .outOfBits h

theorem Respected.readSel (hR : Respected R) (h : R a b) (v : BitVec 2) : Alike R R (a.readSel v) (b.readSel v) :=
  hR.read (g := fun s => { s with sel := v }) (g' := fun s => { s with sel := v }) h (hR.setSel v)

theorem Respected.readByte (hR : Respected R) (h : R a b) (r : ByteReg) (v : Byte)
    (hQ : R (movedOn a 8) (movedOn b 8) → Q ((movedOn a 8).setByteReg r v) ((movedOn b 8).setByteReg r v)) :
    Alike R Q (a.readByte r v) (b.readByte r v) :=
  hR.read (g := State.setByteReg r v) (g' := State.setByteReg r v) h hQ

theorem Respected.readInto (hR : Respected R) (h : R a b) {n : Nat} {g : Nat → State → State}
    (hg : ∀ v {a b}, R a b → R (g v a) (g v b)) : Alike R R (Machine.readInto n g a) (Machine.readInto n g b) := by
  have e : ∀ s : State, Machine.readInto n g s = s.advance n >>= fun t => pure (g (s.peek n) t) := by
    intro s
    rcases State.advance_cases n s with ⟨-, e⟩ | ⟨-, e⟩ <;> simp [Machine.readInto, State.bitRead, e, bind, Except.bind, pure, Except.pure]
  rw [e, e, hR.peek h]
  exact hR.read h (hg _)

theorem Respected.writePixel (hR : Respected R) (h : R a b) (x y : Nat) {v v' : Byte} (hv : v = v')
    (hQ : ∀ {a' b'}, R a' b' → a' = { a with idx := a'.idx } → b' = { b with idx := b'.idx } → Q a' b') :
    Alike E Q (a.writePixel x y v) (b.writePixel x y v') := by
  obtain ⟨hw, hh, -⟩ := hR.sees h
  subst hv
  by_cases hin : x < a.w ∧ y < a.h
  · rw [State.writePixel_ok hin.1 hin.2, State.writePixel_ok (hw ▸ hin.1) (hh ▸ hin.2)]
    exact .ok (hQ (hR.write v h hin.1 hin.2) rfl rfl)
  · rw [State.writePixel, State.writePixel, if_neg hin, if_neg (hw ▸ hh ▸ hin)]
    exact .fault _

theorem Respected.paintPixels (hR : Respected R) (t : Tile) (v : Byte) (ps : List (Nat × Nat)) (h : R a b) :
    Alike R R (paintPixels t v ps a) (paintPixels t v ps b) := by
  induction ps generalizing a b with
  | nil => exact .ok h
  | cons p ps ih => exact (hR.writePixel h _ _ rfl fun h _ _ => h).bind fun _ _ h => ih h

/-- The literal loop: each pixel gets the literal just read, whatever `PX` was. -/
theorem Respected.rawPixels (hR : Respected R) (t : Tile) (ps : List ((Nat × Nat) × Byte)) (h : R a b) :
    Alike R R (rawPixels t ps a) (rawPixels t ps b) := by
  induction ps generalizing a b with
  | nil => exact .ok h
  | cons p ps ih =>
    refine Alike.bind (R := fun a b => R a b ∧ a.px = b.px) (hR.readByte h _ _ fun h => ⟨hR.setByteReg _ _ h, rfl⟩) ?_
    rintro a b ⟨h, hpx⟩
    exact (hR.writePixel h _ _ hpx fun h _ _ => h).bind fun _ _ h => ih h

/-- The mask loop, with both palette indices read. -/
theorem Respected.maskPixels (hR : Respected R) (t : Tile) (ps : List ((Nat × Nat) × Bool)) (h : R a b) (h0 : a.c0 = b.c0)
    (h1 : a.c1 = b.c1) : Alike R R (maskPixels t ps a) (maskPixels t ps b) := by
  induction ps generalizing a b with
  | nil => exact .ok h
  | cons p ps ih =>
    obtain ⟨⟨r, c⟩, bit⟩ := p
    refine Alike.bind (R := fun a b => R a b ∧ a.c0 = b.c0 ∧ a.c1 = b.c1 ∧ a.mb = b.mb)
      (hR.read (g := fun s => { s with mb := BitVec.ofBool bit }) (g' := fun s => { s with mb := BitVec.ofBool bit }) h
        fun h => ⟨hR.setMb _ h, h0, h1, rfl⟩) ?_
    rintro a b ⟨h, h0, h1, hmb⟩
    refine Alike.bind (R := fun a b => R a b ∧ a.c0 = b.c0 ∧ a.c1 = b.c1)
      (hR.writePixel h _ _ (by rw [h0, h1, hmb]) fun h ea eb => ⟨h, by rw [ea, eb]; exact ⟨h0, h1⟩⟩) ?_
    rintro a b ⟨h, h0, h1⟩
    exact ih h h0 h1

theorem Respected.fillTile (hR : Respected R) (c : Byte) (t : Tile) (h : R a b) : Alike R R (fillTile c t a) (fillTile c t b) := by
  refine (hR.readSel h 1).bind fun a b h => ?_
  refine Alike.bind (R := fun a b => R a b ∧ a.c0 = b.c0) (hR.readByte h _ _ fun h => ⟨hR.setByteReg _ _ h, rfl⟩) ?_
  rintro a b ⟨h, h0⟩
  rw [h0]
  exact hR.paintPixels t _ _ h

theorem Respected.maskTile (hR : Respected R) {n : Nat} (c0 c1 : Byte) (m : BitVec n) (t : Tile) (h : R a b) :
    Alike R R (maskTile c0 c1 m t a) (maskTile c0 c1 m t b) := by
  refine (hR.readSel h 2).bind fun a b h => ?_
  refine Alike.bind (R := fun a b => R a b ∧ a.c0 = b.c0) (hR.readByte h _ _ fun h => ⟨hR.setByteReg _ _ h, rfl⟩) ?_
  rintro a b ⟨h, h0⟩
  refine Alike.bind (R := fun a b => R a b ∧ a.c0 = b.c0 ∧ a.c1 = b.c1)
    (hR.readByte h _ _ fun h => ⟨hR.setByteReg _ _ h, h0, rfl⟩) ?_
  rintro a b ⟨h, h0, h1⟩
  exact hR.maskPixels t _ h h0 h1

theorem Respected.splitTile (hR : Respected R) (size : TileSize) (t : Tile) (h : R a b)
    (hQ : ∀ {a b}, R a b → Q (a.queue (childTiles size t)) (b.queue (childTiles size t))) :
    Alike R Q (splitTile size t a) (splitTile size t b) :=
  (hR.readSel h 3).bind fun _ _ h => .ok (hQ h)

/-- **Two runs of one tile code.**  From related states they end alike: related where they run out of bits, and where they end, related once the code's
children are queued. -/
theorem Respected.tileBody (hR : Respected R) (i : Instr) (t : Tile) (h : R a b)
    (hQ : ∀ {a b}, R a b → Q (a.queue (queued i t)) (b.queue (queued i t))) :
    Alike R Q (tileBody i t a) (tileBody i t b) := by
  cases i
  case split8 | split4 => exact hR.splitTile _ t h hQ
  all_goals refine Alike.imp ?_ fun _ _ => hQ
  case skip8 | skip4 | skip2 => exact hR.readSel h 0
  case fill8 | fill4 | fill2 => exact hR.fillTile _ t h
  case mask8 | mask4 | mask2 => exact hR.maskTile _ _ _ t h
  case raw2 => exact (hR.readSel h 3).bind fun _ _ h => hR.rawPixels t _ h
  all_goals exact .ok h

/-- Two runs of one read request end alike. -/
theorem Respected.requestBody (hR : Respected R) (i : Instr) (h : R a b) : Alike R R (requestBody i a) (requestBody i b) := by
  cases i <;> simp only [Machine.requestBody]
  case rd1 => exact hR.readInto h fun _ _ _ => hR.setMb _
  case rd2 => exact hR.readInto h fun _ _ _ => hR.setSel _
  case rd8 => exact hR.readInto h fun _ _ _ => hR.setByteReg _ _
  all_goals exact .ok h

end

end Sys2Proof.Machine

/-! SUPPORT. The frame of an engine step, and the invariant: it holds at reset and every step keeps it (O42, O43, O53, O54). -/

namespace Sys2Proof.Machine

/-! ### The frame of the engine -/

/-- What the engine's operations leave of a state `s` in a state `a`: the registers that are not theirs, a cursor that only moves forward and stays in the
payload, and an index buffer with the same cells.  TODO and the working registers are not spoken of. -/
structure EngineFrame (s a : State) : Prop where
  w : a.w = s.w
  h : a.h = s.h
  started : a.started = s.started
  ftype : a.ftype = s.ftype
  vlen : a.vlen = s.vlen
  buf : a.buf = s.buf
  status : a.status = s.status
  phase : a.phase = s.phase
  host : a.host = s.host
  req : s.req = none → a.req = none
  pos : s.pos ≤ a.pos
  posInPayload : s.pos ≤ 8 * s.vlen → a.pos ≤ 8 * a.vlen
  cells : s.idx.map Prod.fst = List.range (s.w * s.h) → a.idx.map Prod.fst = List.range (a.w * a.h)

theorem EngineFrame.refl (s : State) : EngineFrame s s := by constructor <;> simp

theorem EngineFrame.moved {s a : State} {n : Nat} (h : EngineFrame s a) (hn : n ≤ a.remaining) : EngineFrame s (movedOn a n) := by
  have hpos := h.pos
  have hin := h.posInPayload
  simp only [State.remaining] at hn
  exact { h with
    pos := by simp only [movedOn]; omega
    posInPayload := fun hs => by have := hin hs; simp only [movedOn]; omega }

theorem EngineFrame.setByteReg {s a : State} (h : EngineFrame s a) (r : ByteReg) (v : Byte) : EngineFrame s (a.setByteReg r v) := by
  cases r <;> exact { h with }

/-- A pixel write inside the frame is to a listed cell, so the cells stay the same (20_memory.md R55). -/
theorem EngineFrame.write {s a : State} {x y : Nat} (h : EngineFrame s a) (v : Byte) (hx : x < a.w) (hy : y < a.h) :
    EngineFrame s { a with idx := Memory.write (a.pix x y) v a.idx } :=
  { h with
    cells := fun hs => by
      have hk := h.cells hs
      have hmem : a.pix x y ∈ a.idx.map Prod.fst := by rw [hk]; exact List.mem_range.2 (pix_lt hx hy)
      exact (Memory.keys_write (Memory.wf_of_keys hk) hmem).trans hk }

/-- The frame as a relation of two runs: the same run twice, in the frame of `s`, with the work list as it was. -/
def framed (s a b : State) : Prop := a = b ∧ EngineFrame s a ∧ a.todo = s.todo

theorem framed_respected (s : State) : Respected (framed s) where
  sees := by rintro a _ ⟨rfl, -⟩; exact ⟨rfl, rfl, rfl, rfl, rfl⟩
  move := by rintro a _ n ⟨rfl, h, ht⟩ hn; exact ⟨rfl, h.moved hn, ht⟩
  setSel := by rintro a _ v ⟨rfl, h, ht⟩; exact ⟨rfl, { h with }, ht⟩
  setByteReg := by rintro a _ r v ⟨rfl, h, ht⟩; exact ⟨rfl, h.setByteReg r v, by simpa using ht⟩
  setMb := by rintro a _ v ⟨rfl, h, ht⟩; exact ⟨rfl, { h with }, ht⟩
  write := by rintro a _ x y v ⟨rfl, h, ht⟩ hx hy; exact ⟨rfl, h.write v hx hy, ht⟩

/-- A result compared with itself, where it is concluded with a next state: it ended there, or it ran out of bits. -/
theorem Alike.conclude_next {E Q : State → State → Prop} {r : Except Trap State} {s' : State} (h : Alike E Q r r)
    (hc : conclude r = .next s') : Q s' s' ∨ ∃ a, E a a ∧ s' = a.takeOutOfBits := by
  rcases Machine.conclude_next hc with rfl | ⟨a, rfl, rfl⟩
  · cases h with | ok h => exact .inl h
  · cases h with | outOfBits h => exact .inr ⟨a, h, rfl⟩

/-- **What a tile code can do at its tile.**  In the frame of the engine it either ends, its children in front of the tiles that wait, or takes
`OutOfBits`. -/
theorem tileCode_next {i : Instr} {s s' : State} {t : Tile} {rest : List Tile} {bits : List Bool} (hat : AtTile s t rest)
    (he : encode i = .tile t.size bits) (h : exec i s = .next s') :
    ∃ a, EngineFrame s a ∧ (s' = a ∧ a.todo = queued i t ++ rest ∨ s' = a.takeOutOfBits) := by
  obtain ⟨hp, ht⟩ := hat
  rw [exec_tile he, runTileCode_at hp ht rfl] at h
  have hs : EngineFrame s { s with todo := rest } := { EngineFrame.refl s with }
  have hrun := (framed_respected { s with todo := rest }).tileBody i t ⟨rfl, EngineFrame.refl _, rfl⟩
    (Q := fun a _ => EngineFrame { s with todo := rest } a ∧ a.todo = queued i t ++ rest)
    (by rintro a _ ⟨rfl, h, ht⟩; exact ⟨{ h with }, congrArg (queued i t ++ ·) ht⟩)
  rcases hrun.conclude_next h with ⟨ha, htodo⟩ | ⟨a, ⟨-, ha, -⟩, rfl⟩
  · exact ⟨s', { ha with }, .inl ⟨rfl, htodo⟩⟩
  · exact ⟨a, { ha with }, .inr rfl⟩

/-- **What a step of the engine can do.**  Something in its frame, or that and the end of the command. -/
theorem engineStep_next {s s' : State} (h : engineStep s = .next s') : ∃ a, EngineFrame s a ∧ (s' = a ∨ ∃ st, s' = a.finish st) := by
  simp only [engineStep] at h
  split at h
  · rename_i r hreq
    obtain ⟨q, hq⟩ := encode_decodeRequest r
    rcases exec_request hq with e | e <;> rw [e] at h
    · have hrun := (framed_respected { s with req := none }).requestBody (decodeRequest r) ⟨rfl, EngineFrame.refl _, rfl⟩
      rcases hrun.conclude_next h with ⟨-, ha, -⟩ | ⟨a, ⟨-, ha, -⟩, rfl⟩
      · exact ⟨s', { ha with req := fun _ => ha.req rfl }, .inl rfl⟩
      · exact ⟨a, { ha with req := fun _ => ha.req rfl }, .inr ⟨_, rfl⟩⟩
    · simp at h
  · split at h
    · exact ⟨s, .refl s, .inl (by simpa using h.symm)⟩
    · rename_i hp
      split at h
      · exact ⟨s, .refl s, .inr ⟨.ok, by simpa using h.symm⟩⟩
      · rename_i t rest ht
        obtain ⟨bits, hb⟩ := encode_fetchTile s t.size
        obtain ⟨a, ha, ⟨rfl, -⟩ | rfl⟩ := tileCode_next ⟨hp, ht⟩ hb h
        · exact ⟨_, ha, .inl rfl⟩
        · exact ⟨a, ha, .inr ⟨_, rfl⟩⟩

/-- Settles O53: the frame of an engine step, whose end of a command sets only STATUS, TODO and PHASE. -/
theorem engineLeavesTheConfiguration : Obligations.EngineLeavesTheConfiguration := by
  intro s s' h
  obtain ⟨a, ha, rfl | ⟨st, rfl⟩⟩ := engineStep_next h
  · exact ⟨ha.w, ha.h, ha.started, ha.ftype, ha.vlen, ha.buf, ha.host, ha.pos, fun _ => ha.status⟩
  · exact ⟨ha.w, ha.h, ha.started, ha.ftype, ha.vlen, ha.buf, ha.host, ha.pos, fun hp => by simp at hp⟩

/-! ### The tiles of the work list -/

/-- A tile that lies inside another. -/
def TileInside (c t : Tile) : Prop :=
  t.x ≤ c.x ∧ c.x + c.size.side ≤ t.x + t.size.side ∧ t.y ≤ c.y ∧ c.y + c.size.side ≤ t.y + t.size.side

theorem TileInside.inFrame {s : State} {c t : Tile} (h : TileInside c t) (ht : TileInFrame s t) : TileInFrame s c := by
  simp only [TileInside, TileInFrame] at *
  omega

theorem TileInside.apart {c t u : Tile} (h : TileInside c t) (ht : TilesApart t u) : TilesApart c u := by
  simp only [TileInside, TilesApart] at *
  omega

theorem childTiles_apart (size : TileSize) (t : Tile) : (childTiles size t).Pairwise TilesApart := by
  simp [childTiles, TilesApart]

section
variable {t : Tile} {size : TileSize} (hsize : t.size.side = 2 * size.side)
include hsize

theorem childTiles_inside : ∀ c ∈ childTiles size t, TileInside c t := by
  simp only [childTiles, List.forall_mem_cons, TileInside]
  refine ⟨?_, ?_, ?_, ?_, by simp⟩ <;> omega

/-- A tile replaced by its children: the work list's tiles still lie in the frame and apart. -/
theorem childTiles_append {s : State} {rest : List Tile} (hin : ∀ u ∈ t :: rest, TileInFrame s u) (hap : (t :: rest).Pairwise TilesApart) :
    (∀ u ∈ childTiles size t ++ rest, TileInFrame s u) ∧ (childTiles size t ++ rest).Pairwise TilesApart := by
  obtain ⟨ht, hrest⟩ := List.forall_mem_cons.1 hin
  obtain ⟨hta, hra⟩ := List.pairwise_cons.1 hap
  have inside := childTiles_inside hsize
  refine ⟨fun u hu => ?_, List.pairwise_append.2 ⟨childTiles_apart size t, hra, fun c hc u hu => (inside c hc).apart (hta u hu)⟩⟩
  rcases List.mem_append.1 hu with hc | hr
  · exact (inside u hc).inFrame ht
  · exact hrest u hr

end

/-- What a tile code queues: nothing, or its tile's children. -/
theorem queued_cases {i : Instr} {t : Tile} {bits : List Bool} (he : encode i = .tile t.size bits) :
    queued i t = [] ∨ ∃ size : TileSize, t.size.side = 2 * size.side ∧ queued i t = childTiles size t := by
  cases i
  case split8 | split4 =>
    simp only [encode, Encoding.tile.injEq] at he
    exact .inr ⟨_, by rw [← he.1]; rfl, rfl⟩
  all_goals exact .inl rfl

/-- The top-level tiles of a frame lie in it (42_frame_commands.md R183). -/
theorem topTiles_inFrame (s : State) : ∀ t ∈ topTiles s.w s.h, TileInFrame s t := by
  simp only [topTiles, List.mem_flatMap, List.mem_map, List.mem_range]
  rintro t ⟨y, hy, x, hx, rfl⟩
  simp only [TileInFrame, TileSize.side]
  omega

theorem topTiles_apart (w h : Nat) : (topTiles w h).Pairwise TilesApart := by
  have rows : ∀ y, ((List.range (w / 8)).map fun x => Tile.mk (8 * x) (8 * y) .t8).Pairwise TilesApart := by
    intro y
    refine List.pairwise_map.2 (List.pairwise_lt_range.imp fun hlt => ?_)
    simp only [TilesApart, TileSize.side]
    omega
  refine List.pairwise_flatMap.2 ⟨fun y _ => rows y, List.pairwise_lt_range.imp fun hlt => ?_⟩
  simp only [List.mem_map]
  rintro _ ⟨x, -, rfl⟩ _ ⟨x', -, rfl⟩
  simp only [TilesApart, TileSize.side]
  omega

/-! ### The invariant -/

/-- The clauses of the invariant that do not speak of a running frame: what the end of a command needs. -/
structure Settled (s : State) : Prop where
  vlenIsLength : s.vlen = s.buf.length
  posInPayload : s.pos ≤ 8 * s.vlen
  widthMultiple : s.w % 8 = 0
  heightMultiple : s.h % 8 = 0
  cells : s.idx.map Prod.fst = List.range (s.w * s.h)
  noRequest : s.req = none

theorem Inv.settled {s : State} (h : Inv s) : Settled s := { h with }

theorem Settled.of_frame {s a : State} (h : Settled s) (ha : EngineFrame s a) : Settled a where
  vlenIsLength := by rw [ha.vlen, ha.buf, h.vlenIsLength]
  posInPayload := ha.posInPayload h.posInPayload
  widthMultiple := ha.w ▸ h.widthMultiple
  heightMultiple := ha.h ▸ h.heightMultiple
  cells := ha.cells h.cells
  noRequest := ha.req h.noRequest

/-- An idle block without tiles. -/
theorem Settled.inv_of_idle {s : State} (h : Settled s) (hp : s.phase = .idle) (ht : s.todo = []) : Inv s :=
  { h with
    idleHasNoTiles := fun _ => ht
    runIsComp1 := by simp [hp]
    tilesInFrame := by simp [ht]
    tilesApart := by simp [ht]
    posEven := by simp [hp] }

/-- The end of a command (42_frame_commands.md R187). -/
theorem Settled.inv_finish {s : State} (h : Settled s) (st : Status) : Inv (s.finish st) :=
  Settled.inv_of_idle { h with } rfl rfl

theorem Settled.framePrologue {s : State} (h : Settled s) (ft : BitVec 2) (p : List Byte) : Settled (s.framePrologue ft p) :=
  { h with vlenIsLength := rfl, posInPayload := Nat.zero_le _ }

theorem Settled.startStream {s : State} (hs : Settled s) {w h : Nat} (hw : w % 8 = 0) (hh : h % 8 = 0) : Settled (s.startStream w h) where
  vlenIsLength := rfl
  posInPayload := Nat.zero_le _
  widthMultiple := hw
  heightMultiple := hh
  cells := Memory.keys_ofCells _ _
  noRequest := hs.noRequest

/-- A BLANK frame lists every cell anew (42_frame_commands.md R182). -/
theorem Settled.inv_blanked {s : State} (h : Settled s) (hpos : s.pos + 8 ≤ 8 * s.vlen) : Inv (blanked s) :=
  Settled.inv_of_idle { h with posInPayload := hpos, cells := Memory.keys_ofCells _ _ } rfl rfl

/-- Settles O42: each clause at the values of reset. -/
theorem resetMeetsTheInvariant : Obligations.ResetMeetsTheInvariant :=
  Settled.inv_of_idle ⟨rfl, Nat.zero_le _, rfl, rfl, rfl, rfl⟩ rfl rfl

/-- The invariant does not speak of what the host will do. -/
theorem Inv.setHost {s : State} (h : Inv s) (host : List HostEvent) : Inv { s with host := host } := { h with }

/-- A command keeps the invariant. -/
theorem command_inv {i : Instr} {c : PortCommand} {s s' : State} (hi : Inv s) (he : encode i = .command c) (h : exec i s = .next s') :
    Inv s' := by
  obtain ⟨-, hstarted, hdim, rfl⟩ := exec_command_next he h
  have hs := hi.settled
  cases i <;> simp only [encode, reduceCtorEq] at he
  case streamStart w ht =>
    have hwh : w % 8 = 0 ∧ ht % 8 = 0 := by simpa [badDimensions] using hdim
    exact (hs.startStream hwh.1 hwh.2).inv_finish _
  case frameComp0 p => exact (hs.framePrologue _ p).inv_finish _
  case frameBlank p =>
    simp only [commandEffect]
    split
    · rename_i hl
      have hpos : 0 + 8 ≤ 8 * p.length := by simp only [blankLengthOk, beq_iff_eq] at hl; omega
      exact (hs.framePrologue _ p).inv_blanked hpos
    · exact (hs.framePrologue _ p).inv_finish _
  case frameComp1 p =>
    exact { hs.framePrologue ftypeComp1 p with
      idleHasNoTiles := fun hp => by cases hp
      runIsComp1 := fun _ => ⟨hstarted rfl, rfl⟩
      tilesInFrame := topTiles_inFrame s
      tilesApart := topTiles_apart _ _
      posEven := fun _ => rfl }
  case frameIllegal p => exact (hs.framePrologue _ p).inv_finish _
  case readerReset => exact Settled.inv_of_idle { hs with posInPayload := Nat.zero_le _ } rfl rfl
  case cmdIllegal => exact hs.inv_finish _

/-- A tile code that does not end the frame is of even length (41_tile_codes.md R160, R153). -/
theorem tileCode_pos_even {i : Instr} {s s' : State} {t : Tile} {rest : List Tile} {bits : List Bool} (hat : AtTile s t rest)
    (he : encode i = .tile t.size bits) (h : exec i s = .next s') (hp : s'.phase = .run) (heven : s.pos % 2 = 0) : s'.pos % 2 = 0 := by
  have hsum : (codeReads i).sum % 2 = 0 := by cases i <;> simp [codeReads]
  obtain ⟨r, hr, hreads⟩ := reads_of_code hat he
  rcases conclude_next (hr.symm.trans h) with rfl | ⟨a, -, rfl⟩
  · have hpos : s'.pos = s.pos + (codeReads i).sum := hreads.1
    omega
  · simp at hp

/-- A tile code keeps the invariant. -/
theorem tileCode_inv {i : Instr} {s s' : State} {t : Tile} {rest : List Tile} {bits : List Bool} (hi : Inv s) (hat : AtTile s t rest)
    (he : encode i = .tile t.size bits) (h : exec i s = .next s') : Inv s' := by
  obtain ⟨hp, ht⟩ := hat
  obtain ⟨a, ha, ⟨rfl, htodo⟩ | rfl⟩ := tileCode_next ⟨hp, ht⟩ he h
  · have hin : ∀ u ∈ t :: rest, TileInFrame s u := ht ▸ hi.tilesInFrame
    have hap : (t :: rest).Pairwise TilesApart := ht ▸ hi.tilesApart
    have htiles : (∀ u ∈ queued i t ++ rest, TileInFrame s u) ∧ (queued i t ++ rest).Pairwise TilesApart := by
      rcases queued_cases he with hq | ⟨size, hsize, hq⟩ <;> rw [hq]
      · exact ⟨(List.forall_mem_cons.1 hin).2, (List.pairwise_cons.1 hap).2⟩
      · exact childTiles_append hsize hin hap
    have hrun := ha.phase.trans hp
    exact { hi.settled.of_frame ha with
      idleHasNoTiles := fun hidle => by simp [hrun] at hidle
      runIsComp1 := fun _ => by rw [ha.started, ha.ftype]; exact hi.runIsComp1 hp
      tilesInFrame := by rw [htodo]; simpa only [TileInFrame, ha.w, ha.h] using htiles.1
      tilesApart := by rw [htodo]; exact htiles.2
      posEven := fun _ => tileCode_pos_even ⟨hp, ht⟩ he h hrun (hi.posEven hp) }
  · exact (hi.settled.of_frame ha).inv_finish _

/-- A step of the engine keeps the invariant. -/
theorem engineStep_inv {s s' : State} (hi : Inv s) (h : engineStep s = .next s') : Inv s' := by
  simp only [engineStep, hi.noRequest] at h
  split at h
  · simp only [Host.Outcome.next.injEq] at h; exact h ▸ hi
  · rename_i hp
    split at h
    · simp only [Host.Outcome.next.injEq] at h; exact h ▸ hi.settled.inv_finish _
    · rename_i t rest ht
      obtain ⟨bits, hb⟩ := encode_fetchTile s t.size
      exact tileCode_inv hi ⟨hp, ht⟩ hb h

/-- A host read that is answered changes nothing. -/
theorem hostStep_read_next {i : HostItem} {s s' : State} (h : hostStep (.read i) s = .next s') : s' = s := by
  simp only [hostStep] at h
  split at h
  · simpa using h.symm
  · simp at h
  · simp at h

/-- What the host does keeps the invariant. -/
theorem hostStep_inv {e : HostEvent} {s s' : State} (hi : Inv s) (h : hostStep e s = .next s') : Inv s' := by
  cases e with
  | command c =>
    obtain ⟨d, hd⟩ := encode_decodeCommand c
    exact command_inv hi hd h
  | hardwareReset =>
    simp only [hostStep, Host.Outcome.next.injEq] at h
    exact h ▸ resetMeetsTheInvariant.setHost _
  | read i => exact hostStep_read_next h ▸ hi
  | write i => simp [hostStep] at h
  | pass => exact engineStep_inv hi h
  | waitIdle =>
    simp only [hostStep, Host.Outcome.next.injEq] at h
    exact h ▸ hi

/-- Settles O43: the engine's step keeps the invariant, and so does each thing the host can do. -/
theorem stepKeepsTheInvariant : Obligations.StepKeepsTheInvariant := by
  intro s s' hi h
  simp only [step, blockStep] at h
  split at h
  · exact engineStep_inv hi h
  · split at h
    · exact engineStep_inv hi h
    · exact hostStep_inv (hi.setHost _) h

/-- Settles O54: of the commands only these two have an effect that names the index buffer. -/
theorem commandsCarryTheBufferForward : Obligations.CommandsCarryTheBufferForward := by
  intro i c s s' he hstream hblank h
  obtain ⟨-, -, -, rfl⟩ := exec_command_next he h
  cases i <;> simp only [encode, reduceCtorEq] at he
  case streamStart w ht => exact absurd rfl (hstream w ht)
  case frameBlank p => exact absurd rfl (hblank p)
  all_goals exact ⟨rfl, rfl, rfl, rfl⟩

end Sys2Proof.Machine

/-! SUPPORT. What the block's behaviour does not depend on: STATUS and the working registers (O55, O57); and what the host sees of it (O41). -/

namespace Sys2Proof.Machine

/-! ### The working registers -/

theorem blankWorking_respected : Respected fun a b => blankWorking a = blankWorking b where
  sees h := ⟨(congrArg State.w h :), (congrArg State.h h :), (congrArg State.vlen h :), (congrArg State.buf h :), (congrArg State.pos h :)⟩
  move {_ _ n} h _ := congrArg (movedOn · n) h
  setSel _ h := h
  setByteReg r v h := by cases r <;> exact h
  setMb _ h := h
  write {_ _ x y} v h _ _ := congrArg (fun s : State => { s with idx := Memory.write (s.pix x y) v s.idx }) h

/-- Two results alike but for the working registers are concluded alike but for them. -/
theorem Alike.blankWorking_conclude {r r' : Except Trap State}
    (h : Alike (fun a b => blankWorking a = blankWorking b) (fun a b => blankWorking a = blankWorking b) r r') :
    mapNext blankWorking (conclude r) = mapNext blankWorking (conclude r') := by
  cases h with
  | ok h => exact congrArg Host.Outcome.next h
  | outOfBits h => exact congrArg (fun s : State => Host.Outcome.next s.takeOutOfBits) h
  | fault f => rfl

/-- A command reads none of the working registers. -/
theorem commandEffect_blankWorking (i : Instr) (s : State) :
    blankWorking (commandEffect i (blankWorking s)) = blankWorking (commandEffect i s) := by
  cases i
  case frameBlank p => simp only [commandEffect]; split <;> rfl
  all_goals rfl

/-- An instruction on two states that differ in the working registers only. -/
theorem exec_blankWorking (i : Instr) {s u : State} (h : blankWorking u = blankWorking s) :
    mapNext blankWorking (exec i u) = mapNext blankWorking (exec i s) := by
  have hphase : u.phase = s.phase := (congrArg State.phase h :)
  have htodo : u.todo = s.todo := (congrArg State.todo h :)
  cases he : encode i with
  | tile size bits =>
    rw [exec_tile he, exec_tile he]
    by_cases hat : ∃ t rest, AtTile s t rest ∧ t.size = size
    · obtain ⟨t, rest, ⟨hp, ht⟩, hs⟩ := hat
      rw [runTileCode_at hp ht hs, runTileCode_at (hphase.trans hp) (htodo.trans ht) hs]
      have h0 : blankWorking { u with todo := rest } = blankWorking { s with todo := rest } :=
        congrArg (fun s : State => { s with todo := rest }) h
      exact (blankWorking_respected.tileBody i t h0 fun h => (congrArg (State.queue (queued i t)) h :)).blankWorking_conclude
    · rw [runTileCode_refused hat, runTileCode_refused (by simpa only [AtTile, hphase, htodo] using hat)]
  | command c =>
    have hstarted : u.started = s.started := (congrArg State.started h :)
    have hrefusal : commandRefusal i u = commandRefusal i s := by simp only [commandRefusal, notAdmitted, hphase, hstarted]
    rw [exec_command he, exec_command he, hrefusal]
    cases commandRefusal i s with
    | some r => rfl
    | none =>
      refine congrArg Host.Outcome.next ?_
      rw [← commandEffect_blankWorking i u, h, commandEffect_blankWorking i s]
  | request r =>
    rcases exec_request he with e | e <;> rw [e, e]
    exact (blankWorking_respected.requestBody i h).blankWorking_conclude

/-- Settles O57: every instruction, run on two states that agree but for the working registers, answers alike but for them. -/
theorem workingRegistersAreDead : Obligations.WorkingRegistersAreDead := fun i _ _ _ _ _ _ => exec_blankWorking i rfl

/-! ### STATUS -/

/-- The state with another STATUS. -/
def setStatus (st : Status) (s : State) : State := { s with status := st }

/-- The runs of one body with two values of STATUS: they differ in it alone, and the block's phase is as `P` says. -/
def statusApart (P : Phase → Prop) (st : Status) (a b : State) : Prop := b = setStatus st a ∧ P a.phase

theorem statusApart_respected (P : Phase → Prop) (st : Status) : Respected (statusApart P st) where
  sees := by rintro a _ ⟨rfl, -⟩; exact ⟨rfl, rfl, rfl, rfl, rfl⟩
  move := by rintro a _ n ⟨rfl, h⟩ _; exact ⟨rfl, h⟩
  setSel := by rintro a _ v ⟨rfl, h⟩; exact ⟨rfl, h⟩
  setByteReg := by rintro a _ r v ⟨rfl, h⟩; cases r <;> exact ⟨rfl, h⟩
  setMb := by rintro a _ v ⟨rfl, h⟩; exact ⟨rfl, h⟩
  write := by rintro a _ x y v ⟨rfl, h⟩ _ _; exact ⟨rfl, h⟩

/-- An outcome, given for each STATUS before, is either the same for all of them, or one outcome with that STATUS left as it was; and in the second
case the block's phase after it is as `P` says. -/
def StatusRule (P : Phase → Prop) (o : Status → Host.Outcome State Fault Refusal) : Prop :=
  (∀ st st', o st = o st') ∨ ∃ r, (∀ st, o st = mapNext (setStatus st) r) ∧ ∀ t, r = .next t → P t.phase

section
variable {P : Phase → Prop}

theorem StatusRule.imp {P' : Phase → Prop} {o : Status → Host.Outcome State Fault Refusal} (h : StatusRule P o) (hP : ∀ p, P p → P' p) :
    StatusRule P' o :=
  Or.imp_right (fun ⟨r, hr, hp⟩ => ⟨r, hr, fun t ht => hP _ (hp t ht)⟩) h

/-- The same outcome whatever STATUS was. -/
theorem StatusRule.given {o : Status → Host.Outcome State Fault Refusal} {r : Host.Outcome State Fault Refusal} (h : ∀ st, o st = r) :
    StatusRule P o :=
  .inl fun st st' => (h st).trans (h st').symm

/-- STATUS left as it was. -/
theorem StatusRule.kept {o : Status → Host.Outcome State Fault Refusal} {s : State} (hP : P s.phase)
    (h : ∀ st, o st = .next (setStatus st s)) : StatusRule P o :=
  .inr ⟨.next s, h, by rintro _ ⟨rfl⟩; exact hP⟩

/-- An engine operation leaves STATUS as it was where it runs to its end; where it takes `OutOfBits`, it gives STATUS its value. -/
theorem Alike.conclude_status {st : Status} {r r' : Except Trap State} (h : Alike (statusApart P st) (statusApart P st) r r') :
    conclude r' = conclude r ∧ (∃ e, r = .error e) ∨ ∃ a, r = .ok a ∧ P a.phase ∧ conclude r' = .next (setStatus st a) := by
  cases h with
  | ok h => exact .inr ⟨_, rfl, h.2, by rw [h.1]; rfl⟩
  | outOfBits h => exact .inl ⟨by rw [h.1]; rfl, _, rfl⟩
  | fault f => exact .inl ⟨rfl, _, rfl⟩

theorem StatusRule.conclude {r : Except Trap State} {r' : Status → Except Trap State}
    (h : ∀ st, Alike (statusApart P st) (statusApart P st) r (r' st)) : StatusRule P fun st => Machine.conclude (r' st) := by
  cases r with
  | ok a =>
    have ended st : P a.phase ∧ Machine.conclude (r' st) = .next (setStatus st a) := by simpa using (h st).conclude_status
    exact .kept (ended .ok).1 fun st => (ended st).2
  | error e => exact .given fun st => by simpa using (h st).conclude_status

end

/-- The rule at a tile code: the block runs on where STATUS is left as it was. -/
theorem statusRule_tile {i : Instr} {size : TileSize} {bits : List Bool} (he : encode i = .tile size bits) (s : State) :
    StatusRule (· = s.phase) fun st => exec i (setStatus st s) := by
  simp only [exec_tile he]
  by_cases hat : ∃ t rest, AtTile s t rest ∧ t.size = size
  · obtain ⟨t, rest, ⟨hp, ht⟩, hs⟩ := hat
    have run st := runTileCode_at (s := setStatus st s) (code := tileBody i) hp ht hs
    simp only [run]
    exact .conclude fun st => (statusApart_respected _ st).tileBody i t (a := { s with todo := rest }) ⟨rfl, rfl⟩
      fun {a b} h => ⟨by rw [h.1]; rfl, h.2⟩
  · exact .given fun st => runTileCode_refused (s := setStatus st s) hat

/-- The rule at a read request. -/
theorem statusRule_request {i : Instr} {r : ReadRequest} (he : encode i = .request r) (s : State) :
    StatusRule (· = s.phase) fun st => exec i (setStatus st s) := by
  rcases exec_request he with e | e <;> simp only [e]
  · exact .conclude fun st => (statusApart_respected _ st).requestBody i (a := s) ⟨rfl, rfl⟩
  · exact .given fun _ => rfl

/-- A command that ends in its own step gives STATUS its value. -/
theorem commandEffect_setStatus {i : Instr} {c : PortCommand} (he : encode i = .command c) (hi : ∀ p, i ≠ .frameComp1 p) (st : Status)
    (s : State) : commandEffect i (setStatus st s) = commandEffect i s := by
  cases i <;> simp only [encode, reduceCtorEq] at he
  case frameComp1 p => exact absurd rfl (hi p)
  case frameBlank p => simp only [commandEffect]; split <;> rfl
  all_goals rfl

/-- The rule at a command: only COMP1 leaves STATUS as it was, and its frame then runs (42_frame_commands.md R183). -/
theorem statusRule_command {i : Instr} {c : PortCommand} (he : encode i = .command c) (s : State) :
    StatusRule (· = .run) fun st => exec i (setStatus st s) := by
  simp only [exec_command he]
  have hrefusal st : commandRefusal i (setStatus st s) = commandRefusal i s := rfl
  simp only [hrefusal]
  cases commandRefusal i s with
  | some r => exact .given fun _ => rfl
  | none =>
    by_cases hi : ∃ p, i = .frameComp1 p
    · obtain ⟨p, rfl⟩ := hi
      exact .kept (s := commandEffect (.frameComp1 p) s) rfl fun _ => rfl
    · exact .given fun st => congrArg Host.Outcome.next (commandEffect_setStatus he (not_exists.1 hi) st s)

/-- The rule at a step of the engine. -/
theorem statusRule_engineStep (s : State) : StatusRule (· = s.phase) fun st => engineStep (setStatus st s) := by
  cases hreq : s.req with
  | some r =>
    have e st : engineStep (setStatus st s) = exec (decodeRequest r) (setStatus st { s with req := none }) := by
      simp [engineStep, setStatus, hreq]
    obtain ⟨q, hq⟩ := encode_decodeRequest r
    simp only [e]
    exact statusRule_request hq { s with req := none }
  | none =>
    cases hp : s.phase with
    | idle => exact .kept hp fun st => by simp [engineStep, setStatus, hreq, hp]
    | run =>
      cases ht : s.todo with
      | nil =>
        exact .given (r := .next (s.finish .ok)) fun st => by simp [engineStep, setStatus, hreq, hp, ht, State.finish]
      | cons t rest =>
        have e st : engineStep (setStatus st s) = exec (s.fetchTile t.size) (setStatus st s) := by
          simp [engineStep, setStatus, hreq, hp, ht, State.fetchTile]
        obtain ⟨bits, hb⟩ := encode_fetchTile s t.size
        simp only [e, ← hp]
        exact statusRule_tile hb s

/-- Whether a host read is answered does not depend on STATUS. -/
theorem hostStep_read_setStatus (i : HostItem) (st : Status) (s : State) :
    hostStep (.read i) (setStatus st s) = mapNext (setStatus st) (hostStep (.read i) s) := by
  by_cases hi : i = .status
  · subst hi
    cases hp : s.phase <;> simp [hostStep, hostRead, hostValue, setStatus, hp, mapNext]
  · have hread : hostRead i (setStatus st s) = hostRead i s := by
      cases i
      case status => exact absurd rfl hi
      all_goals rfl
    simp only [hostStep, hread]
    cases hostRead i s <;> rfl

/-- The rule at an action of the host. -/
theorem statusRule_hostStep (e : HostEvent) (s : State) :
    StatusRule (fun p => (s.phase = .run ∨ ∃ c, e = .command c) → p = .run) fun st => hostStep e (setStatus st s) := by
  cases e with
  | command c =>
    obtain ⟨d, hd⟩ := encode_decodeCommand c
    exact (statusRule_command hd s).imp fun _ hp _ => hp
  | hardwareReset => exact .inl fun _ _ => rfl
  | read i =>
    refine .inr ⟨hostStep (.read i) s, fun st => hostStep_read_setStatus i st s, fun t ht => ?_⟩
    rw [hostStep_read_next ht]
    simp
  | write i => exact .inl fun _ _ => rfl
  | pass => exact (statusRule_engineStep s).imp fun p hp => by simp [hp]
  | waitIdle => exact .kept (s := s) (by simp) fun _ => rfl

/-- **The rule at a step**: STATUS is given a value that does not depend on the one before, or left as it was; and where a frame runs or a command is
issued, it is left as it was only if a frame runs after the step. -/
theorem statusRule_step (s : State) :
    StatusRule (fun p => (s.phase = .run ∨ ∃ c rest, s.host = .command c :: rest) → p = .run) fun st => step (setStatus st s) := by
  have engine := statusRule_engineStep s
  cases hh : s.host with
  | nil =>
    have e st : step (setStatus st s) = engineStep (setStatus st s) := by simp [step, blockStep, setStatus, hh]
    simp only [e]
    exact engine.imp fun p hp => by simp [hp]
  | cons ev rest =>
    by_cases hw : ev = .waitIdle ∧ s.phase = .run
    · have e st : step (setStatus st s) = engineStep (setStatus st s) := by simp [step, blockStep, setStatus, hh, hw]
      simp only [e]
      exact engine.imp fun p hp _ => hp.trans hw.2
    · have e st : step (setStatus st s) = hostStep ev (setStatus st { s with host := rest }) := by
        simp [step, blockStep, setStatus, hh, hw]
      simp only [e]
      refine (statusRule_hostStep ev { s with host := rest }).imp fun p hp hs => hp ?_
      rcases hs with hs | ⟨c, rest', hc⟩
      · exact .inl hs
      · exact .inr ⟨c, (List.cons.inj hc).1⟩

/-- Settles O55: the rule at a step, at the STATUS of the state and at the other one. -/
theorem statusIsNeverRead : Obligations.StatusIsNeverRead := by
  intro s st
  change mapNext (setStatus .ok) (step (setStatus st s)) = mapNext (setStatus .ok) (step (setStatus s.status s)) ∧
    ∀ t u, step (setStatus s.status s) = .next t → step (setStatus st s) = .next u → _
  rcases statusRule_step s with hsame | ⟨r, hr, hphase⟩
  · have hst : step (setStatus st s) = step (setStatus s.status s) := hsame st s.status
    rw [hst]
    refine ⟨rfl, fun t u ht hu => ?_⟩
    obtain rfl : t = u := by simpa [ht] using hu
    exact ⟨.inl rfl, fun _ _ => rfl⟩
  · have hkept st : step (setStatus st s) = mapNext (setStatus st) r := hr st
    rw [hkept, hkept]
    cases r with
    | fault f => exact ⟨rfl, by simp [mapNext]⟩
    | refused x => exact ⟨rfl, by simp [mapNext]⟩
    | next v =>
      refine ⟨rfl, ?_⟩
      rintro _ _ ⟨rfl⟩ ⟨rfl⟩
      refine ⟨.inr ⟨rfl, rfl⟩, fun hends hidle => ?_⟩
      have hrun : v.phase = .run := hphase v rfl hends
      exact absurd (hrun.symm.trans hidle) (by decide)

/-! ### The host's accesses -/

/-- Settles O41: BUSY is answered in any phase, the rest by `hostValue` on an idle block only. -/
theorem hostAccessRules : Obligations.HostAccessRules := by
  intro s
  have busy : hostRead .busy s = .next s.busy.toNat := by simp [hostRead, hostValue]
  have idle (hp : s.phase = .idle) (i : HostItem) : hostRead i s = hostValue i s := by simp [hostRead, hp]
  refine ⟨busy, ?_, fun hp i hi => by simp [hostRead, hp, hi], fun hp => ?_, fun i v h => ?_, fun i => ⟨_, rfl⟩⟩
  · rw [busy]
    cases hp : s.phase <;> simp [State.busy, hp]
  · simp only [idle hp]
    refine ⟨rfl, rfl, rfl, rfl, rfl, rfl, rfl, ?_, ?_, ?_, ?_, ?_, ?_, rfl, rfl, rfl⟩
    iterate 4 exact fun hs => by rw [hostValue, hs]; rfl
    · exact fun a v h => by simp [hostValue, h]
    · exact fun i v h => by simp [hostValue, h]
  · simp only [hostStep, h]

end Sys2Proof.Machine

/-! SUPPORT. What the block's two memories hold: the payload's bits, packed into bytes and read back (O5, O8), and the index buffer, written and never
read (O56). -/

namespace Sys2Proof.Machine

/-! ### The bits of the payload -/

theorem packBits_length (bits : List Bool) : (packBits bits).length = (bits.length + 7) / 8 := by simp [packBits]

/-- Byte `i` of the packed string is its field of 8 bits from `8 * i` on. -/
theorem packBits_getD {bits : List Bool} {i : Nat} (h : i < (bits.length + 7) / 8) : (packBits bits).getD i 0 = field 8 (8 * i) bits := by
  simp [packBits, List.getD_eq_getElem?_getD, h]

/-- Settles O5: a bit of a packed byte is the string's, and beyond the last byte both are 0. -/
theorem packedBitsAreReadBack : Obligations.PackedBitsAreReadBack := by
  intro bits k
  by_cases hk : k / 8 < (bits.length + 7) / 8
  · rw [bitAt, packBits_getD hk, field_getMsbD bits (by omega), Nat.div_add_mod]
  · have hbyte : (packBits bits).getD (k / 8) 0 = 0 := List.getD_eq_default _ _ (by rw [packBits_length]; omega)
    have hbit : bits.getD k false = false := List.getD_eq_default _ _ (by omega)
    rw [bitAt, hbyte, hbit]
    simp

/-- The stream's bits as the sum of 20_memory.md R52. -/
theorem streamNat_eq_sum (buf : List Byte) (pos n : Nat) :
    streamNat buf pos n = ∑ j ∈ Finset.range n, (bitAt buf (pos + j)).toNat * 2 ^ (n - 1 - j) := by
  induction n with
  | zero => rfl
  | succ n ih =>
    have hdouble : ∀ j ∈ Finset.range n,
        2 * ((bitAt buf (pos + j)).toNat * 2 ^ (n - 1 - j)) = (bitAt buf (pos + j)).toNat * 2 ^ (n + 1 - 1 - j) := by
      intro j hj
      have hexp : n + 1 - 1 - j = n - 1 - j + 1 := by have := Finset.mem_range.1 hj; omega
      rw [hexp, pow_succ]
      ring
    rw [streamNat, ih, Finset.mul_sum, Finset.sum_congr rfl hdouble, Finset.sum_range_succ]
    simp

/-- Settles O8: the peek window's value is the stream's bits at the cursor, and those are R52's sum. -/
theorem bitReadReturnsTheBits : Obligations.BitReadReturnsTheBits := by
  intro s n hn hlen hrem
  have hfit : s.pos + n ≤ 8 * s.vlen := by simp only [State.remaining] at hrem; omega
  rw [State.bitRead_ok hrem, peek_eq_streamNat hlen (by omega) hfit, streamNat_eq_sum]

/-! ### Two outcomes of one instruction -/

/-- Two outcomes of the same kind: next states that `Q` relates, or the same fault, or the same refusal. -/
inductive AlikeOutcomes (Q : State → State → Prop) : Host.Outcome State Fault Refusal → Host.Outcome State Fault Refusal → Prop where
  | next {a b : State} : Q a b → AlikeOutcomes Q (.next a) (.next b)
  | fault (f : Fault) : AlikeOutcomes Q (.fault f) (.fault f)
  | refused (r : Refusal) : AlikeOutcomes Q (.refused r) (.refused r)

/-- Results alike are concluded alike, by a relation that taking `OutOfBits` keeps. -/
theorem Alike.conclude_alike {Q : State → State → Prop} {r r' : Except Trap State} (h : Alike Q Q r r')
    (hQ : ∀ {a b}, Q a b → Q a.takeOutOfBits b.takeOutOfBits) : AlikeOutcomes Q (conclude r) (conclude r') := by
  cases h with
  | ok h => exact .next h
  | outOfBits h => exact .next (hQ h)
  | fault f => exact .fault f

section
variable {Q : State → State → Prop} {o o' : Host.Outcome State Fault Refusal}

/-- Outcomes alike are the same once their next states are seen through a function that does not tell related states apart. -/
theorem AlikeOutcomes.mapNext_eq (h : AlikeOutcomes Q o o') {f : State → State} (hf : ∀ a b, Q a b → f b = f a) :
    mapNext f o' = mapNext f o := by
  cases h with
  | next h => exact congrArg Host.Outcome.next (hf _ _ h)
  | fault f => rfl
  | refused r => rfl

theorem AlikeOutcomes.related (h : AlikeOutcomes Q o o') {a b : State} (ha : o = .next a) (hb : o' = .next b) : Q a b := by
  subst ha hb
  cases h with | next h => exact h

end

/-! ### The index buffer -/

/-- The state with other contents of the index buffer. -/
def setIdx (m : Memory) (s : State) : State := { s with idx := m }

/-- What has been written alike to two memories that held `m` and `n` at first, and hold `m'` and `n'` now: a cell holds the same in both, or what it
held at first in both. -/
def WrittenAlike (m n m' n' : Memory) : Prop :=
  ∀ a, Memory.read a n' = Memory.read a m' ∨ (Memory.read a m' = Memory.read a m ∧ Memory.read a n' = Memory.read a n)

theorem WrittenAlike.start (m n : Memory) : WrittenAlike m n m n := fun _ => .inr ⟨rfl, rfl⟩

/-- Both memories replaced by one. -/
theorem WrittenAlike.replaced (m n l : Memory) : WrittenAlike m n l l := fun _ => .inl rfl

/-- One byte written to both: its cell holds it in both, any other cell is as it was. -/
theorem WrittenAlike.write {m n m' n' : Memory} (h : WrittenAlike m n m' n') (b : Nat) (v : Byte) :
    WrittenAlike m n (Memory.write b v m') (Memory.write b v n') := by
  intro a
  by_cases hab : a = b
  · subst hab
    exact .inl (by rw [Memory.read_write_same, Memory.read_write_same])
  · rw [Memory.read_write_other v m' hab, Memory.read_write_other v n' hab]
    exact h a

/-- The runs of one body with the index buffer `m` and with `n`: they differ in it alone, and have written alike to it. -/
def idxApart (m n : Memory) (a b : State) : Prop := ∃ k, b = setIdx k a ∧ WrittenAlike m n a.idx k

theorem idxApart.start (s : State) (n : Memory) : idxApart s.idx n s (setIdx n s) := ⟨n, rfl, .start _ _⟩

theorem idxApart_respected (m n : Memory) : Respected (idxApart m n) where
  sees := by rintro a _ ⟨k, rfl, -⟩; exact ⟨rfl, rfl, rfl, rfl, rfl⟩
  move := by rintro a _ i ⟨k, rfl, h⟩ _; exact ⟨k, rfl, h⟩
  setSel := by rintro a _ v ⟨k, rfl, h⟩; exact ⟨k, rfl, h⟩
  setByteReg := by rintro a _ r v ⟨k, rfl, h⟩; cases r <;> exact ⟨k, rfl, h⟩
  setMb := by rintro a _ v ⟨k, rfl, h⟩; exact ⟨k, rfl, h⟩
  write := by rintro a _ x y v ⟨k, rfl, h⟩ _ _; exact ⟨_, rfl, h.write _ v⟩

theorem idxApart.queue {m n : Memory} {a b : State} (h : idxApart m n a b) (ts : List Tile) : idxApart m n (a.queue ts) (b.queue ts) := by
  obtain ⟨k, rfl, h⟩ := h
  exact ⟨k, rfl, h⟩

theorem idxApart.takeOutOfBits {m n : Memory} {a b : State} (h : idxApart m n a b) : idxApart m n a.takeOutOfBits b.takeOutOfBits := by
  obtain ⟨k, rfl, h⟩ := h
  exact ⟨k, rfl, h⟩

/-- A command replaces the index buffer whole or leaves it alone. -/
theorem commandEffect_idxApart (i : Instr) (s : State) (n : Memory) :
    idxApart s.idx n (commandEffect i s) (commandEffect i (setIdx n s)) := by
  cases i
  case streamStart w h => exact ⟨_, rfl, .replaced _ _ _⟩
  case frameBlank p =>
    simp only [commandEffect]
    split
    · exact ⟨_, rfl, .replaced _ _ _⟩
    · exact ⟨n, rfl, .start _ _⟩
  all_goals exact ⟨n, rfl, .start _ _⟩

/-- **An instruction with two index buffers**: its outcomes are of the same kind, and its next states differ in the index buffer alone, with the same
writes to it. -/
theorem exec_idxApart (i : Instr) (s : State) (n : Memory) : AlikeOutcomes (idxApart s.idx n) (exec i s) (exec i (setIdx n s)) := by
  have hR := idxApart_respected s.idx n
  cases he : encode i with
  | tile size bits =>
    rw [exec_tile he, exec_tile he]
    by_cases hat : ∃ t rest, AtTile s t rest ∧ t.size = size
    · obtain ⟨t, rest, ⟨hp, ht⟩, hs⟩ := hat
      rw [runTileCode_at hp ht hs, runTileCode_at (s := setIdx n s) hp ht hs]
      exact (hR.tileBody i t (idxApart.start { s with todo := rest } n) fun h => h.queue _).conclude_alike idxApart.takeOutOfBits
    · rw [runTileCode_refused hat, runTileCode_refused (s := setIdx n s) hat]
      exact .refused _
  | command c =>
    have hrefusal : commandRefusal i (setIdx n s) = commandRefusal i s := rfl
    rw [exec_command he, exec_command he, hrefusal]
    cases commandRefusal i s with
    | some r => exact .refused r
    | none => exact .next (commandEffect_idxApart i s n)
  | request r =>
    rcases exec_request he with e | e <;> rw [e, e]
    · exact (hR.requestBody i (.start s n)).conclude_alike idxApart.takeOutOfBits
    · exact .refused _

/-- Settles O56: alike outcomes are the same but for the index buffer, and the writes to it are the same. -/
theorem indexBufferIsNeverRead : Obligations.IndexBufferIsNeverRead := by
  intro i s m
  change mapNext (setIdx []) (exec i (setIdx m s)) = mapNext (setIdx []) (exec i s) ∧
    ∀ t u, exec i s = .next t → exec i (setIdx m s) = .next u → WrittenAlike s.idx m t.idx u.idx
  have hrun := exec_idxApart i s m
  refine ⟨hrun.mapNext_eq ?_, fun t u ht hu => ?_⟩
  · rintro a _ ⟨k, rfl, -⟩
    rfl
  · obtain ⟨k, rfl, hk⟩ := hrun.related ht hu
    exact hk

end Sys2Proof.Machine

/-! SUPPORT. The encodings read back: an encoded instruction, whatever bits follow it (O1 to O4), the code the payload spells (O38), and complete tile
codes, parsed (O6) and measured (O7). -/

namespace Sys2Proof

/-! ### Fields at the start of a bit string -/

/-- The selector of a bit string that starts with one. -/
theorem fieldNat_fieldBits_append {n : Nat} (v : BitVec n) (r : List Bool) : fieldNat (fieldBits v ++ r) 0 n = v.toNat := by
  rw [fieldNat_append (by simp), fieldNat_fieldBits]

/-- The word a bit string starts with. -/
theorem field_fieldBits_append {n : Nat} (v : BitVec n) (r : List Bool) : field n 0 (fieldBits v ++ r) = v :=
  field_fieldBits (l := []) v rfl

/-- A field that lies behind the word a bit string starts with. -/
theorem field_fieldBits_append_of_le {k n off : Nat} (v : BitVec k) (r : List Bool) (h : k ≤ off) :
    field n off (fieldBits v ++ r) = field n (off - k) r := by
  have hskip := fieldNat_skip (l := fieldBits v) (r := r) (off := off - k) (n := n)
  rw [fieldBits_length, Nat.add_sub_cancel' h] at hskip
  rw [field, field, hskip]

/-! ### Decoding what was encoded -/

/-- **A tile code is read back whatever follows it** (30_encoding.md R82, R84): its selector picks its row, and each operand is the field at its place. -/
theorem decodeTile_append {i : Instr} {size : TileSize} {bits : List Bool} (he : encode i = .tile size bits) (rest : List Bool) :
    decodeTile size (bits ++ rest) = i := by
  cases i <;> simp only [encode, Encoding.tile.injEq, reduceCtorEq] at he
  all_goals
    obtain ⟨rfl, rfl⟩ := he
    simp [decodeTile, fieldNat_fieldBits_append, field_fieldBits_append, field_fieldBits_append_of_le]

theorem decodeCommand_of_encode {i : Instr} {c : PortCommand} (he : encode i = .command c) : decodeCommand c = i := by
  cases i <;> simp only [encode, Encoding.command.injEq, reduceCtorEq] at he
  all_goals
    subst he
    rfl

theorem decodeRequest_of_encode {i : Instr} {r : ReadRequest} (he : encode i = .request r) : decodeRequest r = i := by
  cases i <;> simp only [encode, Encoding.request.injEq, reduceCtorEq] at he
  all_goals
    subst he
    rfl

/-- Settles O2: each of the three spaces is read back; an ill-formed operand is read back too. -/
theorem decodeOfEncode : Obligations.DecodeOfEncode := by
  intro i _
  cases he : encode i with
  | tile size bits => simpa [decode] using decodeTile_append he []
  | command c => exact decodeCommand_of_encode he
  | request r => exact decodeRequest_of_encode he

/-- Settles O3. -/
theorem decodeIgnoresWhatFollows : Obligations.DecodeIgnoresWhatFollows := fun _ _ _ rest he => decodeTile_append he rest

/-- Settles O1: the decoder evaluated at each word. -/
theorem writtenOutWordsDecode : Obligations.WrittenOutWordsDecode := ⟨rfl, rfl, rfl, rfl, rfl, rfl, rfl⟩

/-- Settles O4: the decoder evaluated at each value of `FTYPE`, with any arguments. -/
theorem commandWordCoding : Obligations.CommandWordCoding := by
  refine ⟨fun ft w h p => ?_, fun dst => ⟨rfl, rfl, rfl, rfl⟩⟩
  have values : ∀ ft : BitVec 2, ft = 0 ∨ ft = 1 ∨ ft = 2 ∨ ft = 3 := by decide
  obtain rfl | rfl | rfl | rfl := values ft <;> exact ⟨rfl, rfl, rfl, rfl⟩

end Sys2Proof

namespace Sys2Proof.Machine

/-! ### The code the payload spells -/

/-- A window of the stream that spells a bit string begins with it. -/
theorem window_eq_append {buf : List Byte} {pos n : Nat} {bits : List Bool} (hn : bits.length ≤ n)
    (hbits : ∀ k, k < bits.length → bitAt buf (pos + k) = bits.getD k false) :
    window buf pos n = bits ++ (window buf pos n).drop bits.length := by
  have hlen : (window buf pos n).length = n := by simp [window]
  have htake : (window buf pos n).take bits.length = bits := by
    refine List.ext_getElem (by simp [hlen, hn]) fun k _ hk => ?_
    have hbit := window_getD (buf := buf) (pos := pos) (show k < n by omega)
    rw [hbits k hk] at hbit
    simpa [List.getD_eq_getElem?_getD, hk, hlen, show k < n by omega] using hbit
  calc window buf pos n = (window buf pos n).take bits.length ++ (window buf pos n).drop bits.length := (List.take_append_drop _ _).symm
    _ = bits ++ (window buf pos n).drop bits.length := by rw [htake]

/-- No tile code is longer than MASK.8 (30_encoding.md R82). -/
theorem encode_length_le {i : Instr} {size : TileSize} {bits : List Bool} (he : encode i = .tile size bits) : bits.length ≤ maxOwnBits := by
  cases i <;> simp only [encode, Encoding.tile.injEq, reduceCtorEq] at he
  all_goals
    obtain ⟨-, rfl⟩ := he
    simp [maxOwnBits]

/-- Settles O38: the fetched window begins with the code's bits, and what follows them is not looked at. -/
theorem fetchReadsTheStream : Obligations.FetchReadsTheStream := by
  intro s i size bits he hbits
  rw [State.fetchTile, window_eq_append (encode_length_le he) hbits]
  exact decodeTile_append he _

/-! ### Complete tile codes, parsed -/

/-- A single code at the start of a bit string: what the decoder reads there, and what is left behind the code's `n` bits. -/
theorem decodeTile_and_drop {i : Instr} {size : TileSize} {bits : List Bool} {n : Nat} (he : encode i = .tile size bits)
    (hn : bits.length = n) (rest : List Bool) : decodeTile size (bits ++ rest) = i ∧ (bits ++ rest).drop n = rest :=
  ⟨decodeTile_append he rest, List.drop_left' hn⟩

theorem parseFour_append {α : Type} {one : List Bool → α × List Bool} {bits : α → List Bool}
    (hone : ∀ q rest, one (bits q ++ rest) = (q, rest)) (a b c d : α) (rest : List Bool) :
    parseFour one (bits a ++ (bits b ++ (bits c ++ bits d)) ++ rest) = ((a, b, c, d), rest) := by
  simp only [parseFour, List.append_assoc, hone]

theorem parse2_append (q : Quad2) (rest : List Bool) : parse2 (q.bits ++ rest) = (q, rest) := by
  cases q with
  | skip => rfl
  | fill c => simp only [parse2, Quad2.bits_fill, decodeTile_and_drop (i := .fill2 c) (n := 10) rfl (by simp) rest]
  | mask c0 c1 m => simp only [parse2, Quad2.bits_mask, decodeTile_and_drop (i := .mask2 c0 c1 m) (n := 22) rfl (by simp) rest]
  | raw p q r t => simp only [parse2, Quad2.bits_raw, decodeTile_and_drop (i := .raw2 p q r t) (n := 34) rfl (by simp) rest]

theorem parse4_append (q : Quad4) (rest : List Bool) : parse4 (q.bits ++ rest) = (q, rest) := by
  cases q with
  | skip => rfl
  | fill c => simp only [parse4, Quad4.bits_fill, decodeTile_and_drop (i := .fill4 c) (n := 10) rfl (by simp) rest]
  | mask c0 c1 m => simp only [parse4, Quad4.bits_mask, decodeTile_and_drop (i := .mask4 c0 c1 m) (n := 34) rfl (by simp) rest]
  | split a b c d =>
    have hcode := decodeTile_and_drop (i := .split4) (n := 2) rfl (by simp) (a.bits ++ (b.bits ++ (c.bits ++ d.bits)) ++ rest)
    rw [Quad4.bits_split, List.append_assoc]
    simp only [parse4, hcode, parseFour_append parse2_append]

theorem parse8_append (q : Quad8) (rest : List Bool) : parse8 (q.bits ++ rest) = (q, rest) := by
  cases q with
  | skip => rfl
  | fill c => simp only [parse8, Quad8.bits_fill, decodeTile_and_drop (i := .fill8 c) (n := 10) rfl (by simp) rest]
  | mask c0 c1 m => simp only [parse8, Quad8.bits_mask, decodeTile_and_drop (i := .mask8 c0 c1 m) (n := 82) rfl (by simp) rest]
  | split a b c d =>
    have hcode := decodeTile_and_drop (i := .split8) (n := 2) rfl (by simp) (a.bits ++ (b.bits ++ (c.bits ++ d.bits)) ++ rest)
    rw [Quad8.bits_split, List.append_assoc]
    simp only [parse8, hcode, parseFour_append parse4_append]

/-- Settles O6: at each size the selector and the operands give the code's own end, and the children are parsed one after another. -/
theorem completeCodeParses : Obligations.CompleteCodeParses := ⟨parse8_append, parse4_append, parse2_append⟩

/-! ### Complete tile codes, measured -/

/-- The measures of a list of codes that 30_encoding.md R85 and R86 speak of: it is `len` bits long, and at most `maxLen`; and it makes at most so many
reads and pixel writes and has at most so many codes. -/
structure Measured (maxLen maxReads maxCodes maxWrites : Nat) (is : List Instr) (len : Nat) : Prop where
  sum : (readsOf is).sum = len
  two_le : 2 ≤ len
  le : len ≤ maxLen
  even : len % 2 = 0
  reads : (readsOf is).length ≤ maxReads
  codes : is.length ≤ maxCodes
  writes : writesOf is ≤ maxWrites

/-- The bits of codes laid end to end are as many as their reads take (41_tile_codes.md R153). -/
theorem codeBits_length (is : List Instr) : (codeBits is).length = (readsOf is).sum := by
  induction is with
  | nil => rfl
  | cons i is ih => simp [ih, codeReads_sum]

/-- A SPLIT with its four children: two bits, one read and one code more than theirs together (30_encoding.md R85). -/
theorem Measured.split {L R C W : Nat} {i : Instr} {isA isB isC isD : List Instr} {a b c d : Nat} (hreads : codeReads i = [2])
    (hwrites : codeWrites i = 0) (ha : Measured L R C W isA a) (hb : Measured L R C W isB b) (hc : Measured L R C W isC c)
    (hd : Measured L R C W isD d) :
    Measured (2 + 4 * L) (1 + 4 * R) (1 + 4 * C) (4 * W) (i :: (isA ++ isB ++ isC ++ isD)) (2 + a + b + c + d) := by
  obtain ⟨sumA, -, leA, evenA, readsA, codesA, writesA⟩ := ha
  obtain ⟨sumB, -, leB, evenB, readsB, codesB, writesB⟩ := hb
  obtain ⟨sumC, -, leC, evenC, readsC, codesC, writesC⟩ := hc
  obtain ⟨sumD, -, leD, evenD, readsD, codesD, writesD⟩ := hd
  constructor
  case sum =>
    simp only [readsOf_cons, readsOf_append, hreads, List.sum_append, List.sum_singleton]
    omega
  case reads =>
    simp only [readsOf_cons, readsOf_append, hreads, List.length_append, List.length_singleton]
    omega
  case codes =>
    simp only [List.length_cons, List.length_append]
    omega
  case writes =>
    simp only [writesOf_cons, writesOf_append, hwrites]
    omega
  all_goals omega

theorem Quad2.measured (q : Quad2) : Measured 34 7 1 4 q.codes q.len := by
  cases q <;> constructor <;> simp [Quad2.codes, Quad2.len, codeReads, codeWrites]

theorem Quad4.measured (q : Quad4) : Measured 138 29 5 16 q.codes q.len := by
  cases q with
  | split a b c d => exact .split (i := .split4) rfl rfl a.measured b.measured c.measured d.measured
  | _ => constructor <;> simp [Quad4.codes, Quad4.len, codeReads, codeWrites]

theorem Quad8.measured (q : Quad8) : Measured 554 117 21 64 q.codes q.len := by
  cases q with
  | split a b c d => exact .split (i := .split8) rfl rfl a.measured b.measured c.measured d.measured
  | _ => constructor <;> simp [Quad8.codes, Quad8.len, codeReads, codeWrites]

theorem Quad2.codes_length (q : Quad2) : q.codes.length = 1 := by cases q <;> rfl

/-- The codes of `T` top-level tiles: `T` times as much (30_encoding.md R86). -/
theorem topCodes_measures (qs : List Quad8) :
    2 * qs.length ≤ (qs.map Quad8.len).sum ∧ (qs.map Quad8.len).sum ≤ 554 * qs.length ∧
    (readsOf (qs.flatMap Quad8.codes)).length ≤ 117 * qs.length ∧ writesOf (qs.flatMap Quad8.codes) ≤ 64 * qs.length := by
  induction qs with
  | nil => simp
  | cons q qs ih =>
    obtain ⟨-, h2, h3, -, h5, -, h7⟩ := q.measured
    simp only [List.map_cons, List.sum_cons, List.length_cons, List.flatMap_cons, readsOf_append, List.length_append, writesOf_append]
    omega

/-- Settles O7: the measures at each size, a SPLIT's from its children's. -/
theorem completeCodeLengths : Obligations.CompleteCodeLengths := by
  refine ⟨fun q => ?_, fun q => ?_, fun q => ?_, topCodes_measures⟩
  all_goals
    obtain ⟨h1, h2, h3, h4, h5, h6, h7⟩ := q.measured
    refine ⟨(codeBits_length q.codes).trans h1, h2, h3, h4, h1, h5, ?_, h7⟩
  · exact q.codes_length
  · exact h6
  · exact h6

end Sys2Proof.Machine

/-! SUPPORT. The tile codes at a tile of the frame: none faults there, and none runs elsewhere (O29, O44); and what MASKV draws (O58). -/

namespace Sys2Proof.Machine

/-- Settles O29: none of the three conditions leaves a tile of the code's size to run at. -/
theorem tileCodeNeedsItsTile : Obligations.TileCodeNeedsItsTile := by
  intro s i size bits he hnot
  rw [exec_tile he]
  refine runTileCode_refused ?_
  rintro ⟨t, rest, ⟨hrun, htodo⟩, hsize⟩
  rcases hnot with hidle | hnil | ⟨u, rest', hcons, hother⟩
  · simp [hrun] at hidle
  · simp [htodo] at hnil
  · obtain ⟨rfl, -⟩ := List.cons.inj (htodo.symm.trans hcons)
    exact hother hsize

/-! ### Tile codes never fault in the frame -/

/-- The result of an engine operation is no fault. -/
def Faultless (r : Except Trap State) : Prop := ∀ f, r ≠ .error (.fault f)

theorem Faultless.completes {r : Except Trap State} (h : Faultless r) : Completes (conclude r) := by
  match r, h with
  | .ok s, _ => exact ⟨s, rfl⟩
  | .error (.outOfBits s), _ => exact ⟨s.takeOutOfBits, rfl⟩
  | .error (.fault f), h => exact absurd rfl (h f)

/-- A read, and an operation at a tile of the frame after it. -/
theorem Faultless.bind {ns : List Nat} {s : State} {t : Tile} {r : Except Trap State} {f : State → Except Trap State} (hin : TileInFrame s t)
    (hreads : Reads ns s r) (h : Faultless r) (hf : ∀ a, TileInFrame a t → Faultless (f a)) : Faultless (r >>= f) := by
  match r, hreads, h with
  | .ok a, ⟨_, _, _, _, _, hw, hh, _⟩, _ => exact hf a (by simpa only [TileInFrame, hw, hh] using hin)
  | .error (.outOfBits a), _, _ => exact fun f hne => by cases hne
  | .error (.fault f), _, h => exact absurd rfl (h f)

theorem faultless_readSel (v : BitVec 2) (s : State) : Faultless (s.readSel v) := by
  rcases Nat.lt_or_ge s.remaining 2 with h | h
  · simp [Faultless, State.readSel_fail h]
  · simp [Faultless, State.readSel_ok h]

theorem faultless_readByte (r : ByteReg) (v : Byte) (s : State) : Faultless (s.readByte r v) := by
  rcases Nat.lt_or_ge s.remaining 8 with h | h
  · simp [Faultless, State.readByte_fail h]
  · simp [Faultless, State.readByte_ok h]

section
variable {s : State} {t : Tile} (hin : TileInFrame s t)
include hin

theorem faultless_paintPixels (v : Byte) : Faultless (paintPixels t v (rowsDown t.size) s) := by
  have hpf : PixelsInFrame s t (rowsDown t.size) := pixelsInFrame_of_tile hin.1 hin.2 fun _ h => mem_rowsDown.1 h
  simp [Faultless, paintPixels_ok hpf]

/-- The pixels of a tile in the frame, each with what is read for it. -/
theorem pixelsInFrame_zip {α : Type} {ps : List (Nat × Nat)} (hps : ∀ rc ∈ ps, rc.1 < t.size.side ∧ rc.2 < t.size.side) (vs : List α) :
    PixelsInFrame s t ((ps.zip vs).map Prod.fst) := by
  refine pixelsInFrame_of_tile hin.1 hin.2 fun rc h => ?_
  obtain ⟨p, hp, rfl⟩ := List.mem_map.1 h
  exact hps p.1 (List.of_mem_zip (b := p.2) hp).1

theorem faultless_maskPixels (bits : List Bool) : Faultless (maskPixels t ((maskOrder t.size).zip bits) s) := by
  rw [maskPixels_eq (pixelsInFrame_zip hin (fun _ => mem_maskOrder.1) bits)]
  intro f
  split <;> simp

theorem faultless_rawPixels (vs : List Byte) : Faultless (rawPixels t ((rowsDown t.size).zip vs) s) := by
  rw [rawPixels_eq (pixelsInFrame_zip hin (fun _ => mem_rowsDown.1) vs)]
  intro f
  split <;> simp

theorem faultless_fillTile (c : Byte) : Faultless (fillTile c t s) :=
  .bind hin (reads_readSel _ _) (faultless_readSel _ _) fun _ hin =>
    .bind hin (reads_readByte _ _ _) (faultless_readByte _ _ _) fun _ hin => faultless_paintPixels hin _

theorem faultless_maskTile {n : Nat} (c0 c1 : Byte) (m : BitVec n) : Faultless (maskTile c0 c1 m t s) :=
  .bind hin (reads_readSel _ _) (faultless_readSel _ _) fun _ hin =>
    .bind hin (reads_readByte _ _ _) (faultless_readByte _ _ _) fun _ hin =>
      .bind hin (reads_readByte _ _ _) (faultless_readByte _ _ _) fun _ hin => faultless_maskPixels hin _

theorem faultless_splitTile (size : TileSize) : Faultless (splitTile size t s) :=
  .bind hin (reads_readSel _ _) (faultless_readSel _ _) fun _ _ _ h => by cases h

/-- No tile code faults at a tile of its size inside the frame (20_memory.md R55). -/
theorem faultless_tileBody {i : Instr} {bits : List Bool} (he : encode i = .tile t.size bits) : Faultless (tileBody i t s) := by
  cases i <;> simp only [encode, Encoding.tile.injEq, reduceCtorEq] at he
  case skip8 | skip4 | skip2 => exact faultless_readSel 0 s
  case fill8 | fill4 | fill2 => exact faultless_fillTile hin _
  case mask8 | mask4 | mask2 => exact faultless_maskTile hin _ _ _
  case split8 | split4 => exact faultless_splitTile hin _
  case raw2 p q r u =>
    refine .bind hin (reads_readSel _ _) (faultless_readSel _ _) fun a hin => ?_
    rw [he.1]
    exact faultless_rawPixels hin _

end

theorem tileCode_completes {i : Instr} {s : State} {t : Tile} {rest : List Tile} {bits : List Bool} (hat : AtTile s t rest)
    (hin : TileInFrame s t) (he : encode i = .tile t.size bits) : Completes (exec i s) := by
  rw [exec_tile he, runTileCode_at hat.1 hat.2 rfl]
  exact (faultless_tileBody (s := { s with todo := rest }) hin he).completes

/-- Settles O44: no request waits, and the tile at the head of the work list lies in the frame. -/
theorem engineNeverStops : Obligations.EngineNeverStops := by
  intro s hi
  simp only [engineStep, hi.noRequest]
  split
  · exact ⟨s, rfl⟩
  · rename_i hrun
    split
    · exact ⟨s.finish .ok, rfl⟩
    · rename_i t rest htodo
      obtain ⟨bits, he⟩ := encode_fetchTile s t.size
      have hin : TileInFrame s t := hi.tilesInFrame t (by simp [htodo])
      exact tileCode_completes ⟨hrun, htodo⟩ hin he

/-! ### The picture MASKV draws -/

/-- Which mask bit is for the pixel at row `r`, column `c` (30_encoding.md R92). -/
def maskIndex (size : TileSize) (r c : Nat) : Nat :=
  match size with
  | .t8 => (7 - r) * 8 + c
  | .t4 => (3 - r) * 4 + c
  | .t2 => r * 2 + c

section
variable {size : TileSize} {r c : Nat} (hr : r < size.side) (hc : c < size.side)
include hr hc

theorem maskIndex_lt : maskIndex size r c < size.side * size.side := by
  cases size <;> simp only [maskIndex, TileSize.side] at * <;> omega

theorem maskOrder_maskIndex : (maskOrder size)[maskIndex size r c]? = some (r, c) := by
  have hlt := maskIndex_lt hr hc
  cases size <;> simp only [maskIndex, TileSize.side] at *
  · rw [maskOrder_get8 ⟨_, hlt⟩]
    simp only [Option.some.injEq, Prod.mk.injEq]
    omega
  · rw [maskOrder_get4 ⟨_, hlt⟩]
    simp only [Option.some.injEq, Prod.mk.injEq]
    omega
  · rw [maskOrder_get2 ⟨_, hlt⟩]
    simp only [Option.some.injEq, Prod.mk.injEq]
    omega

end

/-- A complete MASK with its bits there, from the state it leaves: each pixel has the colour its mask bit picks. -/
theorem maskTile_draws {n : Nat} {s : State} {t : Tile} {rest : List Tile} {c0 c1 : Byte} {m : BitVec n}
    (hn : n = t.size.side * t.size.side) (hin : TileInFrame s t) (hrem : 18 + n ≤ s.remaining) :
    maskTile c0 c1 m t { s with todo := rest } = .ok (maskLeft s rest t c0 c1 m n) ∧
    ∀ r c, r < t.size.side → c < t.size.side →
      (maskLeft s rest t c0 c1 m n).cell (s.pix (t.x + c) (t.y + r)) = some (if m.getMsbD (maskIndex t.size r c) then c1 else c0) := by
  refine ⟨by rw [maskTile_eq hn hin (by omega), if_pos (by omega)], fun r c hr hc => ?_⟩
  have hlt : maskIndex t.size r c < n := hn ▸ maskIndex_lt hr hc
  exact (cell_maskWrites hn hin hlt (maskOrder_maskIndex hr hc)).trans (if_pos hlt)

/-- Row `r` of a picture of equal rows laid end to end begins at bit `r * n`. -/
theorem getD_flatten {n : Nat} {rows : List (List Bool)} (hrows : ∀ row ∈ rows, row.length = n) {r c : Nat} (hr : r < rows.length)
    (hc : c < n) : rows.flatten.getD (r * n + c) false = (rows.getD r []).getD c false := by
  induction rows generalizing r with
  | nil => simp at hr
  | cons row rows ih =>
    obtain ⟨hrow, hrows⟩ := List.forall_mem_cons.1 hrows
    cases r with
    | zero => simpa using List.getD_append row rows.flatten false c (by omega)
    | succ r =>
      have hpos : (r + 1) * n + c - row.length = r * n + c := by rw [Nat.succ_mul]; omega
      have hle : row.length ≤ (r + 1) * n + c := by rw [Nat.succ_mul]; omega
      rw [List.flatten_cons, List.getD_append_right _ _ _ _ hle, hpos, List.getD_cons_succ]
      exact ih hrows (by simpa using hr)

/-- MASKV lays the picture's bit for a pixel where MASK looks for it (30_encoding.md R90, R92). -/
theorem maskvBits_getD {size : TileSize} {rows : List (List Bool)} (hlen : rows.length = size.side)
    (hrows : ∀ row ∈ rows, row.length = size.side) {r c : Nat} (hr : r < size.side) (hc : c < size.side) :
    (maskvBits size rows).getD (maskIndex size r c) false = (rows.getD r []).getD c false := by
  have up : rows.reverse.flatten.getD ((size.side - 1 - r) * size.side + c) false = (rows.getD r []).getD c false := by
    have hrow : size.side - 1 - r < rows.length := by omega
    have hback : rows.length - 1 - (size.side - 1 - r) = r := by omega
    rw [getD_flatten (by simpa using hrows) (by simpa using hrow) hc, List.getD_reverse _ hrow, hback]
  cases size
  case t8 | t4 => exact up
  case t2 => exact getD_flatten hrows (by omega) hc

/-- MASKV is the MASK of its tile's size with the picture's bits for a mask. -/
theorem exec_maskv (size : TileSize) (c0 c1 : Byte) (rows : List (List Bool)) (s : State) :
    exec (maskv size c0 c1 rows) s = runTileCode size s (maskTile c0 c1 (field (size.side * size.side) 0 (maskvBits size rows))) := by
  cases size <;> rfl

/-- Settles O58: each pixel has the colour its mask bit picks, and that bit is the picture's. -/
theorem maskvDrawsThePicture : Obligations.MaskvDrawsThePicture := by
  intro s t rest c0 c1 rows ⟨hrun, htodo⟩ hin hlen hrows hrem
  obtain ⟨hok, hcells⟩ := maskTile_draws (rest := rest) (c0 := c0) (c1 := c1)
    (m := field (t.size.side * t.size.side) 0 (maskvBits t.size rows)) rfl hin hrem
  refine ⟨_, by rw [exec_maskv, runTileCode_at hrun htodo rfl, hok, conclude_ok], fun r c hr hc => ?_⟩
  rw [hcells r c hr hc, field_getMsbD _ (maskIndex_lt hr hc), Nat.zero_add, maskvBits_getD hlen hrows hr hc]

end Sys2Proof.Machine

/-! SUPPORT. The bit reader's reads: which of the two ends a read has and what it leaves of REMAINING (O9, O10); the answers of RD1, RD2 and RD8 from
the payload's bytes (O11 to O14); splitting a read (O15); the requests that read nothing, RD.NONE and READER_RESET (O16, O35). -/

namespace Sys2Proof.Machine

/-! ### The two ends of a read -/

/-- A read is admitted iff its bits are there (40_bitreader.md R110). -/
theorem bitRead_eq_ok_iff {s t : State} {n v : Nat} :
    s.bitRead n = .ok (v, t) ↔ n ≤ s.remaining ∧ v = s.peek n ∧ t = movedOn s n := by
  rcases Nat.lt_or_ge s.remaining n with h | h
  · simp [State.bitRead_fail h, Nat.not_le.2 h]
  · simp [State.bitRead_ok h, h, movedOn, eq_comm]

/-- A read fails iff its bits are not all there, and then on the state as it was (40_bitreader.md R117). -/
theorem bitRead_eq_outOfBits_iff {s t : State} {n : Nat} : s.bitRead n = .error (.outOfBits t) ↔ s.remaining < n ∧ t = s := by
  rcases Nat.lt_or_ge s.remaining n with h | h
  · simp [State.bitRead_fail h, h, eq_comm]
  · simp [State.bitRead_ok h, Nat.not_lt.2 h]

theorem movedOn_remaining (s : State) (k : Nat) : (movedOn s k).remaining = s.remaining - k := Nat.sub_add_eq _ _ _

/-- Where `n` bits remain, `n > 0`, the cursor may move by `n`. -/
theorem pos_add_le {s : State} {n : Nat} (hn : 0 < n) (h : n ≤ s.remaining) : s.pos + n ≤ 8 * s.vlen := by
  simp only [State.remaining] at h
  omega

/-- Settles O9: a read fails iff fewer bits remain than its width, which is at least 1. -/
theorem failedReadChangesNothing : Obligations.FailedReadChangesNothing := by
  intro s n hn
  refine ⟨by simp [bitRead_eq_outOfBits_iff], fun h => ⟨?_, ?_, s.peek 1, ?_⟩, fun h => ?_, fun h => ?_⟩
  · exact State.bitRead_fail (by omega)
  · exact State.bitRead_fail (by omega)
  · exact State.bitRead_ok h.ge
  · exact State.bitRead_fail (by omega)
  · refine State.bitRead_fail ?_
    simp only [State.remaining]
    omega

/-- Reads that all succeed move the cursor by the sum of their widths, from wherever it was. -/
theorem readAll_pos {ns : List Nat} {s t : State} (h : readAll ns s = .ok t) : t.pos = s.pos + ns.sum := by
  induction ns generalizing s with
  | nil => cases h; rfl
  | cons n ns ih =>
    rcases Nat.lt_or_ge s.remaining n with hn | hn
    · rw [readAll, State.bitRead_fail hn] at h
      cases h
    · rw [readAll, State.bitRead_ok hn] at h
      rw [ih h, List.sum_cons, Nat.add_assoc]

/-- Settles O10: the two ends of a read, and an induction over the reads. -/
theorem readAccounting : Obligations.ReadAccounting := by
  refine ⟨fun s t n v _ h => ?_, fun s t n _ h => ?_, fun ns s t _ hpos h => ?_⟩
  · obtain ⟨hn, -, rfl⟩ := bitRead_eq_ok_iff.1 h
    exact ⟨movedOn_remaining s n, hn⟩
  · rw [(bitRead_eq_outOfBits_iff.1 h).2]
  · rw [readAll_pos h, hpos, Nat.zero_add]

/-! ### The stream's bits as parts of bytes -/

/-- Bits that lie in one byte are a field of that byte. -/
theorem streamNat_inByte (buf : List Byte) {pos n : Nat} (h : pos % 8 + n ≤ 8) :
    streamNat buf pos n = (buf.getD (pos / 8) 0).toNat / 2 ^ (8 - pos % 8 - n) % 2 ^ n := by
  have hshift : 8 - pos % 8 - n = 16 - (8 + pos % 8) - n := by omega
  rw [hshift]
  refine (win_field_bits (by omega) buf pos fun j hj => ?_).symm
  have hbyte : (pos + j) / 8 = pos / 8 := by omega
  have hplace : (pos + j) % 8 = pos % 8 + j := by omega
  have hexp : 15 - (8 + pos % 8 + j) = 7 - (pos % 8 + j) := by omega
  rw [bitAt, hbyte, hplace, getMsbD_toNat _ (by omega), hexp]

/-- The bits of one read are those of two reads one after the other. -/
theorem streamNat_add (buf : List Byte) (pos m n : Nat) :
    streamNat buf pos (m + n) = 2 ^ n * streamNat buf pos m + streamNat buf (pos + m) n := by
  induction n with
  | zero => simp [streamNat]
  | succ n ih =>
    rw [← Nat.add_assoc, streamNat, streamNat, ih, pow_succ, Nat.add_assoc]
    ring

/-- A whole byte at a byte boundary (40_bitreader.md R113). -/
theorem streamNat_byte_aligned (buf : List Byte) {pos : Nat} (h : pos % 8 = 0) : streamNat buf pos 8 = (buf.getD (pos / 8) 0).toNat := by
  rw [streamNat_inByte buf (by omega), h, Nat.sub_zero, Nat.sub_self, pow_zero, Nat.div_one]
  exact Nat.mod_eq_of_lt (BitVec.isLt _)

/-- Eight bits elsewhere: the low bits of one byte, then the high bits of the next (40_bitreader.md R113). -/
theorem streamNat_byte_straddling (buf : List Byte) (pos : Nat) :
    streamNat buf pos 8 = (buf.getD (pos / 8) 0).toNat % 2 ^ (8 - pos % 8) * 2 ^ (pos % 8) +
      (buf.getD (pos / 8 + 1) 0).toNat / 2 ^ (8 - pos % 8) := by
  have hsplit : 8 = 8 - pos % 8 + pos % 8 := by omega
  have hplace : (pos + (8 - pos % 8)) % 8 = 0 := by omega
  have hbyte : (pos + (8 - pos % 8)) / 8 = pos / 8 + 1 := by omega
  have hhigh : (buf.getD (pos / 8 + 1) 0).toNat / 2 ^ (8 - pos % 8) < 2 ^ (pos % 8) := by
    rw [Nat.div_lt_iff_lt_mul (by positivity), ← pow_add, Nat.add_comm (pos % 8), ← hsplit]
    exact BitVec.isLt _
  calc streamNat buf pos 8
      = 2 ^ (pos % 8) * streamNat buf pos (8 - pos % 8) + streamNat buf (pos + (8 - pos % 8)) (pos % 8) := by
        rw [← streamNat_add, ← hsplit]
    _ = _ := by
        rw [streamNat_inByte buf (n := 8 - pos % 8) (by omega), streamNat_inByte buf (n := pos % 8) (by omega), hplace, hbyte,
          Nat.sub_zero, Nat.mod_eq_of_lt hhigh, Nat.sub_self, pow_zero, Nat.div_one, Nat.mul_comm]

/-! ### RD1, RD2 and RD8 -/

section
variable {s : State} {n : Nat} {g : Nat → State → State}

/-- A request whose bits are there is served. -/
theorem conclude_readInto_ok (h : n ≤ s.remaining) : conclude (readInto n g s) = .next (g (s.peek n) (movedOn s n)) := by
  rw [readInto, State.bitRead_ok h]
  rfl

/-- A request that runs out of bits ends CORRUPTED (60_exceptions.md R204). -/
theorem conclude_readInto_fail (h : s.remaining < n) : conclude (readInto n g s) = .next s.takeOutOfBits := by
  rw [readInto, State.bitRead_fail h]
  rfl

end

/-- Where its bits are there, the value of a read is the stream's. -/
theorem peek_of_remaining {s : State} {n : Nat} (hlen : s.vlen = s.buf.length) (hpos : 0 < n) (hn : n ≤ 8) (h : n ≤ s.remaining) :
    s.peek n = streamNat s.buf s.pos n :=
  peek_eq_streamNat hlen hn (pos_add_le hpos h)

theorem exec_rd1 (s : State) : exec .rd1 s = conclude (readInto 1 (fun v s => { s with mb := BitVec.ofNat 1 v }) s) := rfl

theorem exec_rd2 (s : State) : exec .rd2 s = conclude (readInto 2 (fun v s => { s with sel := BitVec.ofNat 2 v }) s) := rfl

theorem exec_rd8 (dst : ByteReg) (s : State) :
    exec (.rd8 dst) s = conclude (readInto 8 (fun v s => s.setByteReg dst (BitVec.ofNat 8 v)) s) := rfl

/-- RD8 where its bits are there. -/
theorem exec_rd8_ok {s : State} (dst : ByteReg) (hlen : s.vlen = s.buf.length) (h : 8 ≤ s.remaining) :
    exec (.rd8 dst) s = .next ((movedOn s 8).setByteReg dst (BitVec.ofNat 8 (streamNat s.buf s.pos 8))) := by
  rw [← peek_of_remaining hlen (by decide) le_rfl h]
  exact (exec_rd8 dst s).trans (conclude_readInto_ok h)

/-- Settles O11: the one bit is a field of one byte. -/
theorem rd1ReadsOneBit : Obligations.Rd1ReadsOneBit := by
  intro s hlen hle
  refine ⟨fun h => ?_, fun h => (exec_rd1 s).trans (conclude_readInto_fail ?_)⟩
  · have hrem : 1 ≤ s.remaining := by simp only [State.remaining]; omega
    have hexp : 8 - s.pos % 8 - 1 = 7 - s.pos % 8 := Nat.sub_right_comm _ _ _
    have hbit : s.peek 1 = (s.buf.getD (s.pos / 8) 0).toNat / 2 ^ (7 - s.pos % 8) % 2 := by
      rw [peek_of_remaining hlen one_pos (by decide) hrem, streamNat_inByte _ (by omega), hexp, pow_one]
    rw [← hbit]
    exact (exec_rd1 s).trans (conclude_readInto_ok hrem)
  · simp only [State.remaining]
    omega

/-- Settles O12: the two bits of the stream, wherever the byte boundary is. -/
theorem rd2ReadsTwoBits : Obligations.Rd2ReadsTwoBits := by
  intro s hlen
  refine ⟨fun h => ?_, fun h => (exec_rd2 s).trans (conclude_readInto_fail h)⟩
  have hbits : s.peek 2 = 2 * (bitAt s.buf s.pos).toNat + (bitAt s.buf (s.pos + 1)).toNat := by
    simp [peek_of_remaining hlen two_pos (by decide) h, streamNat]
  rw [← hbits]
  exact (exec_rd2 s).trans (conclude_readInto_ok h)

/-- Settles O13: the eight bits of the stream are one byte, or the parts of two. -/
theorem rd8ReadsEightBits : Obligations.Rd8ReadsEightBits := by
  intro s dst hlen
  refine ⟨fun h haligned => ?_, fun h _ => ?_, fun h => (exec_rd8 dst s).trans (conclude_readInto_fail h)⟩
  · rw [exec_rd8_ok dst hlen h, streamNat_byte_aligned _ haligned, BitVec.ofNat_toNat, BitVec.setWidth_eq]
    rfl
  · rw [exec_rd8_ok dst hlen h, streamNat_byte_straddling]
    rfl

/-- Settles O14: the eight bits are the decoder's field of the fetched window, and the request's register alone is written. -/
theorem byteReadWritesOneRegister : Obligations.ByteReadWritesOneRegister := by
  refine ⟨fun s v => ⟨rfl, rfl, rfl⟩, fun s hlen h => ?_⟩
  have hfield : field 8 0 (window s.buf s.pos 8) = BitVec.ofNat 8 (streamNat s.buf s.pos 8) := by
    rw [field, fieldNat_window (by decide), Nat.add_zero]
  rw [hfield]
  exact ⟨exec_rd8_ok .c0 hlen h, exec_rd8_ok .c1 hlen h, exec_rd8_ok .px hlen h⟩

/-! ### Splitting a read -/

/-- One read of `m + n` bits returns what a read of `m` bits and then one of `n` return (40_bitreader.md R120), at any place `k` bits on. -/
theorem peek_movedOn_add {s : State} (k m n : Nat) (hlen : s.vlen = s.buf.length) (hwidth : m + n ≤ 8)
    (hfit : s.pos + k + (m + n) ≤ 8 * s.vlen) :
    (movedOn s k).peek (m + n) = 2 ^ n * (movedOn s k).peek m + (movedOn s (k + m)).peek n := by
  have hwhole : (movedOn s k).peek (m + n) = streamNat s.buf (s.pos + k) (m + n) := peek_eq_streamNat hlen hwidth hfit
  have hfirst : (movedOn s k).peek m = streamNat s.buf (s.pos + k) m :=
    peek_eq_streamNat hlen (by omega) (by simp only [movedOn]; omega)
  have hsecond : (movedOn s (k + m)).peek n = streamNat s.buf (s.pos + (k + m)) n :=
    peek_eq_streamNat hlen (by omega) (by simp only [movedOn]; omega)
  rw [hwhole, hfirst, hsecond, streamNat_add, Nat.add_assoc]

/-- Settles O15: two bits are split off the eight three times, and each two into one and one. -/
theorem splittingReadsReturnsTheSameBits : Obligations.SplittingReadsReturnsTheSameBits := by
  intro s hlen h
  have hfit : s.pos + 8 ≤ 8 * s.vlen := pos_add_le (by decide) h
  constructor
  · have h8 : s.peek 8 = 64 * s.peek 2 + (movedOn s 2).peek 6 := peek_movedOn_add 0 2 6 hlen (by decide) (by omega)
    have h6 : (movedOn s 2).peek 6 = 16 * (movedOn s 2).peek 2 + (movedOn s 4).peek 4 := peek_movedOn_add 2 2 4 hlen (by decide) (by omega)
    have h4 : (movedOn s 4).peek 4 = 4 * (movedOn s 4).peek 2 + (movedOn s 6).peek 2 := peek_movedOn_add 4 2 2 hlen (by decide) (by omega)
    rw [h8, h6, h4]
    ring
  · intro k hk
    have hk6 : k ≤ 6 := by
      simp only [List.mem_cons, List.not_mem_nil, or_false] at hk
      omega
    exact peek_movedOn_add k 1 1 hlen (by decide) (by omega)

/-! ### The requests that read nothing -/

/-- Settles O16: RD.NONE's meaning is the refusal. -/
theorem noOtherReadWidth : Obligations.NoOtherReadWidth := fun _ => rfl

/-- Settles O35: on an idle block in a stream READER_RESET is admitted, and its effect moves only the cursor before it ends OK. -/
theorem readerResetRewinds : Obligations.ReaderResetRewinds := by
  rintro s ⟨hidle, hstarted⟩
  have hexec : exec .readerReset s = .next (commandEffect .readerReset s) :=
    (exec_command_admitted rfl s).trans (admitted_ok hidle fun _ => hstarted)
  exact ⟨_, hexec, rfl, rfl⟩

end Sys2Proof.Machine

/-! SUPPORT. The tile codes one by one, from the whole state each leaves at its tile (O17 to O28). -/

namespace Sys2Proof.Machine

/-! ### Operand reads that run out -/

/-- Every tile code at a tile of its size is its body, with the tile off the work list (41_tile_codes.md R156). -/
theorem exec_atTile {i : Instr} {s : State} {t : Tile} {rest : List Tile} {bits : List Bool} (hat : AtTile s t rest)
    (he : encode i = .tile t.size bits) : exec i s = conclude (tileBody i t { s with todo := rest }) := by
  rw [exec_tile he, runTileCode_at hat.1 hat.2 rfl]

section
variable {s : State} {f : State → Except Trap State}

/-- A tile code that runs out at its selector has changed nothing. -/
theorem readSel_bind_fail {v : BitVec 2} (h : s.remaining < 2) : s.readSel v >>= f = .error (.outOfBits s) := by
  rw [State.readSel_fail h]; rfl

theorem readSel_bind_ok {v : BitVec 2} (h : 2 ≤ s.remaining) : s.readSel v >>= f = f { s with pos := s.pos + 2, sel := v } := by
  rw [State.readSel_ok h]; rfl

theorem readByte_bind_fail {r : ByteReg} {v : Byte} (h : s.remaining < 8) : s.readByte r v >>= f = .error (.outOfBits s) := by
  rw [State.readByte_fail h]; rfl

theorem readByte_bind_ok {r : ByteReg} {v : Byte} (h : 8 ≤ s.remaining) :
    s.readByte r v >>= f = f (State.setByteReg r v { s with pos := s.pos + 8 }) := by
  rw [State.readByte_ok h]; rfl

/-- What the selector read leaves of REMAINING. -/
theorem remaining_afterSel (s : State) (v : BitVec 2) : State.remaining { s with pos := s.pos + 2, sel := v } = s.remaining - 2 :=
  Nat.sub_add_eq _ _ _

/-- A tile code that runs out at the byte behind its selector has made the selector read and no other. -/
theorem readSel_readByte_fail {v : BitVec 2} {r : ByteReg} {c : Byte} (h2 : 2 ≤ s.remaining) (h10 : s.remaining < 10) :
    (s.readSel v >>= fun a => a.readByte r c >>= f) = .error (.outOfBits { s with pos := s.pos + 2, sel := v }) := by
  rw [readSel_bind_ok h2, readByte_bind_fail (by rw [remaining_afterSel]; omega)]

end

/-! ### SKIP -/

theorem encode_skipOf (size : TileSize) : encode (skipOf size) = .tile size [false, false] := by cases size <;> rfl

theorem tileBody_skipOf (size : TileSize) (t : Tile) (s : State) : tileBody (skipOf size) t s = s.readSel 0 := by cases size <;> rfl

/-- Settles O17: the body of SKIP is the selector read. -/
theorem skipWritesNothing : Obligations.SkipWritesNothing := by
  intro s t rest hat
  have hexec := exec_atTile hat (encode_skipOf t.size)
  rw [tileBody_skipOf] at hexec
  refine ⟨encode_skipOf t.size, fun h => ?_, fun h => ?_⟩
  · rw [hexec, State.readSel_ok (s := { s with todo := rest }) h, conclude_ok]
  · rw [hexec, State.readSel_fail (s := { s with todo := rest }) h]; rfl

/-! ### FILL -/

theorem encode_fillOf (c : Byte) (size : TileSize) : encode (fillOf c size) = .tile size ([false, true] ++ fieldBits c) := by
  cases size <;> rfl

theorem tileBody_fillOf (c : Byte) (size : TileSize) (t : Tile) (s : State) : tileBody (fillOf c size) t s = fillTile c t s := by
  cases size <;> rfl

/-- The pixel at a column and a row of a tile, where its coordinates in the frame are given. -/
theorem tileCell_sub {s : State} {t : Tile} {x y : Nat} (h : TileCovers t x y) : tileCell s.w t (y - t.y, x - t.x) = s.pix x y := by
  obtain ⟨hx, -, hy, -⟩ := h
  simp only [tileCell, State.pix]
  rw [Nat.add_sub_cancel' hx, Nat.add_sub_cancel' hy]

/-- The cells of a tile inside the frame after one byte is written to each of them, and the cells outside it. -/
theorem cell_fillWrites {s : State} {t : Tile} (c : Byte) (hin : TileInFrame s t) :
    let m := Memory.writes ((rowsDown t.size).map fun rc => (tileCell s.w t rc, c)) s.idx
    (∀ x y, TileCovers t x y → State.cell { s with idx := m } (s.pix x y) = some c) ∧
    (∀ a, OutsideTile s t a → State.cell { s with idx := m } a = s.cell a) := by
  have hpf : PixelsInFrame s t (rowsDown t.size) := pixelsInFrame_of_tile hin.1 hin.2 fun _ h => mem_rowsDown.1 h
  have hkeys : ((rowsDown t.size).map fun rc => (tileCell s.w t rc, c)).map Prod.fst = (rowsDown t.size).map (tileCell s.w t) := by
    rw [List.map_map]; rfl
  obtain ⟨hw, hh⟩ := hin
  refine ⟨fun x y hcov => ?_, fun a ho => ?_⟩
  · have hcell := tileCell_sub (s := s) hcov
    obtain ⟨hx, hx', hy, hy'⟩ := hcov
    refine cell_writes_mem (pix_lt (by omega) (by omega)) (hkeys ▸ nodup_cells hpf (nodup_rowsDown _)) ?_
    exact List.mem_map.2 ⟨(y - t.y, x - t.x), mem_rowsDown.2 (by omega), by rw [hcell]⟩
  · exact cell_writes_other (hkeys ▸ outside_notMem ho fun _ h => mem_rowsDown.1 h)

/-- Settles O18: the three ends of FILL, the complete one with its cells. -/
theorem fillPaintsItsTile : Obligations.FillPaintsItsTile := by
  intro s t rest c hat hin
  have hexec := exec_atTile hat (encode_fillOf c t.size)
  rw [tileBody_fillOf] at hexec
  refine ⟨encode_fillOf c t.size, fun h => ⟨_, ?_, cell_fillWrites c hin⟩, fun h2 h10 => ?_, fun h => ?_⟩
  · rw [hexec, fillTile_eq hin h, conclude_ok]
  · rw [hexec, fillTile, readSel_readByte_fail (s := { s with todo := rest }) h2 h10]; rfl
  · rw [hexec, fillTile, readSel_bind_fail (s := { s with todo := rest }) h]; rfl

/-! ### MASK -/

section
variable {n : Nat} {s : State} {t : Tile} {rest : List Tile} {c0 c1 : Byte} {m : BitVec n} {i : Instr} {bits : List Bool}

/-- A complete MASK of any size: the state it leaves, and the picture in it. -/
theorem exec_mask_complete (hat : AtTile s t rest) (he : encode i = .tile t.size bits) (hbody : tileBody i = maskTile c0 c1 m)
    (hn : n = t.size.side * t.size.side) (hin : TileInFrame s t) (hrem : 18 + n ≤ s.remaining) :
    ∃ mem, exec i s = .next { s with
        pos := s.pos + (18 + n), sel := 2, c0 := c0, c1 := c1, mb := BitVec.ofBool (m.getMsbD (n - 1)), todo := rest, idx := mem } ∧
      MaskPicture s t mem c0 c1 fun r c => m.getMsbD (maskIndex t.size r c) := by
  obtain ⟨hok, hcells⟩ := maskTile_draws (rest := rest) (c0 := c0) (c1 := c1) (m := m) hn hin hrem
  have hpos : n ≠ 0 := by subst hn; cases t.size <;> decide
  refine ⟨(maskLeft s rest t c0 c1 m n).idx, ?_, hcells, fun a ho => cell_maskWrites_outside hn n ho⟩
  rw [exec_atTile hat he, hbody, hok, conclude_ok]
  simp only [maskLeft, if_neg hpos, Nat.add_assoc]

/-- A MASK of any size that runs out at mask bit `j`: the state it leaves, and what is in each pixel of the tile and outside it. -/
theorem exec_mask_cut {j : Nat} (hat : AtTile s t rest) (he : encode i = .tile t.size bits) (hbody : tileBody i = maskTile c0 c1 m)
    (hn : n = t.size.side * t.size.side) (hin : TileInFrame s t) (hj : j < n) (hrem : s.remaining = 18 + j) :
    exec i s = .next (maskLeft s rest t c0 c1 m j).takeOutOfBits ∧
    (∀ k r c, k < n → (maskOrder t.size)[k]? = some (r, c) →
      State.cell { s with idx := (maskLeft s rest t c0 c1 m j).idx } (s.pix (t.x + c) (t.y + r)) =
        if k < j then some (if m.getMsbD k then c1 else c0) else s.cell (s.pix (t.x + c) (t.y + r))) ∧
    (∀ a, OutsideTile s t a → State.cell { s with idx := (maskLeft s rest t c0 c1 m j).idx } a = s.cell a) := by
  refine ⟨?_, fun k r c hk hget => cell_maskWrites hn hin hk hget, fun a ho => cell_maskWrites_outside hn j ho⟩
  have hleft : s.remaining - 18 = j := by omega
  rw [exec_atTile hat he, hbody, maskTile_eq hn hin (by omega), hleft, if_neg (by omega), conclude_outOfBits]

/-- A MASK of any size that runs out in its header (41_tile_codes.md R147, R155). -/
theorem exec_mask_header (hat : AtTile s t rest) (he : encode i = .tile t.size bits) (hbody : tileBody i = maskTile c0 c1 m) :
    (s.remaining < 2 → exec i s = .next { s with status := .corrupted, todo := [], phase := .idle }) ∧
    (2 ≤ s.remaining → s.remaining < 10 →
      exec i s = .next { s with pos := s.pos + 2, sel := 2, status := .corrupted, todo := [], phase := .idle }) ∧
    (10 ≤ s.remaining → s.remaining < 18 →
      exec i s = .next { s with pos := s.pos + 10, sel := 2, c0 := c0, status := .corrupted, todo := [], phase := .idle }) := by
  have hexec := exec_atTile hat he
  rw [hbody] at hexec
  refine ⟨fun h => ?_, fun h2 h10 => ?_, fun h10 h18 => ?_⟩
  · rw [hexec, maskTile, readSel_bind_fail (s := { s with todo := rest }) h]; rfl
  · rw [hexec, maskTile, readSel_readByte_fail (s := { s with todo := rest }) h2 h10]; rfl
  · have hsel : 2 ≤ s.remaining := by omega
    rw [hexec, maskTile, readSel_bind_ok (s := { s with todo := rest }) hsel, readByte_bind_ok, readByte_bind_fail]
    · rfl
    · simp only [State.remaining, State.setByteReg] at h18 ⊢; omega
    · simp only [State.remaining] at h10 ⊢; omega

end

/-- Settles O19: the mask index at size 8 counts the rows from the bottom. -/
theorem mask8PaintsBottomUp : Obligations.Mask8PaintsBottomUp := by
  rintro s ⟨x, y, _⟩ rest c0 c1 m hat rfl hin hrem
  exact exec_mask_complete (i := .mask8 c0 c1 m) hat rfl rfl rfl hin hrem

/-- Settles O20: the mask index at size 4 counts the rows from the bottom. -/
theorem mask4PaintsBottomUp : Obligations.Mask4PaintsBottomUp := by
  rintro s ⟨x, y, _⟩ rest c0 c1 m hat rfl hin hrem
  exact exec_mask_complete (i := .mask4 c0 c1 m) hat rfl rfl rfl hin hrem

/-- Settles O21: the mask index at size 2 counts the rows from the top. -/
theorem mask2PaintsTopDown : Obligations.Mask2PaintsTopDown := by
  rintro s ⟨x, y, _⟩ rest c0 c1 m hat rfl hin hrem
  exact exec_mask_complete (i := .mask2 c0 c1 m) hat rfl rfl rfl hin hrem

/-- Settles O22: mask bit `k` of 64 is for row `7 - k / 8`, column `k % 8`. -/
theorem mask8RunsOutPartWay : Obligations.Mask8RunsOutPartWay := by
  rintro s ⟨x, y, _⟩ rest c0 c1 m j hat rfl hin hj hrem
  obtain ⟨hexec, hcells, hout⟩ := exec_mask_cut (i := .mask8 c0 c1 m) hat rfl rfl rfl hin hj hrem
  exact ⟨_, hexec, fun k hk => hcells k _ _ hk (maskOrder_get8 ⟨k, hk⟩), hout⟩

/-- Settles O23: mask bit `k` of 16 is for row `3 - k / 4`, column `k % 4`. -/
theorem mask4RunsOutPartWay : Obligations.Mask4RunsOutPartWay := by
  rintro s ⟨x, y, _⟩ rest c0 c1 m j hat rfl hin hj hrem
  obtain ⟨hexec, hcells, hout⟩ := exec_mask_cut (i := .mask4 c0 c1 m) hat rfl rfl rfl hin hj hrem
  exact ⟨_, hexec, fun k hk => hcells k _ _ hk (maskOrder_get4 ⟨k, hk⟩), hout⟩

/-- Settles O24: mask bit `k` of 4 is for row `k / 2`, column `k % 2`. -/
theorem mask2RunsOutPartWay : Obligations.Mask2RunsOutPartWay := by
  rintro s ⟨x, y, _⟩ rest c0 c1 m j hat rfl hin hj hrem
  obtain ⟨hexec, hcells, hout⟩ := exec_mask_cut (i := .mask2 c0 c1 m) hat rfl rfl rfl hin hj hrem
  exact ⟨_, hexec, fun k hk => hcells k _ _ hk (maskOrder_get2 ⟨k, hk⟩), hout⟩

/-- Settles O25: the header is the same at each size. -/
theorem maskRunsOutInItsHeader : Obligations.MaskRunsOutInItsHeader := by
  intro s t rest c0 c1 m8 m4 m2 i hat hi
  rcases hi with ⟨hsize, rfl⟩ | ⟨hsize, rfl⟩ | ⟨hsize, rfl⟩
  · exact exec_mask_header (m := m8) hat (by rw [hsize]; rfl) rfl
  · exact exec_mask_header (m := m4) hat (by rw [hsize]; rfl) rfl
  · exact exec_mask_header (m := m2) hat (by rw [hsize]; rfl) rfl

/-! ### SPLIT -/

/-- A SPLIT with its two bits there queues the children, and one without them ends the frame. -/
theorem conclude_splitTile (size : TileSize) (t : Tile) (s : State) (rest : List Tile) :
    (2 ≤ s.remaining → conclude (splitTile size t { s with todo := rest }) =
      .next { s with pos := s.pos + 2, sel := 3, todo := childTiles size t ++ rest }) ∧
    (s.remaining < 2 → conclude (splitTile size t { s with todo := rest }) =
      .next { s with status := .corrupted, todo := [], phase := .idle }) := by
  refine ⟨fun h => ?_, fun h => ?_⟩
  · rw [splitTile, readSel_bind_ok (s := { s with todo := rest }) h]; rfl
  · rw [splitTile, readSel_bind_fail (s := { s with todo := rest }) h]; rfl

/-- Settles O26: the children of a tile, and the two ends of SPLIT. -/
theorem splitQueuesItsChildren : Obligations.SplitQueuesItsChildren := by
  intro s x y rest
  have split8 := conclude_splitTile .t4 ⟨x, y, .t8⟩ s rest
  have split4 := conclude_splitTile .t2 ⟨x, y, .t4⟩ s rest
  have at8 : AtTile s ⟨x, y, .t8⟩ rest → _ := fun hat => exec_atTile (i := .split8) hat rfl
  have at4 : AtTile s ⟨x, y, .t4⟩ rest → _ := fun hat => exec_atTile (i := .split4) hat rfl
  exact ⟨fun hat h => (at8 hat).trans (split8.1 h), fun hat h => (at4 hat).trans (split4.1 h),
    fun hat h => (at8 hat).trans (split8.2 h), fun hat h => (at4 hat).trans (split4.2 h)⟩


/-! ### RAW.2 -/

/-- The writes of the first `k` literals of a RAW.2 at a tile. -/
def rawWrites (w : Nat) (t : Tile) (vs : List Byte) (k : Nat) : List (Nat × Byte) :=
  (((rowsDown .t2).zip vs).take k).map fun p => (tileCell w t p.1, p.2)

/-- What a RAW.2 leaves that got its selector and `k` literals. -/
def rawLeft (s : State) (rest : List Tile) (t : Tile) (vs : List Byte) (k : Nat) : State :=
  { s with
    pos := s.pos + 2 + 8 * k, sel := 3, px := (s.px :: vs).getD k 0, todo := rest
    idx := Memory.writes (rawWrites s.w t vs k) s.idx }

section
variable {s : State} {t : Tile} {rest : List Tile} {vs : List Byte} (hsize : t.size = .t2) (hin : TileInFrame s t)
include hsize hin

theorem rowsDown_inFrame : PixelsInFrame s t (rowsDown .t2) :=
  pixelsInFrame_of_tile hin.1 hin.2 fun _ h => by rw [hsize]; exact mem_rowsDown.1 h

omit hsize hin in
/-- What the loop leaves after `k` literals, from the state behind the selector. -/
theorem rawAfter_eq_rawLeft (hvs : vs.length = 4) {k : Nat} (hk : k ≤ 4) :
    rawAfter t (((rowsDown .t2).zip vs).take k) { s with pos := s.pos + 2, sel := 3, todo := rest } = rawLeft s rest t vs k := by
  obtain ⟨a, b, c, d, rfl⟩ : ∃ a b c d, vs = [a, b, c, d] := by
    match vs, hvs with
    | [a, b, c, d], _ => exact ⟨a, b, c, d, rfl⟩
  interval_cases k <;> rfl

/-- RAW.2 with its selector there (41_tile_codes.md R152, R155): it runs to its end or to the last whole literal there is. -/
theorem rawTile_eq (hvs : vs.length = 4) (hrem : 2 ≤ s.remaining) :
    (State.readSel 3 { s with todo := rest } >>= rawPixels t ((rowsDown .t2).zip vs)) =
      if 34 ≤ s.remaining then .ok (rawLeft s rest t vs 4) else .error (.outOfBits (rawLeft s rest t vs ((s.remaining - 2) / 8))) := by
  have hz : ((rowsDown .t2).zip vs).length = 4 := by rw [List.length_zip, hvs]; rfl
  have hpf : PixelsInFrame s t (((rowsDown .t2).zip vs).map Prod.fst) :=
    pixelsInFrame_zip hin (fun _ h => by rw [hsize]; exact mem_rowsDown.1 h) vs
  rw [readSel_bind_ok (s := { s with todo := rest }) hrem, rawPixels_eq (by exact hpf), hz, remaining_afterSel,
    ← rawAfter_eq_rawLeft hvs le_rfl, List.take_of_length_le (Nat.le_of_eq hz)]
  by_cases h : 34 ≤ s.remaining
  · exact (if_pos (show 8 * 4 ≤ s.remaining - 2 by omega)).trans (if_pos h).symm
  · rw [← rawAfter_eq_rawLeft hvs (show (s.remaining - 2) / 8 ≤ 4 by omega)]
    exact (if_neg (show ¬ 8 * 4 ≤ s.remaining - 2 by omega)).trans (if_neg h).symm

omit hsize hin in
/-- The writes of the first `k` literals name the cells of the first `k` pixels. -/
theorem rawWrites_cells (w : Nat) (hvs : vs.length = 4) (k : Nat) :
    (rawWrites w t vs k).map Prod.fst = ((rowsDown .t2).map (tileCell w t)).take k := by
  have hfst : ((rowsDown .t2).zip vs).map Prod.fst = rowsDown .t2 := List.map_fst_zip (hvs ▸ le_rfl)
  calc (rawWrites w t vs k).map Prod.fst = (((rowsDown .t2).zip vs).map (tileCell w t ∘ Prod.fst)).take k := by
        rw [rawWrites, List.map_map, ← List.map_take]; rfl
    _ = ((rowsDown .t2).map (tileCell w t)).take k := by rw [← List.map_map, hfst]

/-- After the first `k` literals the pixel of literal `i` holds it if `i < k`, else what it held. -/
theorem cell_rawWrites {k i r c : Nat} {v : Byte} (hvs : vs.length = 4) (hget : (rowsDown .t2)[i]? = some (r, c))
    (hv : vs[i]? = some v) :
    State.cell { s with idx := Memory.writes (rawWrites s.w t vs k) s.idx } (s.pix (t.x + c) (t.y + r)) =
      if i < k then some v else s.cell (s.pix (t.x + c) (t.y + r)) := by
  have hpf := rowsDown_inFrame hsize hin
  have hnd : ((rowsDown .t2).map (tileCell s.w t)).Nodup := nodup_cells hpf (nodup_rowsDown _)
  have hcell : ((rowsDown .t2).map (tileCell s.w t))[i]? = some (s.pix (t.x + c) (t.y + r)) := by
    rw [List.getElem?_map, hget]; rfl
  split
  · rename_i hik
    obtain ⟨hx, hy⟩ := hpf (r, c) (List.mem_of_getElem? hget)
    refine cell_writes_mem (pix_lt hx hy) (rawWrites_cells s.w hvs k ▸ hnd.sublist (List.take_sublist _ _)) ?_
    refine List.mem_map.2 ⟨((r, c), v), List.mem_of_getElem? (i := i) ?_, rfl⟩
    rw [List.getElem?_take_of_lt hik, List.getElem?_zip_eq_some]
    exact ⟨hget, hv⟩
  · rename_i hik
    refine cell_writes_other fun hmem => ?_
    rw [rawWrites_cells s.w hvs k] at hmem
    have hdrop : s.pix (t.x + c) (t.y + r) ∈ ((rowsDown .t2).map (tileCell s.w t)).drop k := by
      refine List.mem_of_getElem? (i := i - k) ?_
      rw [List.getElem?_drop, Nat.add_sub_cancel' (by omega), hcell]
    exact List.disjoint_take_drop hnd le_rfl hmem hdrop

omit hin in
theorem cell_rawWrites_outside (hvs : vs.length = 4) (k : Nat) {a : Nat} (ho : OutsideTile s t a) :
    State.cell { s with idx := Memory.writes (rawWrites s.w t vs k) s.idx } a = s.cell a := by
  refine cell_writes_other fun hmem => ?_
  rw [rawWrites_cells s.w hvs k] at hmem
  refine outside_notMem ho (fun rc h => ?_) (List.mem_of_mem_take hmem)
  rw [hsize]
  exact mem_rowsDown.1 h

end

/-- Which pixel literal `i` is for (30_encoding.md R93). -/
theorem rowsDown_get2 : ∀ i : Fin 4, (rowsDown .t2)[i.val]? = some (i.val / 2, i.val % 2) := by decide

/-- Settles O27: with four literals there the loop runs to its end. -/
theorem raw2WritesFourLiterals : Obligations.Raw2WritesFourLiterals := by
  intro s t rest p q r u hat hsize hin hrem
  have cells (i : Fin 4) {v : Byte} (hv : [p, q, r, u][i.val]? = some v) :=
    (cell_rawWrites (s := s) (k := 4) hsize hin rfl (rowsDown_get2 i) hv).trans (if_pos i.isLt)
  refine ⟨(rawLeft s rest t [p, q, r, u] 4).idx, ?_, ?_⟩
  · rw [exec_atTile (i := .raw2 p q r u) hat (by rw [hsize]; rfl)]
    exact congrArg conclude ((rawTile_eq hsize hin rfl (by omega)).trans (if_pos hrem))
  · exact ⟨cells 0 rfl, cells 1 rfl, cells 2 rfl, cells 3 rfl, fun a ho => cell_rawWrites_outside hsize rfl 4 ho⟩

/-- Settles O28: the loop runs to the last whole literal there is. -/
theorem raw2RunsOutPartWay : Obligations.Raw2RunsOutPartWay := by
  intro s t rest v hat hsize hin
  have hexec := exec_atTile (i := .raw2 (v 0) (v 1) (v 2) (v 3)) hat (by rw [hsize]; rfl)
  refine ⟨fun h => ?_, fun k hk hlow hhigh => ?_⟩
  · exact hexec.trans (congrArg conclude (readSel_bind_fail (s := { s with todo := rest }) h))
  · have hleft : (s.remaining - 2) / 8 = k := by omega
    have hcut := (rawTile_eq (rest := rest) (vs := [v 0, v 1, v 2, v 3]) hsize hin rfl (by omega)).trans (if_neg (by omega))
    rw [hleft] at hcut
    refine ⟨(rawLeft s rest t [v 0, v 1, v 2, v 3] k).idx, ?_, fun i => ?_, fun a ho => cell_rawWrites_outside hsize rfl k ho⟩
    · have hpx : [s.px, v 0, v 1, v 2].getD k 0 = [s.px, v 0, v 1, v 2, v 3].getD k 0 := by interval_cases k <;> rfl
      rw [hpx]
      exact hexec.trans (congrArg conclude hcut)
    · exact cell_rawWrites hsize hin rfl (rowsDown_get2 i) (by fin_cases i <;> rfl)

end Sys2Proof.Machine

/-! SUPPORT. The work of a tile code, whatever is left of the payload: its reads and its pixel writes (O60), so that it writes only its own tile (O51) and the
frame is cut short exactly where the bits run out (O52). -/

namespace Sys2Proof.Machine

/-! ### The pixel writes of a tile code -/

/-- An operation that writes these pixels of a tile, in order, from the state `s`: all of them where it ends, some first ones of them where it raises
`OutOfBits`. -/
def WritesPixels (t : Tile) (ps : List (Nat × Nat)) (s : State) : Except Trap State → Prop
  | .ok a => a.w = s.w ∧ ∃ l, a.idx = Memory.writes l s.idx ∧ l.map Prod.fst = ps.map (tileCell s.w t)
  | .error (.outOfBits a) => ∃ l, a.idx = Memory.writes l s.idx ∧ l.map Prod.fst <+: ps.map (tileCell s.w t)
  | .error (.fault _) => True

theorem Memory.writes_append (l k : List (Nat × Byte)) (m : Memory) : Memory.writes (l ++ k) m = Memory.writes k (Memory.writes l m) :=
  List.foldl_append

/-- One operation after another. -/
theorem WritesPixels.bind {t : Tile} {ps qs : List (Nat × Nat)} {s : State} {r : Except Trap State} {f : State → Except Trap State}
    (h : WritesPixels t ps s r) (hf : ∀ a, WritesPixels t qs a (f a)) : WritesPixels t (ps ++ qs) s (r >>= f) := by
  match r, h with
  | .error (.fault _), _ => trivial
  | .error (.outOfBits a), ⟨l, hidx, hpre⟩ =>
    exact ⟨l, hidx, List.map_append ▸ hpre.trans (List.prefix_append _ _)⟩
  | .ok a, ⟨hw, l, hidx, hl⟩ =>
    have g := hf a
    show WritesPixels t (ps ++ qs) s (f a)
    match f a, g with
    | .error (.fault _), _ => trivial
    | .error (.outOfBits b), ⟨k, hk, hpre⟩ =>
      refine ⟨l ++ k, by rw [hk, hidx, Memory.writes_append], ?_⟩
      rw [List.map_append, List.map_append, hl]
      exact (List.prefix_append_right_inj _).2 (hw ▸ hpre)
    | .ok b, ⟨hwb, k, hk, hkl⟩ =>
      exact ⟨hwb.trans hw, l ++ k, by rw [hk, hidx, Memory.writes_append], by rw [List.map_append, List.map_append, hl, hkl, hw]⟩

section
variable (t : Tile) (s : State)

theorem WritesPixels.nothing {a : State} (hw : a.w = s.w) (hidx : a.idx = s.idx) : WritesPixels t [] s (.ok a) := ⟨hw, [], hidx, rfl⟩

/-- A read, and what its answer sets, writes no pixel. -/
theorem writesPixels_advance {n : Nat} {g : State → State} (hg : ∀ a, (g a).w = a.w ∧ (g a).idx = a.idx) :
    WritesPixels t [] s (s.advance n >>= fun a => pure (g a)) := by
  rcases State.advance_cases n s with ⟨-, e⟩ | ⟨-, e⟩ <;> rw [e]
  · exact .nothing t s (hg _).1 (hg _).2
  · exact ⟨[], rfl, List.prefix_rfl⟩

theorem writesPixels_readSel (v : BitVec 2) : WritesPixels t [] s (s.readSel v) :=
  writesPixels_advance t s (g := fun s => { s with sel := v }) fun _ => ⟨rfl, rfl⟩

theorem writesPixels_readByte (r : ByteReg) (v : Byte) : WritesPixels t [] s (s.readByte r v) :=
  writesPixels_advance t s (g := State.setByteReg r v) fun _ => ⟨by simp, by simp⟩

theorem writesPixels_readMaskBit (b : Bool) : WritesPixels t [] s (s.readMaskBit b) :=
  writesPixels_advance t s (g := fun s => { s with mb := BitVec.ofBool b }) fun _ => ⟨rfl, rfl⟩

theorem writesPixels_writePixel (rc : Nat × Nat) (v : Byte) : WritesPixels t [rc] s (s.writePixel (t.x + rc.2) (t.y + rc.1) v) := by
  rcases State.writePixel_cases (t.x + rc.2) (t.y + rc.1) v s with e | e <;> rw [e]
  · exact ⟨rfl, [(tileCell s.w t rc, v)], rfl, rfl⟩
  · trivial

theorem writesPixels_paintPixels (v : Byte) (ps : List (Nat × Nat)) : WritesPixels t ps s (paintPixels t v ps s) := by
  induction ps generalizing s with
  | nil => exact .nothing t s rfl rfl
  | cons p ps ih => exact WritesPixels.bind (ps := [p]) (writesPixels_writePixel t s p v) ih

theorem writesPixels_maskPixels (ps : List ((Nat × Nat) × Bool)) : WritesPixels t (ps.map Prod.fst) s (maskPixels t ps s) := by
  induction ps generalizing s with
  | nil => exact .nothing t s rfl rfl
  | cons p ps ih =>
    exact WritesPixels.bind (ps := []) (writesPixels_readMaskBit t s p.2) fun a =>
      WritesPixels.bind (ps := [p.1]) (writesPixels_writePixel t a p.1 _) ih

theorem writesPixels_rawPixels (ps : List ((Nat × Nat) × Byte)) : WritesPixels t (ps.map Prod.fst) s (rawPixels t ps s) := by
  induction ps generalizing s with
  | nil => exact .nothing t s rfl rfl
  | cons p ps ih =>
    exact WritesPixels.bind (ps := []) (writesPixels_readByte t s .px p.2) fun a =>
      WritesPixels.bind (ps := [p.1]) (writesPixels_writePixel t a p.1 _) ih

theorem writesPixels_fillTile (c : Byte) : WritesPixels t (rowsDown t.size) s (fillTile c t s) :=
  WritesPixels.bind (ps := []) (writesPixels_readSel t s 1) fun a =>
    WritesPixels.bind (ps := []) (writesPixels_readByte t a .c0 c) fun b => writesPixels_paintPixels t b _ _

theorem writesPixels_maskTile {n : Nat} (c0 c1 : Byte) (m : BitVec n) (hn : n = t.size.side * t.size.side) :
    WritesPixels t (maskOrder t.size) s (maskTile c0 c1 m t s) := by
  have hps : ((maskOrder t.size).zip (fieldBits m)).map Prod.fst = maskOrder t.size :=
    List.map_fst_zip (by rw [fieldBits_length, maskOrder_length hn])
  have loop := fun a => writesPixels_maskPixels t a ((maskOrder t.size).zip (fieldBits m))
  rw [hps] at loop
  exact WritesPixels.bind (ps := []) (writesPixels_readSel t s 2) fun a =>
    WritesPixels.bind (ps := []) (writesPixels_readByte t a .c0 c0) fun b =>
      WritesPixels.bind (ps := []) (writesPixels_readByte t b .c1 c1) loop

theorem writesPixels_splitTile (size : TileSize) : WritesPixels t [] s (splitTile size t s) :=
  WritesPixels.bind (ps := []) (writesPixels_readSel t s 3) fun a => .nothing t a rfl rfl

end

/-- The pixels a tile code writes, (row, column), in order (41_tile_codes.md R144 to R152). -/
def codePixels (i : Instr) (size : TileSize) : List (Nat × Nat) :=
  match i with
  | .fill8 _ | .fill4 _ | .fill2 _ | .raw2 _ _ _ _ => rowsDown size
  | .mask8 _ _ _ | .mask4 _ _ _ | .mask2 _ _ _ => maskOrder size
  | _ => []

/-- Every tile code writes its pixels, or some first ones of them. -/
theorem writesPixels_tileBody {i : Instr} {t : Tile} {bits : List Bool} (he : encode i = .tile t.size bits) (s : State) :
    WritesPixels t (codePixels i t.size) s (tileBody i t s) := by
  cases i <;> simp only [encode, Encoding.tile.injEq, reduceCtorEq] at he <;> obtain ⟨hsize, -⟩ := he
  case skip8 | skip4 | skip2 => exact writesPixels_readSel t s 0
  case fill8 | fill4 | fill2 => exact writesPixels_fillTile t s _
  case mask8 | mask4 | mask2 => exact writesPixels_maskTile t s _ _ _ (by rw [← hsize]; rfl)
  case split8 | split4 => exact writesPixels_splitTile t s _
  case raw2 p q r u =>
    have loop := fun a => writesPixels_rawPixels t a ((rowsDown .t2).zip [p, q, r, u])
    have hps : ((rowsDown .t2).zip [p, q, r, u]).map Prod.fst = rowsDown t.size := hsize ▸ rfl
    rw [hps] at loop
    exact WritesPixels.bind (ps := []) (writesPixels_readSel t s 3) loop

/-- The pixels a tile code writes are different ones of its tile, as many as R144 to R152 say. -/
theorem codePixels_facts {i : Instr} {size : TileSize} {bits : List Bool} (he : encode i = .tile size bits) :
    (codePixels i size).Nodup ∧ (∀ rc ∈ codePixels i size, rc.1 < size.side ∧ rc.2 < size.side) ∧
    (codePixels i size).length = codeWrites i := by
  cases i <;> simp only [encode, Encoding.tile.injEq, reduceCtorEq] at he <;> obtain ⟨hsize, -⟩ := he
  case skip8 | skip4 | skip2 | split8 | split4 => exact ⟨List.nodup_nil, by simp [codePixels], rfl⟩
  case fill8 | fill4 | fill2 | raw2 => exact ⟨nodup_rowsDown size, fun _ => mem_rowsDown.1, hsize ▸ rfl⟩
  case mask8 | mask4 | mask2 => exact ⟨nodup_maskOrder size, fun _ => mem_maskOrder.1, hsize ▸ rfl⟩

/-! ### What a tile code has done when it stops -/

section
variable {i : Instr} {s s' : State} {t : Tile} {rest : List Tile} {bits : List Bool} (hat : AtTile s t rest)
  (he : encode i = .tile t.size bits) (h : exec i s = .next s')
include he

/-- The widths of a tile code's reads add up to the length of its encoding. -/
theorem codeReads_sum_of_encode : (codeReads i).sum = bits.length := by
  rw [codeReads_sum, Instr.ownBits, he]

include hat h

/-- **What a tile code has read.**  It moved the cursor by the reads that succeeded, and it ended with the frame running where they all did, or took
`OutOfBits` where the next one did not. -/
theorem tileCode_reads : s'.pos = s.pos + bitsRead (codeReads i) s.remaining ∧
    (s'.phase = .run ∧ (codeReads i).sum ≤ s.remaining ∨
      s.remaining < (codeReads i).sum ∧ ∃ a, KeepsFrame a s ∧ s' = a.takeOutOfBits ∧ ∃ n, (n = 1 ∨ n = 2 ∨ n = 8) ∧ a.remaining < n) := by
  obtain ⟨r, hr, hreads⟩ := reads_of_code hat he
  rcases conclude_next (hr.symm.trans h) with rfl | ⟨a, rfl, rfl⟩
  · obtain ⟨hpos, hle, -, -, -, -, -, hphase⟩ := hreads
    have hall : bitsRead (codeReads i) s.remaining = (codeReads i).sum := bitsRead_of_le hle
    exact ⟨hall ▸ hpos, .inl ⟨hphase.trans hat.1, hle⟩⟩
  · obtain ⟨hlt, hpos, hkeeps, hshort⟩ := hreads
    exact ⟨hpos, .inr ⟨hlt, a, hkeeps, rfl, hshort⟩⟩

/-- **What a tile code has written.**  It changed the index buffer by writes to the first of its pixels, to all of them where the frame goes on. -/
theorem tileCode_writes : ∃ l, s'.idx = Memory.writes l s.idx ∧
    l.map Prod.fst <+: (codePixels i t.size).map (tileCell s.w t) ∧ (s'.phase = .run → l.length = codeWrites i) := by
  have hw := writesPixels_tileBody he { s with todo := rest }
  rw [exec_atTile hat he] at h
  rcases conclude_next h with hr | ⟨a, hr, rfl⟩ <;> rw [hr] at hw
  · obtain ⟨-, l, hidx, hl⟩ := hw
    have hlen : l.length = codeWrites i := by
      rw [← (codePixels_facts he).2.2, ← List.length_map (f := Prod.fst), hl, List.length_map]
    exact ⟨l, hidx, hl ▸ List.prefix_rfl, fun _ => hlen⟩
  · obtain ⟨l, hidx, hl⟩ := hw
    exact ⟨l, hidx, hl, fun hrun => by simp at hrun⟩

/-- The frame goes on exactly where the bits were there for every read of the code. -/
theorem tileCode_phase : s'.phase = .run ↔ bits.length ≤ s.remaining := by
  rw [← codeReads_sum_of_encode he]
  rcases (tileCode_reads hat he h).2 with ⟨hrun, hle⟩ | ⟨hlt, a, -, rfl, -⟩
  · exact iff_of_true hrun hle
  · exact iff_of_false (by simp) (by omega)

/-- A tile code leaves the cells outside its tile as they were. -/
theorem tileCode_outside {a : Nat} (ho : OutsideTile s t a) : s'.cell a = s.cell a := by
  obtain ⟨l, hidx, hl, -⟩ := tileCode_writes hat he h
  obtain ⟨b, hb, hs'⟩ := tileCode_next hat he h
  have hdims : s'.w = s.w ∧ s'.h = s.h := by
    rcases hs' with ⟨rfl, -⟩ | rfl <;> exact ⟨hb.w, hb.h⟩
  have hnot : a ∉ l.map Prod.fst := fun hmem => outside_notMem ho (codePixels_facts he).2.1 (hl.subset hmem)
  simp only [State.cell, hdims, hidx, Memory.read_writes_other _ hnot]

end

/-- At a tile the engine runs the fetched code. -/
theorem engineStep_atTile {s : State} {t : Tile} {rest : List Tile} (hreq : s.req = none) (hat : AtTile s t rest) :
    engineStep s = exec (s.fetchTile t.size) s := by
  simp only [engineStep, hreq, hat.1, hat.2]

/-- Settles O51: the engine runs the fetched code at the tile. -/
theorem stepWritesOnlyItsTile : Obligations.StepWritesOnlyItsTile := by
  intro s s' t rest hi hat h a ho
  obtain ⟨bits, he⟩ := encode_fetchTile s t.size
  rw [engineStep_atTile hi.noRequest hat] at h
  exact tileCode_outside hat he h ho

/-- Settles O52: the end of a frame at a tile is the second of the two ends of the fetched code, and that is its end where the bits are too few. -/
theorem onlyOutOfBitsCutsAFrameShort : Obligations.OnlyOutOfBitsCutsAFrameShort := by
  refine ⟨fun s s' t rest hreq hat h hidle => ?_, fun s t rest hreq hat hin hshort => ?_⟩
  · obtain ⟨bits, he⟩ := encode_fetchTile s t.size
    rw [engineStep_atTile hreq hat] at h
    obtain ⟨hpos, ⟨hrun, -⟩ | ⟨hlt, a, ⟨hvlen, hbuf, hftype, hw, hh, -⟩, rfl, hread⟩⟩ := tileCode_reads hat he h
    · simp [hidle] at hrun
    · exact ⟨rfl, rfl, hread, by omega, codeReads_sum _ ▸ hlt, hpos, hbuf, hvlen, hftype, hw, hh⟩
  · obtain ⟨bits, he⟩ := encode_fetchTile s t.size
    obtain ⟨s', h⟩ := tileCode_completes hat hin he
    refine ⟨s', (engineStep_atTile hreq hat).trans h, ?_⟩
    rw [← codeReads_sum] at hshort
    obtain ⟨-, ⟨-, hle⟩ | ⟨-, a, -, rfl, -⟩⟩ := tileCode_reads hat he h
    · omega
    · exact ⟨rfl, rfl⟩

/-- Settles O60: the code's reads, and its writes with the cells they name. -/
theorem tileCodeMakesExactlyItsReads : Obligations.TileCodeMakesExactlyItsReads := by
  intro s t rest i bits hat hin he
  refine ⟨codeReads_sum_of_encode he, ?_⟩
  obtain ⟨s', h⟩ := tileCode_completes hat hin he
  obtain ⟨l, hidx, hl, hall⟩ := tileCode_writes hat he h
  obtain ⟨hnd, htile, hlen⟩ := codePixels_facts he
  have hpf : PixelsInFrame s t (codePixels i t.size) := pixelsInFrame_of_tile hin.1 hin.2 htile
  refine ⟨s', l, h, (tileCode_reads hat he h).1, tileCode_phase hat he h, hidx, (nodup_cells hpf hnd).sublist hl.sublist,
    fun p hp => ?_, ?_, hall⟩
  · obtain ⟨⟨r, c⟩, hrc, hcell⟩ := List.mem_map.1 (hl.subset (List.mem_map_of_mem hp))
    have hin := htile _ hrc
    exact ⟨t.x + c, t.y + r, ⟨by omega, by omega, by omega, by omega⟩, hcell.symm⟩
  · simpa [hlen] using hl.length_le

end Sys2Proof.Machine

/-! SUPPORT. One step: whose action it takes and which instruction it runs (O37, O39), and the shape of the work list, which every step keeps (O50). -/

namespace Sys2Proof.Machine

/-! ### Whose step it is -/

/-- A step with no action of the host to come, as the engine's. -/
theorem step_engine {s : State} (h : s.host = []) : step s = engineStep s := by
  simp only [step, blockStep, h]

/-- A step that takes the host's next action: any, but a wait while the frame runs. -/
theorem step_host {s : State} {e : HostEvent} {rest : List HostEvent} (h : s.host = e :: rest) (hnow : ¬ (e = .waitIdle ∧ s.phase = .run)) :
    step s = hostStep e { s with host := rest } := by
  simp only [step, blockStep, h, if_neg hnow]

/-- What a host may read does not depend on what it will do. -/
theorem hostRead_setHost (i : HostItem) (s : State) (rest : List HostEvent) : hostRead i { s with host := rest } = hostRead i s := by
  cases i <;> rfl

/-- Settles O37: the step's cases are those of the host's list, and the engine's those of PHASE and TODO. -/
theorem stepRunsTheDecodedInstruction : Obligations.StepRunsTheDecodedInstruction := by
  refine ⟨fun s c rest h => step_host h (by simp), fun s r h hreq => ?_, fun s t rest h hreq hat => ?_, fun s rest h hp => ?_,
    fun s rest h => step_host h (by simp), fun s h => step_engine h, fun s rest h hp => step_host h (by simp [hp]),
    fun s i rest h => ?_, fun s i rest h => step_host h (by simp)⟩
  · simp only [step_engine h, engineStep, hreq, decode]
  · exact (step_engine h).trans (engineStep_atTile hreq hat)
  · simp only [step, blockStep, h, hp, and_self, if_true]
  · have hread := hostRead_setHost i s rest
    rw [step_host h (by simp)]
    exact ⟨fun v hv => by simp only [hostStep, hread, hv], fun f hf => by simp only [hostStep, hread, hf],
      fun r hr => by simp only [hostStep, hread, hr]⟩

/-- Settles O39: the engine's two cases without an instruction. -/
theorem idleWaitsAndFrameEnds : Obligations.IdleWaitsAndFrameEnds := by
  refine ⟨fun s h hreq hp => ?_, fun s h hreq hp ht => ?_⟩
  · simp only [step_engine h, engineStep, hreq, hp]
  · simp only [step_engine h, engineStep, hreq, hp, ht]
    simp only [State.finish, hreq]

/-! ### The shape of the work list -/

/-- An empty work list has the shape. -/
theorem TodoShape.of_nil {s : State} (h : s.todo = []) : TodoShape s :=
  ⟨[], [], [], by simp [h], by simp, by simp, by simp, by simp, by simp, by simp, by simp, by simp⟩

/-- The shape speaks of TODO and the number of top-level tiles only. -/
theorem TodoShape.congr {s u : State} (h : TodoShape s) (ht : u.todo = s.todo) (hw : u.w = s.w) (hh : u.h = s.h) : TodoShape u := by
  simpa only [TodoShape, ht, hw, hh] using h

/-- The top-level tiles of a frame, before any has been split. -/
theorem TodoShape.of_topTiles {s : State} (h : s.todo = topTiles s.w s.h) : TodoShape s := by
  refine ⟨[], [], topTiles s.w s.h, by simp [h], by simp, by simp, ?_, by simp, by simp, by simp, ?_, by simp⟩
  · simp only [topTiles, List.mem_flatMap, List.mem_map]
    rintro t ⟨y, -, x, -, rfl⟩
    rfl
  · simp [topTiles, Nat.mul_comm]

theorem childTiles_size {size : TileSize} {t : Tile} : ∀ u ∈ childTiles size t, u.size = size := by simp [childTiles]

/-- What a tile code does to the work list, its head gone and its children, if any, in the head's place: the shape stays (41_tile_codes.md R157). -/
theorem TodoShape.next {s s' : State} {t : Tile} {rest : List Tile} {i : Instr} {bits : List Bool} (h : TodoShape s)
    (ht : s.todo = t :: rest) (he : encode i = .tile t.size bits) (ht' : s'.todo = queued i t ++ rest) (hw : s'.w = s.w) (hh : s'.h = s.h) :
    TodoShape s' := by
  obtain ⟨a, b, c, habc, ha, hb, hc, hla, hlb, hab, hlc, hlc'⟩ := h
  simp only [TodoShape, ht', hw, hh]
  rw [ht] at habc
  match a, b, c, habc with
  | u :: a, b, c, habc =>
    obtain ⟨rfl, rfl⟩ := List.cons.inj habc
    obtain ⟨hu, ha⟩ := List.forall_mem_cons.1 ha
    have hq : queued i t = [] := by
      rcases queued_cases he with hq | ⟨size, hside, -⟩
      · exact hq
      · rw [hu] at hside; cases size <;> simp [TileSize.side] at hside
    have hlb' := hab (by simp)
    have hlc'' := hlc' (.inl (by simp))
    simp only [List.length_cons] at hla
    exact ⟨a, b, c, by rw [hq]; rfl, ha, hb, hc, by omega, by omega, fun _ => hlb', by omega, fun _ => hlc''⟩
  | [], u :: b, c, habc =>
    obtain ⟨rfl, rfl⟩ := List.cons.inj habc
    obtain ⟨hu, hb⟩ := List.forall_mem_cons.1 hb
    have hlc'' := hlc' (.inr (by simp))
    simp only [List.length_cons] at hlb
    rcases queued_cases he with hq | ⟨size, hside, hq⟩
    · exact ⟨[], b, c, by rw [hq]; rfl, by simp, hb, hc, by simp, by omega, by simp, by omega, fun _ => hlc''⟩
    · have hsize : size = .t2 := by rw [hu] at hside; cases size <;> simp [TileSize.side] at hside ⊢
      exact ⟨childTiles .t2 t, b, c, by rw [hq, hsize, List.append_assoc]; rfl, childTiles_size, hb, hc, by simp [childTiles],
        by omega, fun _ => by omega, by omega, fun _ => hlc''⟩
  | [], [], u :: c, habc =>
    obtain ⟨rfl, rfl⟩ := List.cons.inj habc
    obtain ⟨hu, hc⟩ := List.forall_mem_cons.1 hc
    simp only [List.length_cons] at hlc
    rcases queued_cases he with hq | ⟨size, hside, hq⟩
    · exact ⟨[], [], rest, by rw [hq]; rfl, by simp, by simp, hc, by simp, by simp, by simp, by omega, by simp⟩
    · have hsize : size = .t4 := by rw [hu] at hside; cases size <;> simp [TileSize.side] at hside ⊢
      exact ⟨[], childTiles .t4 t, rest, by rw [hq, hsize]; rfl, by simp, childTiles_size, hc, by simp, by simp [childTiles], by simp,
        by omega, fun _ => hlc⟩

/-- A step of the engine keeps the shape. -/
theorem engineStep_todoShape {s s' : State} (hreq : s.req = none) (hs : TodoShape s) (h : engineStep s = .next s') : TodoShape s' := by
  simp only [engineStep, hreq] at h
  split at h
  · simp only [Host.Outcome.next.injEq] at h; exact h ▸ hs
  · rename_i hp
    split at h
    · simp only [Host.Outcome.next.injEq] at h; exact .of_nil (h ▸ rfl)
    · rename_i t rest ht
      obtain ⟨bits, he⟩ := encode_fetchTile s t.size
      obtain ⟨a, ha, ⟨rfl, htodo⟩ | rfl⟩ := tileCode_next ⟨hp, ht⟩ he h
      · exact hs.next ht he htodo ha.w ha.h
      · exact .of_nil rfl

/-- A command leaves no tile waiting, but FRAME.COMP1, which leaves the top-level tiles of the frame. -/
theorem command_todoShape {i : Instr} {c : PortCommand} {s s' : State} (he : encode i = .command c) (h : exec i s = .next s') :
    TodoShape s' := by
  obtain ⟨-, -, -, rfl⟩ := exec_command_next he h
  cases i <;> simp only [encode, reduceCtorEq] at he
  case frameComp1 p => exact .of_topTiles rfl
  case frameBlank p =>
    simp only [commandEffect]
    split <;> exact .of_nil rfl
  all_goals exact .of_nil rfl

/-- What the host does keeps the shape. -/
theorem hostStep_todoShape {e : HostEvent} {s s' : State} (hreq : s.req = none) (hs : TodoShape s) (h : hostStep e s = .next s') :
    TodoShape s' := by
  cases e with
  | command c =>
    obtain ⟨d, hd⟩ := encode_decodeCommand c
    exact command_todoShape hd h
  | hardwareReset =>
    simp only [hostStep, Host.Outcome.next.injEq] at h
    exact .of_nil (h ▸ rfl)
  | read i => exact hostStep_read_next h ▸ hs
  | write i => simp [hostStep] at h
  | pass => exact engineStep_todoShape hreq hs h
  | waitIdle =>
    simp only [hostStep, Host.Outcome.next.injEq] at h
    exact h ▸ hs

/-- Settles O50: the shape at reset, at every step, and the bound it gives. -/
theorem workListStaysShort : Obligations.WorkListStaysShort := by
  refine ⟨.of_nil rfl, fun s s' hi hs h => ?_, ?_⟩
  · simp only [step, blockStep] at h
    split at h
    · exact engineStep_todoShape hi.noRequest hs h
    · split at h
      · exact engineStep_todoShape hi.noRequest hs h
      · have hhost : ∀ rest, TodoShape { s with host := rest } := fun _ => hs.congr rfl rfl rfl
        exact hostStep_todoShape (hi.setHost _).noRequest (hhost _) h
  · rintro s ⟨a, b, c, habc, -, -, -, hla, hlb, hab, hlc, hlc'⟩
    rw [habc, List.length_append, List.length_append]
    by_cases ha : a = []
    · have ha0 : a.length = 0 := List.length_eq_zero_iff.2 ha
      omega
    · have hlb' := hab ha
      have hlc'' := hlc' (.inl ha)
      omega

end Sys2Proof.Machine

/-! SUPPORT. Complete tile codes, drawn: a list of codes that stand in the payload one after another is run by one step for each of them, and the pictures of its
tiles are laid one over another (O48). -/

namespace Sys2Proof.Machine

/-! ### Pictures -/

/-- From `s` to `s'` every pixel of the frame becomes what the picture makes of it, or stays as it was. -/
def Paints (s s' : State) (p : Nat → Nat → Option Byte) : Prop :=
  ∀ x y, x < s.w → y < s.h → s'.cell (s.pix x y) = (p x y).or (s.cell (s.pix x y))

/-- The picture of one tile in the frame, its pixels given by row and column. -/
def tilePicture (t : Tile) (f : Nat → Nat → Option Byte) (x y : Nat) : Option Byte :=
  if t.x ≤ x ∧ x < t.x + t.size.side ∧ t.y ≤ y ∧ y < t.y + t.size.side then f (y - t.y) (x - t.x) else none

theorem tilePicture_covered {t : Tile} {x y : Nat} (h : TileCovers t x y) (f : Nat → Nat → Option Byte) :
    tilePicture t f x y = f (y - t.y) (x - t.x) := if_pos h

theorem tilePicture_not_covered {t : Tile} {x y : Nat} (h : ¬ TileCovers t x y) (f : Nat → Nat → Option Byte) :
    tilePicture t f x y = none := if_neg h

/-- One picture over another. -/
theorem Paints.trans {s a b : State} {p q : Nat → Nat → Option Byte} (h : Paints s a p) (hw : a.w = s.w) (hh : a.h = s.h)
    (g : Paints a b q) : Paints s b fun x y => (q x y).or (p x y) := by
  intro x y hx hy
  have hpix : a.pix x y = s.pix x y := by simp only [State.pix, hw]
  have hb := g x y (hw ▸ hx) (hh ▸ hy)
  rw [hpix] at hb
  rw [hb, h x y hx hy, Option.or_assoc]

/-- A pixel of the frame that is not the tile's has a cell outside it. -/
theorem outsideTile_pix {s : State} {t : Tile} (hin : TileInFrame s t) {x y : Nat} (hx : x < s.w) (hnot : ¬ TileCovers t x y) :
    OutsideTile s t (s.pix x y) := by
  rintro x' y' hcov heq
  obtain ⟨-, hx', -, -⟩ := id hcov
  obtain ⟨rfl, rfl⟩ := pix_inj hx (show x' < s.w by have := hin.1; omega) heq
  exact hnot hcov

/-- The cells of a tile and the cells outside it, as one picture. -/
theorem paints_tilePicture {s s' : State} {t : Tile} {f : Nat → Nat → Option Byte} (hin : TileInFrame s t)
    (hcells : ∀ r c, r < t.size.side → c < t.size.side →
      s'.cell (s.pix (t.x + c) (t.y + r)) = (f r c).or (s.cell (s.pix (t.x + c) (t.y + r))))
    (hout : ∀ a, OutsideTile s t a → s'.cell a = s.cell a) : Paints s s' (tilePicture t f) := by
  intro x y hx hy
  by_cases hcov : TileCovers t x y
  · rw [tilePicture_covered hcov]
    obtain ⟨hx1, hx2, hy1, hy2⟩ := hcov
    have h := hcells (y - t.y) (x - t.x) (by omega) (by omega)
    rwa [Nat.add_sub_cancel' hx1, Nat.add_sub_cancel' hy1] at h
  · rw [tilePicture_not_covered hcov, hout _ (outsideTile_pix hin hx hcov), Option.none_or]

/-- The picture of a tile that is a quarter of another, `dx` columns and `dy` rows into it. -/
theorem tilePicture_quarter {t u : Tile} {f g : Nat → Nat → Option Byte} {dx dy x y : Nat} (hx : u.x = t.x + dx) (hy : u.y = t.y + dy)
    (hin : dx ≤ x - t.x ∧ x - t.x < dx + u.size.side ∧ dy ≤ y - t.y ∧ y - t.y < dy + u.size.side) (hcov : TileCovers t x y)
    (hfg : f (y - t.y) (x - t.x) = g (y - t.y - dy) (x - t.x - dx)) : tilePicture t f x y = tilePicture u g x y := by
  have hu : TileCovers u x y := by simp only [TileCovers] at *; omega
  rw [tilePicture_covered hcov, tilePicture_covered hu, hfg, hx, hy, Nat.sub_sub, Nat.sub_sub]

/-- Four pictures of half the side make the picture of a tile (41_tile_codes.md R150). -/
theorem tilePicture_quarters {α : Type} (pixel : α → Nat → Nat → Option Byte) {t : Tile} {size : TileSize}
    (hside : t.size.side = 2 * size.side) (k0 k1 k2 k3 : α) (x y : Nat) :
    tilePicture t (fun r c => pixel (if r < size.side then (if c < size.side then k0 else k1) else (if c < size.side then k2 else k3))
      (r % size.side) (c % size.side)) x y =
    (tilePicture ⟨t.x + size.side, t.y + size.side, size⟩ (pixel k3) x y).or
      ((tilePicture ⟨t.x, t.y + size.side, size⟩ (pixel k2) x y).or
        ((tilePicture ⟨t.x + size.side, t.y, size⟩ (pixel k1) x y).or (tilePicture ⟨t.x, t.y, size⟩ (pixel k0) x y))) := by
  have hmod : ∀ n, size.side ≤ n → n < 2 * size.side → n % size.side = n - size.side := fun n h1 h2 => by
    rw [Nat.mod_eq_sub_mod h1, Nat.mod_eq_of_lt (by omega)]
  have away : ∀ {u : Tile} (f : Nat → Nat → Option Byte), ¬ TileCovers u x y → tilePicture u f x y = none :=
    fun f h => tilePicture_not_covered h f
  by_cases hcov : TileCovers t x y
  · obtain ⟨hx1, hx2, hy1, hy2⟩ := id hcov
    rcases Nat.lt_or_ge (y - t.y) size.side with hr | hr <;> rcases Nat.lt_or_ge (x - t.x) size.side with hc | hc
    · rw [away (pixel k3), away (pixel k2), away (pixel k1), Option.none_or, Option.none_or, Option.none_or]
      · refine tilePicture_quarter (dx := 0) (dy := 0) rfl rfl (by simp only; omega) hcov ?_
        simp only [if_pos hr, if_pos hc, Nat.mod_eq_of_lt hr, Nat.mod_eq_of_lt hc, Nat.sub_zero]
      all_goals simp only [TileCovers]; omega
    · rw [away (pixel k3), away (pixel k2), away (pixel k0), Option.none_or, Option.none_or, Option.or_none]
      · refine tilePicture_quarter (dx := size.side) (dy := 0) rfl rfl (by simp only; omega) hcov ?_
        simp only [if_pos hr, if_neg (Nat.not_lt.2 hc), Nat.mod_eq_of_lt hr, hmod _ hc (by omega), Nat.sub_zero]
      all_goals simp only [TileCovers]; omega
    · rw [away (pixel k3), away (pixel k1), away (pixel k0), Option.none_or, Option.none_or, Option.or_none]
      · refine tilePicture_quarter (dx := 0) (dy := size.side) rfl rfl (by simp only; omega) hcov ?_
        simp only [if_neg (Nat.not_lt.2 hr), if_pos hc, hmod _ hr (by omega), Nat.mod_eq_of_lt hc, Nat.sub_zero]
      all_goals simp only [TileCovers]; omega
    · rw [away (pixel k2), away (pixel k1), away (pixel k0), Option.none_or, Option.none_or, Option.or_none]
      · refine tilePicture_quarter (dx := size.side) (dy := size.side) rfl rfl (by simp only; omega) hcov ?_
        simp only [if_neg (Nat.not_lt.2 hr), if_neg (Nat.not_lt.2 hc), hmod _ hr (by omega), hmod _ hc (by omega)]
      all_goals simp only [TileCovers]; omega
  · have outside : ∀ {u : Tile} (f : Nat → Nat → Option Byte), TileInside u t → tilePicture u f x y = none := fun {u} f hu =>
      tilePicture_not_covered (fun h => hcov (by simp only [TileCovers, TileInside] at *; omega)) f
    have inside := childTiles_inside hside
    simp only [childTiles, List.forall_mem_cons] at inside
    obtain ⟨h0, h1, h2, h3, -⟩ := inside
    rw [tilePicture_not_covered hcov, outside _ h0, outside _ h1, outside _ h2, outside _ h3]
    rfl

/-! ### Runs -/

theorem Core.run_step {M : Host.Core} {s s' : M.State} (h : M.step s = .next s') (n : Nat) : M.run (n + 1) s = M.run n s' := by
  simp only [Host.Core.run, h]

/-- A run after a run. -/
theorem Core.run_add {M : Host.Core} {s s' : M.State} {m : Nat} (h : M.run m s = .next s') (n : Nat) : M.run (m + n) s = M.run n s' := by
  induction m generalizing s with
  | zero =>
    simp only [Host.Core.run, Host.Outcome.next.injEq] at h
    rw [Nat.zero_add, h]
  | succ m ih =>
    rw [Nat.add_right_comm]
    cases hs : M.step s with
    | next a =>
      rw [Core.run_step hs] at h ⊢
      exact ih h
    | fault r => simp [Host.Core.run, hs] at h
    | refused r => simp [Host.Core.run, hs] at h

/-! ### A list of codes, drawn -/

/-- The engine has come to these tiles, inside the frame, other tiles wait behind them, and the payload goes on with these bits. -/
structure Ready (s : State) (ts rest : List Tile) (bits : List Bool) : Prop where
  host : s.host = []
  req : s.req = none
  phase : s.phase = .run
  todo : s.todo = ts ++ rest
  inFrame : ∀ t ∈ ts, TileInFrame s t
  spelled : ∀ k, k < bits.length → bitAt s.buf (s.pos + k) = bits.getD k false
  enough : bits.length ≤ s.remaining

/-- What the engine has done from `s` to `s'` where it drew a picture from `n` bits and left these tiles waiting. -/
structure Drawn (s s' : State) (rest : List Tile) (n : Nat) (p : Nat → Nat → Option Byte) : Prop where
  frame : EngineFrame s s'
  pos : s'.pos = s.pos + n
  todo : s'.todo = rest
  paints : Paints s s' p

/-- The codes, at these tiles, draw the picture: one step for each of them. -/
def Draws (ts : List Tile) (is : List Instr) (p : Nat → Nat → Option Byte) : Prop :=
  ∀ s rest, Ready s ts rest (codeBits is) → ∃ s', core.run is.length s = .next s' ∧ Drawn s s' rest (codeBits is).length p

theorem EngineFrame.trans {a b c : State} (h : EngineFrame a b) (k : EngineFrame b c) : EngineFrame a c where
  w := k.w.trans h.w
  h := k.h.trans h.h
  started := k.started.trans h.started
  ftype := k.ftype.trans h.ftype
  vlen := k.vlen.trans h.vlen
  buf := k.buf.trans h.buf
  status := k.status.trans h.status
  phase := k.phase.trans h.phase
  host := k.host.trans h.host
  req := k.req ∘ h.req
  pos := h.pos.trans k.pos
  posInPayload := k.posInPayload ∘ h.posInPayload
  cells := k.cells ∘ h.cells

/-- Behind the bits that were drawn the payload goes on with the rest. -/
theorem Ready.next {s a : State} {ts us rest : List Tile} {bits bits' : List Bool} {p : Nat → Nat → Option Byte}
    (h : Ready s ts rest (bits ++ bits')) (hd : Drawn s a (us ++ rest) bits.length p) (hus : ∀ t ∈ us, TileInFrame s t) :
    Ready a us rest bits' where
  host := hd.frame.host.trans h.host
  req := hd.frame.req h.req
  phase := hd.frame.phase.trans h.phase
  todo := hd.todo
  inFrame t ht := by simpa only [TileInFrame, hd.frame.w, hd.frame.h] using hus t ht
  spelled k hk := by
    have hbit := h.spelled (bits.length + k) (by rw [List.length_append]; omega)
    rw [List.getD_append_right _ _ _ _ (Nat.le_add_right _ _), Nat.add_sub_cancel_left] at hbit
    rw [hd.frame.buf, hd.pos, Nat.add_assoc, hbit]
  enough := by
    have henough := h.enough
    rw [List.length_append] at henough
    simp only [State.remaining, hd.frame.vlen, hd.pos] at henough ⊢
    omega

theorem Drawn.trans {s a b : State} {us rest : List Tile} {m n : Nat} {p q : Nat → Nat → Option Byte} (h : Drawn s a us m p)
    (k : Drawn a b rest n q) : Drawn s b rest (m + n) fun x y => (q x y).or (p x y) where
  frame := h.frame.trans k.frame
  pos := by rw [k.pos, h.pos, Nat.add_assoc]
  todo := k.todo
  paints := h.paints.trans h.frame.w h.frame.h k.paints

/-- No codes draw nothing. -/
theorem Draws.nil : Draws [] [] fun _ _ => none :=
  fun s _ h => ⟨s, rfl, .refl s, rfl, h.todo, fun _ _ _ _ => rfl⟩

/-- Codes after codes draw a picture over a picture. -/
theorem Draws.append {ts us : List Tile} {is js : List Instr} {p q : Nat → Nat → Option Byte} (h : Draws ts is p) (k : Draws us js q) :
    Draws (ts ++ us) (is ++ js) fun x y => (q x y).or (p x y) := by
  intro s rest hs
  rw [codeBits_append] at hs ⊢
  have hin := List.forall_mem_append.1 hs.inFrame
  have hfirst : Ready s ts (us ++ rest) (codeBits is) :=
    { hs with
      todo := by rw [hs.todo, List.append_assoc]
      inFrame := hin.1
      spelled := fun n hn => by
        rw [hs.spelled n (by rw [List.length_append]; omega), List.getD_append _ _ _ _ hn]
      enough := by have := hs.enough; rw [List.length_append] at this; omega }
  obtain ⟨a, hrun, ha⟩ := h s _ hfirst
  obtain ⟨b, hrun', hb⟩ := k a rest (hs.next (us := us) ha hin.2)
  refine ⟨b, ?_, ?_⟩
  · rw [List.length_append]
    exact (Core.run_add hrun _).trans hrun'
  · rw [List.length_append]
    exact ha.trans hb

/-! ### One code, drawn -/

/-- A tile code with its bits there makes this picture at its tile, its children not yet decoded. -/
def CodeDraws (i : Instr) (t : Tile) (p : Nat → Nat → Option Byte) : Prop :=
  ∀ s rest, AtTile s t rest → TileInFrame s t → i.ownBits.length ≤ s.remaining → ∃ s', exec i s = .next s' ∧ Paints s s' p

/-- A code and the codes of the tiles it queues. -/
theorem Draws.code {i : Instr} {t : Tile} {bits : List Bool} {is : List Instr} {p q : Nat → Nat → Option Byte}
    (he : encode i = .tile t.size bits) (h : CodeDraws i t p) (k : Draws (queued i t) is q) :
    Draws [t] (i :: is) fun x y => (q x y).or (p x y) := by
  intro s rest hs
  have hown : i.ownBits = bits := by rw [Instr.ownBits, he]
  rw [codeBits_cons, hown] at hs ⊢
  have hat : AtTile s t rest := ⟨hs.phase, hs.todo⟩
  have hin : TileInFrame s t := hs.inFrame t (List.mem_singleton.2 rfl)
  have hlen : bits.length ≤ s.remaining := by have := hs.enough; rw [List.length_append] at this; omega
  obtain ⟨a, hexec, hpaints⟩ := h s rest hat hin (hown ▸ hlen)
  have hfetch : s.fetchTile t.size = i := fetchReadsTheStream s i t.size bits he fun n hn => by
    rw [hs.spelled n (by rw [List.length_append]; omega), List.getD_append _ _ _ _ hn]
  have hstep : core.step s = .next a := by
    change step s = .next a
    rw [step_engine hs.host, engineStep_atTile hs.req hat, hfetch, hexec]
  have hrun : a.phase = .run := (tileCode_phase hat he hexec).2 hlen
  obtain ⟨b, hframe, ⟨rfl, htodo⟩ | rfl⟩ := tileCode_next hat he hexec
  · have hpos : a.pos = s.pos + bits.length := by
      rw [(tileCode_reads hat he hexec).1, bitsRead_of_le (codeReads_sum_of_encode he ▸ hlen), codeReads_sum_of_encode he]
    have hd : Drawn s a (queued i t ++ rest) bits.length p := ⟨hframe, hpos, htodo, hpaints⟩
    have hqueued : ∀ u ∈ queued i t, TileInFrame s u := by
      rcases queued_cases he with hq | ⟨size, hside, hq⟩ <;> rw [hq]
      · simp
      · exact fun u hu => (childTiles_inside hside u hu).inFrame hin
    obtain ⟨c, hrun', hc⟩ := k a rest (hs.next hd hqueued)
    rw [List.length_append]
    exact ⟨c, (Core.run_step hstep _).trans hrun', hd.trans hc⟩
  · simp at hrun

/-- A code that queues no tile. -/
theorem Draws.single {i : Instr} {t : Tile} {bits : List Bool} {p : Nat → Nat → Option Byte} (he : encode i = .tile t.size bits)
    (hq : queued i t = []) (h : CodeDraws i t p) : Draws [t] [i] p :=
  Draws.code he h (hq ▸ Draws.nil)

/-- A SPLIT, which paints nothing itself, and the codes of its four children. -/
theorem Draws.split {α : Type} (pixel : α → Nat → Nat → Option Byte) (codes : α → List Instr) {i : Instr} {t : Tile} {size : TileSize}
    {bits : List Bool} (he : encode i = .tile t.size bits) (hq : queued i t = childTiles size t) (h : CodeDraws i t fun _ _ => none)
    (hside : t.size.side = 2 * size.side) (hk : ∀ u : Tile, u.size = size → ∀ k, Draws [u] (codes k) (tilePicture u (pixel k)))
    (k0 k1 k2 k3 : α) :
    Draws [t] (i :: (codes k0 ++ codes k1 ++ codes k2 ++ codes k3)) (tilePicture t fun r c =>
      pixel (if r < size.side then (if c < size.side then k0 else k1) else (if c < size.side then k2 else k3))
        (r % size.side) (c % size.side)) := by
  have children : Draws (childTiles size t) _ _ := (((hk ⟨t.x, t.y, size⟩ rfl k0).append (hk ⟨t.x + size.side, t.y, size⟩ rfl k1)).append
    (hk ⟨t.x, t.y + size.side, size⟩ rfl k2)).append (hk ⟨t.x + size.side, t.y + size.side, size⟩ rfl k3)
  rw [← hq] at children
  have whole := Draws.code he h children
  have hpicture := funext fun x => funext fun y => tilePicture_quarters pixel hside k0 k1 k2 k3 x y
  rw [hpicture]
  simpa only [Option.or_none] using whole

theorem codeDraws_skip (t : Tile) : CodeDraws (skipOf t.size) t (tilePicture t fun _ _ => none) := by
  intro s rest hat hin hrem
  obtain ⟨he, hok, -⟩ := skipWritesNothing s t rest hat
  rw [Instr.ownBits, he] at hrem
  exact ⟨_, hok hrem, paints_tilePicture hin (fun _ _ _ _ => rfl) fun _ _ => rfl⟩

theorem codeDraws_fill (c : Byte) (t : Tile) : CodeDraws (fillOf c t.size) t (tilePicture t fun _ _ => some c) := by
  intro s rest hat hin hrem
  obtain ⟨he, hok, -⟩ := fillPaintsItsTile s t rest c hat hin
  rw [Instr.ownBits, he] at hrem
  obtain ⟨m, hexec, hcells, hout⟩ := hok (by simpa using hrem)
  exact ⟨_, hexec, paints_tilePicture hin (fun r k hr hk => hcells _ _ ⟨by omega, by omega, by omega, by omega⟩) hout⟩

/-- A MASK of any size. -/
theorem codeDraws_mask {n : Nat} {c0 c1 : Byte} {m : BitVec n} {i : Instr} {t : Tile} {bits : List Bool}
    (he : encode i = .tile t.size bits) (hbody : tileBody i = maskTile c0 c1 m) (hn : n = t.size.side * t.size.side)
    (hlen : bits.length = 18 + n) :
    CodeDraws i t (tilePicture t fun r c => some (if m.getMsbD (maskIndex t.size r c) then c1 else c0)) := by
  intro s rest hat hin hrem
  rw [Instr.ownBits, he] at hrem
  obtain ⟨mem, hexec, hcells, hout⟩ := exec_mask_complete hat he hbody hn hin (hlen ▸ hrem)
  exact ⟨_, hexec, paints_tilePicture hin hcells hout⟩

theorem codeDraws_raw (p q r u : Byte) {t : Tile} (hsize : t.size = .t2) :
    CodeDraws (.raw2 p q r u) t (tilePicture t (Quad2.raw p q r u).pixel) := by
  intro s rest hat hin hrem
  have hbits : 34 ≤ s.remaining := by simpa [Instr.ownBits, encode] using hrem
  obtain ⟨m, hexec, h00, h01, h10, h11, hout⟩ := raw2WritesFourLiterals s t rest p q r u hat hsize hin hbits
  refine ⟨_, hexec, paints_tilePicture hin (fun i j hi hj => ?_) hout⟩
  rw [hsize, TileSize.side] at hi hj
  interval_cases i <;> interval_cases j
  · exact h00
  · exact h01
  · exact h10
  · exact h11

theorem codeDraws_split {i : Instr} {t : Tile} {size : TileSize} (he : encode i = .tile t.size (fieldBits 3#2))
    (hbody : tileBody i = splitTile size) : CodeDraws i t fun _ _ => none := by
  intro s rest hat hin hrem
  rw [Instr.ownBits, he, fieldBits_length] at hrem
  have hexec := exec_atTile hat he
  rw [hbody, (conclude_splitTile size t s rest).1 hrem] at hexec
  exact ⟨_, hexec, fun _ _ _ _ => rfl⟩

/-! ### Complete tile codes -/

theorem Quad2.draws (q : Quad2) {t : Tile} (hsize : t.size = .t2) : Draws [t] q.codes (tilePicture t q.pixel) := by
  obtain ⟨x, y, size⟩ := t
  obtain rfl : size = .t2 := hsize
  cases q with
  | skip => exact .single (i := .skip2) rfl rfl (codeDraws_skip _)
  | fill c => exact .single (i := .fill2 c) rfl rfl (codeDraws_fill c _)
  | mask c0 c1 m => exact .single (i := .mask2 c0 c1 m) rfl rfl (codeDraws_mask rfl rfl rfl (by simp))
  | raw p q r u => exact .single (i := .raw2 p q r u) rfl rfl (codeDraws_raw p q r u rfl)

theorem Quad4.draws (q : Quad4) {t : Tile} (hsize : t.size = .t4) : Draws [t] q.codes (tilePicture t q.pixel) := by
  obtain ⟨x, y, size⟩ := t
  obtain rfl : size = .t4 := hsize
  cases q with
  | skip => exact .single (i := .skip4) rfl rfl (codeDraws_skip _)
  | fill c => exact .single (i := .fill4 c) rfl rfl (codeDraws_fill c _)
  | mask c0 c1 m => exact .single (i := .mask4 c0 c1 m) rfl rfl (codeDraws_mask rfl rfl rfl (by simp))
  | split k0 k1 k2 k3 =>
    exact .split Quad2.pixel Quad2.codes (i := .split4) (size := .t2) rfl rfl (codeDraws_split rfl rfl) rfl
      (fun u hu k => k.draws hu) k0 k1 k2 k3

theorem Quad8.draws (q : Quad8) {t : Tile} (hsize : t.size = .t8) : Draws [t] q.codes (tilePicture t q.pixel) := by
  obtain ⟨x, y, size⟩ := t
  obtain rfl : size = .t8 := hsize
  cases q with
  | skip => exact .single (i := .skip8) rfl rfl (codeDraws_skip _)
  | fill c => exact .single (i := .fill8 c) rfl rfl (codeDraws_fill c _)
  | mask c0 c1 m => exact .single (i := .mask8 c0 c1 m) rfl rfl (codeDraws_mask rfl rfl rfl (by simp))
  | split k0 k1 k2 k3 =>
    exact .split Quad4.pixel Quad4.codes (i := .split8) (size := .t4) rfl rfl (codeDraws_split rfl rfl) rfl
      (fun u hu k => k.draws hu) k0 k1 k2 k3

/-- A cell of the frame is a pixel's. -/
theorem pix_of_lt {s : State} {a : Nat} (h : a < s.w * s.h) : ∃ x y, x < s.w ∧ y < s.h ∧ a = s.pix x y := by
  have hw : 0 < s.w := Nat.pos_of_mul_pos_right (Nat.zero_lt_of_lt h)
  exact ⟨a % s.w, a / s.w, Nat.mod_lt _ hw, Nat.div_lt_of_lt_mul h, by rw [State.pix, Nat.mul_comm, Nat.div_add_mod]⟩

/-- Settles O48: the codes of a complete tile code draw its picture, and the picture speaks of the tile's cells only. -/
theorem completeCodeDrawsItsPicture : Obligations.CompleteCodeDrawsItsPicture := by
  intro s t rest q hhost hreq hat hsize hin hspelled henough
  have hlen : (codeBits q.codes).length = q.len := (codeBits_length q.codes).trans q.measured.sum
  have hready : Ready s [t] rest (codeBits q.codes) :=
    ⟨hhost, hreq, hat.1, hat.2, by simpa using hin, hlen ▸ hspelled, hlen ▸ henough⟩
  obtain ⟨s', hrun, hframe, hpos, htodo, hpaints⟩ := q.draws hsize s rest hready
  refine ⟨s', hrun, hlen ▸ hpos, htodo, hframe.phase.trans hat.1, fun r c hr hc => ?_, fun a ho => ?_⟩
  · obtain ⟨hw, hh⟩ := hin
    rw [hsize, TileSize.side] at hw hh
    have hcov : TileCovers t (t.x + c) (t.y + r) := by simp only [TileCovers, hsize, TileSize.side]; omega
    have hcell := hpaints (t.x + c) (t.y + r) (by omega) (by omega)
    rw [tilePicture_covered hcov, Nat.add_sub_cancel_left, Nat.add_sub_cancel_left] at hcell
    rw [hcell]
    cases q.pixel r c <;> rfl
  · by_cases ha : a < s.w * s.h
    · obtain ⟨x, y, hx, hy, rfl⟩ := pix_of_lt ha
      rw [hpaints x y hx hy, tilePicture_not_covered fun hcov => ho x y hcov rfl, Option.none_or]
    · simp only [State.cell, hframe.w, hframe.h, if_neg ha]

end Sys2Proof.Machine

/-! SUPPORT. The work list is the recursion (O46): a decoder that takes every operand from `BitRead` reads what the fetched code says, and running through the
work list comes to the recursion's end. -/

namespace Sys2Proof.Machine

/-! ### One code, its operands taken from `BitRead` -/

/-- Two continuations of reads that agree wherever the reads can end. -/
theorem Reads.bind_congr {α : Type} {ns : List Nat} {s : State} {r : Except Trap State} {f g : State → Except Trap α} (h : Reads ns s r)
    (hfg : ∀ a, a.pos = s.pos + ns.sum → KeepsFrame a s → f a = g a) : r >>= f = r >>= g := by
  match r, h with
  | .ok a, ⟨hpos, _, hkeeps⟩ => exact hfg a hpos hkeeps
  | .error _, _ => rfl

section
variable {s : State} (hlen : s.vlen = s.buf.length)
include hlen

/-- A `BitRead` is the admission test, and the stream's bits for its value (40_bitreader.md R110). -/
theorem bitRead_bind {α : Type} {n : Nat} (hpos : 0 < n) (hn : n ≤ 8) (f : Nat × State → Except Trap α) :
    s.bitRead n >>= f = s.advance n >>= fun a => f (streamNat s.buf s.pos n, a) := by
  rcases State.advance_cases n s with ⟨h, e⟩ | ⟨h, e⟩
  · rw [State.bitRead_ok h, e, peek_of_remaining hlen hpos hn h]; rfl
  · rw [State.bitRead_fail h, e]; rfl

theorem recByte_eq (r : ByteReg) : recByte r s = s.readByte r (BitVec.ofNat 8 (streamNat s.buf s.pos 8)) :=
  bitRead_bind hlen (by omega) (by omega) _

end

theorem KeepsFrame.vlenIsLength {a s : State} (h : KeepsFrame a s) (hlen : s.vlen = s.buf.length) : a.vlen = a.buf.length := by
  obtain ⟨hv, hb, -⟩ := h
  rw [hv, hb, hlen]

/-- A mask bit's `BitRead` is the read of the stream's bit. -/
theorem recMaskBit_eq {s : State} (hlen : s.vlen = s.buf.length) (f : State → Except Trap State) :
    (s.bitRead 1 >>= fun p => f { p.2 with mb := BitVec.ofNat 1 p.1 }) = s.readMaskBit (bitAt s.buf s.pos) >>= f := by
  have hbit : BitVec.ofNat 1 (streamNat s.buf s.pos 1) = BitVec.ofBool (bitAt s.buf s.pos) := by
    simp only [streamNat, Nat.add_zero]
    cases bitAt s.buf s.pos <;> rfl
  rw [bitRead_bind hlen (by omega) (by omega), State.readMaskBit, ← hbit, bind_assoc]
  rfl

/-- The mask loop with its bits from `BitRead`. -/
theorem recMaskPixels_eq (t : Tile) {s : State} (hlen : s.vlen = s.buf.length) {ps : List (Nat × Nat)} {bits : List Bool}
    (hps : ps.length = bits.length) (hbits : ∀ k, k < bits.length → bits.getD k false = bitAt s.buf (s.pos + k)) :
    recMaskPixels t ps s = maskPixels t (ps.zip bits) s := by
  induction ps generalizing s bits with
  | nil => rfl
  | cons p ps ih =>
    obtain ⟨r, c⟩ := p
    obtain ⟨b, bits, rfl⟩ : ∃ b bs, bits = b :: bs := List.exists_cons_of_length_eq_add_one hps.symm
    have hb : bitAt s.buf s.pos = b := (hbits 0 (by simp)).symm
    have hread := recMaskBit_eq hlen fun s =>
      s.writePixel (t.x + c) (t.y + r) (if s.mb = 0#1 then s.c0 else s.c1) >>= recMaskPixels t ps
    rw [hb] at hread
    refine hread.trans ((reads_readMaskBit b s).bind_congr fun a ha hka => (reads_writePixel _ _ _ a).bind_congr fun d hd hkd => ?_)
    have hk := hkd.trans hka
    refine ih (hk.vlenIsLength hlen) (by simpa using hps) fun k hk' => ?_
    have hbit := hbits (k + 1) (by simpa using hk')
    obtain ⟨-, hbuf, -⟩ := hk
    rw [hbuf, hd, ha]
    simpa [Nat.add_assoc, Nat.add_comm 1 k] using hbit

/-- The literal loop with its literals from `BitRead`. -/
theorem recRaw_eq (t : Tile) {s : State} (hlen : s.vlen = s.buf.length) {ps : List (Nat × Nat)} {vs : List Byte}
    (hps : ps.length = vs.length) (hvs : ∀ k, k < vs.length → vs.getD k 0 = BitVec.ofNat 8 (streamNat s.buf (s.pos + 8 * k) 8)) :
    recRaw t ps s = rawPixels t (ps.zip vs) s := by
  induction ps generalizing s vs with
  | nil => rfl
  | cons p ps ih =>
    obtain ⟨r, c⟩ := p
    obtain ⟨v, vs, rfl⟩ : ∃ v us, vs = v :: us := List.exists_cons_of_length_eq_add_one hps.symm
    have hv : BitVec.ofNat 8 (streamNat s.buf s.pos 8) = v := (hvs 0 (by simp)).symm
    have hread := recByte_eq hlen .px
    rw [hv] at hread
    rw [recRaw, hread]
    refine (reads_readByte .px v s).bind_congr fun a ha hka => (reads_writePixel _ _ _ a).bind_congr fun d hd hkd => ?_
    have hk := hkd.trans hka
    refine ih (hk.vlenIsLength hlen) (by simpa using hps) fun k hk' => ?_
    have hlit := hvs (k + 1) (by simpa using hk')
    obtain ⟨-, hbuf, -⟩ := hk
    rw [hbuf, hd, ha]
    simpa [Nat.add_assoc, Nat.mul_add, Nat.add_comm 8] using hlit

/-! ### What a selector says -/

section
variable {size : TileSize} {bits : List Bool}

theorem decodeTile_skip (h : fieldNat bits 0 2 = 0) : decodeTile size bits = skipOf size := by
  cases size <;> simp only [decodeTile, h, skipOf]

theorem decodeTile_fill (h : fieldNat bits 0 2 = 1) : decodeTile size bits = fillOf (field 8 2 bits) size := by
  cases size <;> simp only [decodeTile, h, fillOf]

/-- Selector 2 is a MASK of the tile's size. -/
theorem decodeTile_mask (h : fieldNat bits 0 2 = 2) (t : Tile) :
    tileBody (decodeTile size bits) = maskTile (field 8 2 bits) (field 8 10 bits) (field (size.side * size.side) 18 bits) ∧
    queued (decodeTile size bits) t = [] := by
  cases size <;> simp only [decodeTile, h] <;> exact ⟨rfl, rfl⟩

theorem queued_skipOf (t : Tile) : queued (skipOf size) t = [] := by cases size <;> rfl

theorem queued_fillOf (c : Byte) (t : Tile) : queued (fillOf c size) t = [] := by cases size <;> rfl

end

/-! ### The fetched code, its operands taken from `BitRead` -/

/-- A byte operand of the fetched code is the stream's eight bits at its place. -/
theorem field_fetched {s : State} {n off : Nat} (h : off + n ≤ maxOwnBits) :
    field n off (window s.buf s.pos maxOwnBits) = BitVec.ofNat n (streamNat s.buf (s.pos + off) n) := by
  rw [field, fieldNat_window h]

section
variable {s : State} (hlen : s.vlen = s.buf.length) (t : Tile)
include hlen

theorem recFill_eq : (s.readSel 1 >>= recFill t) = fillTile (field 8 2 (window s.buf s.pos maxOwnBits)) t s := by
  refine (reads_readSel 1 s).bind_congr fun a ha hka => ?_
  rw [recFill, recByte_eq (hka.vlenIsLength hlen), field_fetched (by decide)]
  obtain ⟨-, hbuf, -⟩ := hka
  rw [hbuf, ha]
  rfl

theorem recMask_eq {n : Nat} (hn : n = t.size.side * t.size.side) :
    (s.readSel 2 >>= recMask t) = maskTile (field 8 2 (window s.buf s.pos maxOwnBits)) (field 8 10 (window s.buf s.pos maxOwnBits))
      (field n 18 (window s.buf s.pos maxOwnBits)) t s := by
  have hn64 : n ≤ 64 := by subst hn; cases t.size <;> decide
  refine (reads_readSel 2 s).bind_congr fun a ha hka => ?_
  rw [recMask, recByte_eq (hka.vlenIsLength hlen), field_fetched (by decide)]
  obtain ⟨-, hbuf, -⟩ := id hka
  rw [hbuf, ha]
  refine (reads_readByte .c0 _ a).bind_congr fun b hb hkb => ?_
  have hkb := hkb.trans hka
  rw [recByte_eq (hkb.vlenIsLength hlen), field_fetched (by decide)]
  obtain ⟨-, hbuf, -⟩ := id hkb
  rw [hbuf, hb, ha]
  refine (reads_readByte .c1 _ b).bind_congr fun d hd hkd => ?_
  have hkd := hkd.trans hkb
  refine recMaskPixels_eq t (hkd.vlenIsLength hlen) (by rw [maskOrder_length hn, fieldBits_length]) fun k hk => ?_
  rw [fieldBits_length] at hk
  have hbit : (fieldBits (field n 18 (window s.buf s.pos maxOwnBits))).getD k false =
      (field n 18 (window s.buf s.pos maxOwnBits)).getMsbD k := by
    simp [fieldBits, List.getD_eq_getElem?_getD, hk]
  obtain ⟨-, hbuf, -⟩ := hkd
  rw [hbit, field_getMsbD _ hk, window_getD (by simp only [maxOwnBits]; omega), hbuf, hd, hb, ha, ← Nat.add_assoc]
  rfl

theorem recRaw2_eq : (s.readSel 3 >>= recRaw t (rowsDown .t2)) =
    tileBody (.raw2 (field 8 2 (window s.buf s.pos maxOwnBits)) (field 8 10 (window s.buf s.pos maxOwnBits))
      (field 8 18 (window s.buf s.pos maxOwnBits)) (field 8 26 (window s.buf s.pos maxOwnBits))) t s := by
  refine (reads_readSel 3 s).bind_congr fun a ha hka => recRaw_eq t (hka.vlenIsLength hlen) rfl fun k hk => ?_
  obtain ⟨-, hbuf, -⟩ := hka
  rw [hbuf, ha]
  simp only [List.length_cons, List.length_nil] at hk
  interval_cases k <;> exact field_fetched (by decide)

/-- What the recursion makes of the selector at the cursor (41_tile_codes.md R140). -/
theorem recDispatch_eq (sel3 : State → Except Trap State) :
    (streamNat s.buf s.pos 2 = 0 ∧ recDispatch sel3 t s = s.readSel 0) ∨
    (streamNat s.buf s.pos 2 = 1 ∧ recDispatch sel3 t s = s.readSel 1 >>= recFill t) ∨
    (streamNat s.buf s.pos 2 = 2 ∧ recDispatch sel3 t s = s.readSel 2 >>= recMask t) ∨
    (streamNat s.buf s.pos 2 = 3 ∧ recDispatch sel3 t s = s.readSel 3 >>= sel3) := by
  have hsel : recSel s = s.advance 2 >>= fun a =>
      pure (streamNat s.buf s.pos 2, { a with sel := BitVec.ofNat 2 (streamNat s.buf s.pos 2) }) :=
    bitRead_bind hlen (by omega) (by omega) _
  have hlt := streamNat_lt s.buf s.pos 2
  rw [recDispatch, hsel, bind_assoc]
  generalize streamNat s.buf s.pos 2 = v at hlt ⊢
  interval_cases v
  · exact .inl ⟨rfl, rfl⟩
  · exact .inr (.inl ⟨rfl, by rw [State.readSel, bind_assoc]; rfl⟩)
  · exact .inr (.inr (.inl ⟨rfl, by rw [State.readSel, bind_assoc]; rfl⟩))
  · exact .inr (.inr (.inr ⟨rfl, by rw [State.readSel, bind_assoc]; rfl⟩))

/-- The recursion does at a tile what the fetched code does there, up to selector 3. -/
theorem recDispatch_fetched (sel3 : State → Except Trap State) :
    (recDispatch sel3 t s = tileBody (s.fetchTile t.size) t s ∧ queued (s.fetchTile t.size) t = []) ∨
    (recDispatch sel3 t s = s.readSel 3 >>= sel3 ∧ fieldNat (window s.buf s.pos maxOwnBits) 0 2 = 3) := by
  have hv : fieldNat (window s.buf s.pos maxOwnBits) 0 2 = streamNat s.buf s.pos 2 := fieldNat_window (by decide)
  rcases recDispatch_eq hlen t sel3 with ⟨h, e⟩ | ⟨h, e⟩ | ⟨h, e⟩ | ⟨h, e⟩ <;> rw [e, State.fetchTile]
  · rw [decodeTile_skip (hv.trans h), tileBody_skipOf]
    exact .inl ⟨rfl, queued_skipOf t⟩
  · rw [decodeTile_fill (hv.trans h), tileBody_fillOf, recFill_eq hlen]
    exact .inl ⟨rfl, queued_fillOf _ t⟩
  · obtain ⟨hbody, hqueued⟩ := decodeTile_mask (size := t.size) (hv.trans h) t
    rw [hbody, recMask_eq hlen t rfl]
    exact .inl ⟨rfl, hqueued⟩
  · exact .inr ⟨rfl, hv.trans h⟩

end

/-! ### Running through the work list -/

/-- A frame is being decoded, the host has nothing more to do, and no request waits. -/
structure Running (s : State) : Prop where
  phase : s.phase = .run
  req : s.req = none
  host : s.host = []
  vlenIsLength : s.vlen = s.buf.length

/-- From an engine operation's result, with these tiles left waiting, every run of at least `n` steps comes to the outcome `o`. -/
def Reaches (rest : List Tile) (n : Nat) (o : Host.Outcome State Fault Refusal) : Except Trap State → Prop
  | .ok a => Running a → ∀ m, n ≤ m → core.run m { a with todo := rest } = o
  | .error e => conclude (.error e) = o

/-- The operation keeps the frame running where it ends, and the machine comes through these tiles of the work list to wherever it comes to from there. -/
def Simulates (ts : List Tile) (rec : State → Except Trap State) : Prop :=
  ∀ s, Running s → (∀ a, rec s = .ok a → Running a) ∧
    ∀ rest n o, Reaches rest n o (rec s) → Reaches (ts ++ rest) (todoSteps ts + n) o (.ok s)

/-- The same run with other tiles waiting. -/
def waitingApart (ts : List Tile) (a b : State) : Prop := b = { a with todo := ts } ∧ Running a

theorem waitingApart_respected (ts : List Tile) : Respected (waitingApart ts) where
  sees := by rintro a _ ⟨rfl, -⟩; exact ⟨rfl, rfl, rfl, rfl, rfl⟩
  move := by rintro a _ n ⟨rfl, h⟩ -; exact ⟨rfl, { h with }⟩
  setSel := by rintro a _ v ⟨rfl, h⟩; exact ⟨rfl, { h with }⟩
  setByteReg := by rintro a _ r v ⟨rfl, h⟩; cases r <;> exact ⟨rfl, { h with }⟩
  setMb := by rintro a _ v ⟨rfl, h⟩; exact ⟨rfl, { h with }⟩
  write := by rintro a _ x y v ⟨rfl, h⟩ - -; exact ⟨rfl, { h with }⟩

/-- An idle block with a host that does nothing more stays as it is. -/
theorem run_idle {s : State} (hp : s.phase = .idle) (hreq : s.req = none) (hhost : s.host = []) (n : Nat) : core.run n s = .next s := by
  induction n with
  | zero => rfl
  | succ n ih => exact (Core.run_step (M := core) (idleWaitsAndFrameEnds.1 s hhost hreq hp) n).trans ih

theorem Core.run_fault {M : Host.Core} {s : M.State} {f : M.Fault} (h : M.step s = .fault f) (n : Nat) : M.run (n + 1) s = .fault f := by
  simp only [Host.Core.run, h]

/-- The step at the head of the work list runs the fetched code. -/
theorem Reaches.step {s : State} {t : Tile} {rest : List Tile} {n : Nat} {o : Host.Outcome State Fault Refusal} (hs : Running s)
    (h : Reaches (queued (s.fetchTile t.size) t ++ rest) n o (tileBody (s.fetchTile t.size) t s)) :
    Reaches (t :: rest) (n + 1) o (.ok s) := by
  intro _ m hm
  obtain ⟨k, rfl⟩ : ∃ k, m = k + 1 := ⟨m - 1, by omega⟩
  obtain ⟨bits, he⟩ := encode_fetchTile s t.size
  have hat : AtTile { s with todo := t :: rest } t rest := ⟨hs.phase, rfl⟩
  have hstep : Machine.step { s with todo := t :: rest } = conclude (tileBody (s.fetchTile t.size) t { s with todo := rest }) :=
    (step_engine (s := { s with todo := t :: rest }) hs.host).trans
      ((engineStep_atTile (s := { s with todo := t :: rest }) hs.req hat).trans (exec_atTile hat he))
  have hrun := (waitingApart_respected rest).tileBody (s.fetchTile t.size) t ⟨rfl, hs⟩
    (Q := waitingApart (queued (s.fetchTile t.size) t ++ rest)) (by rintro a _ ⟨rfl, h⟩; exact ⟨rfl, { h with }⟩)
  generalize tileBody (s.fetchTile t.size) t s = r at h hrun
  generalize tileBody (s.fetchTile t.size) t { s with todo := rest } = r' at hstep hrun
  cases hrun with
  | ok hab =>
    obtain ⟨rfl, ha⟩ := hab
    exact (Core.run_step (M := core) hstep k).trans (h ha k (by omega))
  | @outOfBits a _ hab =>
    obtain ⟨rfl, ha⟩ := hab
    exact (Core.run_step (M := core) hstep k).trans ((run_idle (s := a.takeOutOfBits) rfl ha.req ha.host k).trans h)
  | fault f => exact (Core.run_fault (M := core) hstep k).trans h

theorem Reaches.mono {rest : List Tile} {m n : Nat} {o : Host.Outcome State Fault Refusal} {r : Except Trap State} (h : Reaches rest m o r)
    (hmn : m ≤ n) : Reaches rest n o r := by
  match r, h with
  | .ok _, h => exact fun ha k hk => h ha k (by omega)
  | .error _, h => exact h

/-- A tile code that runs to its end leaves the frame running. -/
theorem Running.of_tileBody {s a : State} {i : Instr} {t : Tile} (hs : Running s) (h : tileBody i t s = .ok a) : Running a := by
  have hrun := (waitingApart_respected s.todo).tileBody i t ⟨rfl, hs⟩ (Q := fun a _ => Running a) (by rintro a _ ⟨rfl, h⟩; exact { h with })
  rw [h] at hrun
  cases hrun with | ok ha => exact ha

theorem Simulates.nil : Simulates [] .ok :=
  fun s hs => ⟨fun a h => by cases h; exact hs, fun rest n o h => by simpa [todoSteps] using h⟩

/-- Tiles after tiles. -/
theorem Simulates.bind {ts us : List Tile} {f g : State → Except Trap State} (hf : Simulates ts f) (hg : Simulates us g) :
    Simulates (ts ++ us) fun s => f s >>= g := by
  intro s hs
  obtain ⟨hrun, hreach⟩ := hf s hs
  have hsteps : ∀ n, todoSteps (ts ++ us) + n = todoSteps ts + (todoSteps us + n) := fun n => by
    simp only [todoSteps, List.map_append, List.sum_append, Nat.add_assoc]
  refine ⟨fun b hb => ?_, fun rest n o h => ?_⟩
  · cases hfs : f s with
    | ok a =>
      simp only [hfs] at hb
      exact (hg a (hrun a hfs)).1 b hb
    | error e => simp only [hfs] at hb; cases hb
  · rw [hsteps, List.append_assoc]
    refine hreach _ _ _ ?_
    cases hfs : f s with
    | ok a =>
      simp only [hfs] at h
      exact (hg a (hrun a hfs)).2 rest n o h
    | error e => simp only [hfs] at h; exact h

/-- A list of tiles, each simulated. -/
theorem Simulates.recTiles {rec : Tile → State → Except Trap State} {ts : List Tile} (h : ∀ t ∈ ts, Simulates [t] (rec t)) :
    Simulates ts (recTiles rec ts) := by
  induction ts with
  | nil => exact .nil
  | cons t ts ih =>
    obtain ⟨ht, hts⟩ := List.forall_mem_cons.1 h
    exact ht.bind (ih hts)

/-- A tile whose selector 3 is a SPLIT, its children simulated. -/
theorem Simulates.split {sel3 : State → Except Trap State} {t : Tile} {size : TileSize} {i : Instr}
    (hfetch : ∀ s : State, fieldNat (window s.buf s.pos maxOwnBits) 0 2 = 3 → s.fetchTile t.size = i) (hbody : tileBody i = splitTile size)
    (hqueued : queued i t = childTiles size t) (hsteps : 1 + todoSteps (childTiles size t) = todoSteps [t])
    (hchildren : Simulates (childTiles size t) sel3) : Simulates [t] (recDispatch sel3 t) := by
  intro s hs
  rcases recDispatch_fetched hs.vlenIsLength t sel3 with ⟨e, hq⟩ | ⟨e, h3⟩ <;> rw [e]
  · refine ⟨fun a ha => hs.of_tileBody ha, fun rest n o h => ?_⟩
    exact (Reaches.step hs (by rwa [hq])).mono (by omega)
  · have hi := hfetch s h3
    have hsplit : tileBody i t s = s.readSel 3 >>= fun a => .ok (a.queue (childTiles size t)) := by rw [hbody]; rfl
    have hstep : ∀ rest n o, Reaches (childTiles size t ++ rest) n o (tileBody i t s) → Reaches (t :: rest) (n + 1) o (.ok s) :=
      fun rest n o h => Reaches.step hs (by rwa [hi, hqueued])
    rcases Nat.lt_or_ge s.remaining 2 with hr | hr
    · rw [readSel_bind_fail hr] at hsplit ⊢
      exact ⟨fun a ha => (by cases ha), fun rest n o h => (hstep rest n o (hsplit ▸ h)).mono (by omega)⟩
    · rw [readSel_bind_ok hr] at hsplit ⊢
      have ha : Running { s with pos := s.pos + 2, sel := 3 } := { hs with }
      obtain ⟨hrun, hreach⟩ := hchildren _ ha
      refine ⟨hrun, fun rest n o h => ?_⟩
      refine (hstep rest (todoSteps (childTiles size t) + n) o ?_).mono (by omega)
      rw [hsplit]
      exact fun _ => hreach rest n o h ha

theorem simulates_recTile2 {t : Tile} (hsize : t.size = .t2) : Simulates [t] (recTile2 t) := by
  intro s hs
  have hone : todoSteps [t] = 1 := by simp [todoSteps, hsize, tileSteps]
  have hfetched : recTile2 t s = tileBody (s.fetchTile t.size) t s ∧ queued (s.fetchTile t.size) t = [] := by
    rcases recDispatch_fetched hs.vlenIsLength t (recRaw t (rowsDown .t2)) with h | ⟨e, h3⟩
    · exact h
    · have hraw := recRaw2_eq hs.vlenIsLength t
      rw [recTile2, e, hraw, State.fetchTile, hsize]
      simp only [decodeTile, h3]
      exact ⟨trivial, rfl⟩
  obtain ⟨e, hq⟩ := hfetched
  rw [e]
  refine ⟨fun a ha => hs.of_tileBody ha, fun rest n o h => ?_⟩
  exact (Reaches.step hs (by rwa [hq])).mono (by omega)

theorem simulates_recTile4 {t : Tile} (hsize : t.size = .t4) : Simulates [t] (recTile4 t) :=
  .split (size := .t2) (i := .split4) (fun s h => by rw [State.fetchTile, hsize]; simp only [decodeTile, h]) rfl rfl
    (by simp [todoSteps, childTiles, hsize, tileSteps]) (.recTiles fun _ hu => simulates_recTile2 (childTiles_size _ hu))

theorem simulates_recTile8 {t : Tile} (hsize : t.size = .t8) : Simulates [t] (recTile8 t) :=
  .split (size := .t4) (i := .split8) (fun s h => by rw [State.fetchTile, hsize]; simp only [decodeTile, h]) rfl rfl
    (by simp [todoSteps, childTiles, hsize, tileSteps]) (.recTiles fun _ hu => simulates_recTile4 (childTiles_size _ hu))

theorem simulates_recTile (t : Tile) : Simulates [t] (recTile t) := by
  unfold recTile
  cases hsize : t.size with
  | t8 => exact simulates_recTile8 hsize
  | t4 => exact simulates_recTile4 hsize
  | t2 => exact simulates_recTile2 hsize

/-- After the last tile the step that finds TODO empty ends the frame, and a frame cut short has ended already. -/
theorem reaches_recFrame (ts : List Tile) (s : State) : Reaches [] 1 (recFrame ts s) (recTiles recTile ts s) := by
  unfold recFrame
  match recTiles recTile ts s with
  | .error (.outOfBits a) => rfl
  | .error (.fault f) => rfl
  | .ok a =>
    intro ha m hm
    obtain ⟨k, rfl⟩ : ∃ k, m = k + 1 := ⟨m - 1, by omega⟩
    have hend := idleWaitsAndFrameEnds.2 { a with todo := [] } ha.host ha.req ha.phase rfl
    exact (Core.run_step (M := core) hend k).trans (run_idle (s := a.finish .ok) rfl ha.req ha.host k)

/-- Settles O46: the work list of the frame is simulated tile by tile, up to the step that ends the frame. -/
theorem workListIsTheRecursion : Obligations.WorkListIsTheRecursion := by
  intro s hp hreq hhost hlen
  have hs : Running s := ⟨hp, hreq, hhost, hlen⟩
  obtain ⟨-, hreach⟩ := Simulates.recTiles (ts := s.todo) (fun t _ => simulates_recTile t) s hs
  have hrun := hreach [] 1 _ (reaches_recFrame s.todo s) hs _ le_rfl
  rwa [List.append_nil] at hrun

end Sys2Proof.Machine

/-! SUPPORT. The commands: where each is refused, and what it leaves where it is not (O30 to O34, O36). -/

namespace Sys2Proof.Machine

/-! ### The two answers of a command -/

section
variable {i : Instr} {c : PortCommand} {s : State} (he : encode i = .command c)
include he

theorem exec_command_refused {r : Refusal} (h : commandRefusal i s = some r) : exec i s = .refused r := by
  rw [exec_command he, h]; rfl

/-- On an idle block, in a stream where it needs one, a command with its dimensions in order answers its effect. -/
theorem exec_command_idle (hidle : s.phase = .idle) (hstarted : needsStream i = true → s.started = true)
    (hdim : badDimensions i = none) : exec i s = .next (commandEffect i s) := by
  rw [exec_command_admitted he, admitted_ok hidle hstarted, hdim]; rfl

end

/-! ### STREAM_START, FRAME.COMP0 and FRAME.BLANK -/

/-- A frame that lists its cells anew holds the new byte at each address of the address map (20_memory.md R59). -/
theorem cell_ofCells (s : State) (w h : Nat) (f : Nat → Byte) (a : Nat) :
    State.cell { s with w := w, h := h, idx := Memory.ofCells (w * h) f } a = if a < w * h then some (f a) else none := by
  by_cases ha : a < w * h
  · simp only [State.cell, if_pos ha, Memory.read_ofCells f ha]
  · simp only [State.cell, if_neg ha]

/-- Settles O30: the effect of STREAM_START, whose buffer is the list of `IDX_RESET`'s cells. -/
theorem streamStartResetsTheBuffer : Obligations.StreamStartResetsTheBuffer := by
  intro s w h hidle hw hh
  have hexec := exec_command_idle (i := .streamStart w h) (s := s) rfl hidle (by simp [needsStream]) (if_pos ⟨hw, hh⟩)
  exact ⟨_, hexec, fun a ha => (cell_ofCells s w h _ a).trans (if_pos ha), Memory.keys_ofCells _ _⟩

/-- Settles O31: the effect of FRAME.COMP0, whose length test is on the payload's length. -/
theorem comp0WritesNothing : Obligations.Comp0WritesNothing := by
  rintro s p ⟨hidle, hstarted⟩
  rw [exec_command_idle (i := .frameComp0 p) rfl hidle (fun _ => hstarted) rfl]
  cases p <;> rfl

/-- The one 8-bit read of a one-byte payload is of that byte. -/
theorem peek_framePrologue_single (ft : BitVec 2) (c : Byte) (s : State) : (s.framePrologue ft [c]).peek 8 = c.toNat := by
  rw [peek_eq_streamNat rfl le_rfl le_rfl]
  exact streamNat_byte_aligned [c] (Nat.zero_mod 8)

/-- Settles O32: the two effects of FRAME.BLANK, by the length of the payload. -/
theorem blankFillsTheFrame : Obligations.BlankFillsTheFrame := by
  rintro s ⟨hidle, hstarted⟩
  have hexec (p : List Byte) : exec (.frameBlank p) s = .next (commandEffect (.frameBlank p) s) :=
    exec_command_idle rfl hidle (fun _ => hstarted) rfl
  refine ⟨fun c => ?_, fun p hp => ?_⟩
  · have hbyte : BitVec.ofNat 8 ((s.framePrologue ftypeBlank [c]).peek 8) = c := by
      rw [peek_framePrologue_single, BitVec.ofNat_toNat, BitVec.setWidth_eq]
    refine ⟨Memory.ofCells (s.w * s.h) fun _ => c, ?_, cell_ofCells s s.w s.h _⟩
    have heffect : commandEffect (.frameBlank [c]) s = blanked (s.framePrologue ftypeBlank [c]) := rfl
    rw [hexec, heffect, blanked, hbyte]
    rfl
  · have hlength : blankLengthOk p.length = false := by simpa [blankLengthOk] using hp
    simp only [hexec, commandEffect, hlength]
    rfl

/-! ### FRAME.COMP1 and its top-level tiles -/

/-- A table laid out row by row, its `k`-th entry from row `k div a` and column `k mod a`. -/
theorem flatMap_range_map {α : Type} (f : Nat → Nat → α) (a b : Nat) :
    ((List.range b).flatMap fun y => (List.range a).map fun x => f x y) = (List.range (a * b)).map fun k => f (k % a) (k / a) := by
  induction b with
  | zero => simp
  | succ b ih =>
    have hrow : ∀ x ∈ List.range a, f x b = f ((a * b + x) % a) ((a * b + x) / a) := fun x hx => by
      have hx := List.mem_range.1 hx
      rw [Nat.mul_add_mod, Nat.mod_eq_of_lt hx, Nat.mul_add_div (by omega), Nat.div_eq_of_lt hx, Nat.add_zero]
    rw [List.range_succ, List.flatMap_append, ih, Nat.mul_succ, List.range_add, List.map_append, List.map_map, List.flatMap_singleton,
      List.map_congr_left hrow]
    rfl

/-- The top-level tiles in row-major order (42_frame_commands.md R183). -/
theorem topTiles_eq (w h : Nat) :
    topTiles w h = (List.range ((w / 8) * (h / 8))).map fun k => ⟨8 * (k % (w / 8)), 8 * (k / (w / 8)), .t8⟩ :=
  flatMap_range_map (fun x y => Tile.mk (8 * x) (8 * y) .t8) _ _

theorem topTiles_length (w h : Nat) : (topTiles w h).length = (w / 8) * (h / 8) := by
  rw [topTiles_eq, List.length_map, List.length_range]

theorem topTiles_getElem? {w h k : Nat} (hk : k < (w / 8) * (h / 8)) :
    (topTiles w h)[k]? = some ⟨8 * (k % (w / 8)), 8 * (k / (w / 8)), .t8⟩ := by
  rw [topTiles_eq, List.getElem?_map, List.getElem?_range hk]; rfl

theorem topTiles_size {w h : Nat} : ∀ t ∈ topTiles w h, t.size = .t8 := by
  rw [topTiles_eq]
  exact List.forall_mem_map.2 fun _ _ => rfl

/-- Settles O33: the effect of FRAME.COMP1, and the list of top-level tiles. -/
theorem comp1QueuesTheFrame : Obligations.Comp1QueuesTheFrame := by
  rintro s p ⟨hidle, hstarted⟩
  exact ⟨_, exec_command_idle (i := .frameComp1 p) rfl hidle (fun _ => hstarted) rfl, topTiles_length _ _,
    fun k hk => topTiles_getElem? (topTiles_length s.w s.h ▸ hk)⟩

/-! ### Illegal codes and refusals -/

/-- Settles O34: the effects of the two illegal codes; only the FRAME needs a stream. -/
theorem illegalCodesEndIllegal : Obligations.IllegalCodesEndIllegal := by
  refine fun s => ⟨fun p ⟨hidle, hstarted⟩ => ?_, fun hidle => ?_⟩
  · exact exec_command_idle (i := .frameIllegal p) rfl hidle (fun _ => hstarted) rfl
  · exact exec_command_idle (i := .cmdIllegal) rfl hidle (by simp [needsStream]) rfl

/-- Settles O36: the tests in their order (60_exceptions.md R205): the phase, the stream, the dimensions. -/
theorem commandsAreRefusedByName : Obligations.CommandsAreRefusedByName := by
  refine ⟨fun s c hrun => ?_, fun s p hidle hstarted i hi => ?_, fun s w h hidle hdim => ?_⟩
  · obtain ⟨d, hd⟩ := encode_decodeCommand c
    exact exec_command_refused hd (by simp [commandRefusal, notAdmitted, hrun])
  · have hneeds : needsStream i = true ∧ ∃ c, encode i = .command c := by
      simp only [List.mem_cons, List.not_mem_nil, or_false] at hi
      rcases hi with rfl | rfl | rfl | rfl | rfl <;> exact ⟨rfl, _, rfl⟩
    obtain ⟨hneeds, c, hc⟩ := hneeds
    exact exec_command_refused hc (by simp [commandRefusal, notAdmitted, hidle, hstarted, hneeds])
  · have hbad : badDimensions (.streamStart w h) = some .dimensionNotMultipleOf8 := if_neg (by omega)
    exact exec_command_refused (i := .streamStart w h) rfl (by simp [commandRefusal, notAdmitted, hidle, needsStream, hbad])

end Sys2Proof.Machine

/-! SUPPORT. The frames of FRAME.COMP1, from the host's issue to their end: each ends (O45), is the frame driver's (O47), and draws the picture its payload
was assembled for (O49). -/

namespace Sys2Proof.Machine

/-! ### The end of a frame -/

/-- From a state that meets the invariant, with no action of the host to come, a run of any length neither faults nor is refused. -/
theorem run_completes {s : State} (hi : Inv s) (hhost : s.host = []) (n : Nat) : ∃ s', core.run n s = .next s' := by
  induction n generalizing s with
  | zero => exact ⟨s, rfl⟩
  | succ n ih =>
    obtain ⟨a, ha⟩ := engineNeverStops s hi
    obtain ⟨-, -, -, -, -, -, hhost', -⟩ := engineLeavesTheConfiguration s a ha
    have hrun : core.run (n + 1) s = core.run n a := Core.run_step (M := core) ((step_engine hhost).trans ha) n
    rw [hrun]
    exact ih (engineStep_inv hi ha) (hhost'.trans hhost)

/-- The frame driver leaves an idle block and no tile (42_frame_commands.md R187). -/
theorem recFrame_next {ts : List Tile} {s s' : State} (h : recFrame ts s = .next s') : s'.phase = .idle ∧ s'.todo = [] := by
  simp only [recFrame] at h
  split at h
  · cases h; exact ⟨rfl, rfl⟩
  · cases h; exact ⟨rfl, rfl⟩
  · cases h

/-- Settles O45: an idle block has no tile and waits; a running frame does not stop on the way to the end of the recursion. -/
theorem everyFrameEnds : Obligations.EveryFrameEnds := by
  intro s hi hhost
  cases hp : s.phase with
  | idle => exact ⟨s, run_idle hp hi.noRequest hhost _, hp, hi.idleHasNoTiles hp⟩
  | run =>
    obtain ⟨s', hrun⟩ := run_completes hi hhost (todoSteps s.todo + 1)
    have hrec := workListIsTheRecursion s hp hi.noRequest hhost hi.vlenIsLength
    exact ⟨s', hrun, recFrame_next (hrec.symm.trans hrun)⟩

/-! ### A frame from the host's issue -/

/-- The state in which a COMP1 frame's first tile code runs, the host with nothing more to do. -/
def comp1Begun (p : List Byte) (s : State) : State :=
  { s with ftype := 2, vlen := p.length, buf := p, pos := 0, phase := .run, todo := topTiles s.w s.h, host := [] }

/-- The step that takes a FRAME.COMP1 from the port. -/
theorem step_comp1 {s : State} {p : List Byte} (hs : IdleInStream s) (hhost : s.host = [.command { cmdw := 0b0110, payload := p }]) :
    step s = .next (comp1Begun p s) :=
  (step_host hhost (by simp)).trans
    (exec_command_idle (i := .frameComp1 p) (s := { s with host := [] }) rfl hs.1 (fun _ => hs.2) rfl)

theorem todoSteps_topTiles (w h : Nat) : todoSteps (topTiles w h) = 21 * ((w / 8) * (h / 8)) := by
  rw [todoSteps, topTiles_eq, List.map_map]
  simp [Function.comp_def, tileSteps, Nat.mul_comm]

/-- Settles O47: one step takes the command, and the work list it leaves is the recursion. -/
theorem comp1FrameIsTheDriver : Obligations.Comp1FrameIsTheDriver := by
  intro s p hi hs hhost
  have hwork := workListIsTheRecursion (comp1Begun p s) rfl hi.noRequest rfl rfl
  have hsteps : todoSteps (comp1Begun p s).todo = 21 * ((s.w / 8) * (s.h / 8)) := todoSteps_topTiles s.w s.h
  rw [hsteps] at hwork
  exact (Core.run_step (M := core) (step_comp1 hs hhost) _).trans hwork

/-! ### An assembled frame -/

/-- The pictures of tiles drawn one after another. -/
def tilesPicture : List (Tile × Quad8) → Nat → Nat → Option Byte
  | [], _, _ => none
  | (t, q) :: l, x, y => (tilesPicture l x y).or (tilePicture t q.pixel x y)

/-- Complete codes, at as many tiles of size 8. -/
theorem Quad8.draws_list {l : List (Tile × Quad8)} (hsize : ∀ p ∈ l, p.1.size = .t8) :
    Draws (l.map Prod.fst) ((l.map Prod.snd).flatMap Quad8.codes) (tilesPicture l) := by
  induction l with
  | nil => exact .nil
  | cons p l ih =>
    obtain ⟨hp, hl⟩ := List.forall_mem_cons.1 hsize
    exact (p.2.draws hp).append (ih hl)

/-- A pixel of a tile is none of a tile's apart from it. -/
theorem TilesApart.not_covers {t u : Tile} (h : TilesApart t u) {x y : Nat} (ht : TileCovers t x y) : ¬ TileCovers u x y := by
  simp only [TilesApart, TileCovers] at *
  omega

theorem tilesPicture_not_covered {l : List (Tile × Quad8)} {x y : Nat} (h : ∀ p ∈ l, ¬ TileCovers p.1 x y) : tilesPicture l x y = none := by
  induction l with
  | nil => rfl
  | cons p l ih =>
    obtain ⟨hp, hl⟩ := List.forall_mem_cons.1 h
    rw [tilesPicture, ih hl, tilePicture_not_covered hp, Option.none_or]

/-- Of tiles apart the one that has the pixel gives it. -/
theorem tilesPicture_covered {l : List (Tile × Quad8)} (hapart : (l.map Prod.fst).Pairwise TilesApart) {t : Tile} {q : Quad8}
    (hmem : (t, q) ∈ l) {x y : Nat} (hcov : TileCovers t x y) : tilesPicture l x y = q.pixel (y - t.y) (x - t.x) := by
  induction l with
  | nil => simp at hmem
  | cons p l ih =>
    obtain ⟨hp, hl⟩ := List.pairwise_cons.1 hapart
    rcases List.mem_cons.1 hmem with rfl | hmem
    · have hrest : ∀ r ∈ l, ¬ TileCovers r.1 x y := fun r hr => (hp _ (List.mem_map_of_mem hr)).not_covers hcov
      rw [tilesPicture, tilesPicture_not_covered hrest, tilePicture_covered hcov, Option.none_or]
    · have hfirst : ¬ TileCovers p.1 x y := fun h => (hp _ (List.mem_map_of_mem hmem)).not_covers h hcov
      rw [tilesPicture, ih hl hmem, tilePicture_not_covered hfirst, Option.or_none]

/-- The codes of a frame's top-level tiles draw each pixel as the code of its tile says. -/
theorem tilesPicture_topTiles {w h : Nat} {qs : List Quad8} (hw : w % 8 = 0) (hh : h % 8 = 0) (hlen : qs.length = (w / 8) * (h / 8))
    {x y : Nat} (hx : x < w) (hy : y < h) :
    tilesPicture ((topTiles w h).zip qs) x y = (qs.getD (y / 8 * (w / 8) + x / 8) .skip).pixel (y % 8) (x % 8) := by
  have hcol : x / 8 < w / 8 := by omega
  have hk : y / 8 * (w / 8) + x / 8 < (w / 8) * (h / 8) := pix_lt hcol (by omega)
  have htile := topTiles_getElem? hk
  rw [Nat.mul_comm, Nat.mul_add_mod, Nat.mod_eq_of_lt hcol, Nat.mul_add_div (by omega), Nat.div_eq_of_lt hcol, Nat.add_zero] at htile
  rw [← hlen, Nat.mul_comm] at hk
  have hmem : (⟨8 * (x / 8), 8 * (y / 8), .t8⟩, qs.getD (w / 8 * (y / 8) + x / 8) .skip) ∈ (topTiles w h).zip qs :=
    List.mem_of_getElem? (List.getElem?_zip_eq_some.2 ⟨htile, by simp [List.getD_eq_getElem?_getD, hk]⟩)
  have hapart : (((topTiles w h).zip qs).map Prod.fst).Pairwise TilesApart := by
    rw [List.map_fst_zip (by rw [topTiles_length, hlen])]
    exact topTiles_apart w h
  have hcov : TileCovers ⟨8 * (x / 8), 8 * (y / 8), .t8⟩ x y := by simp only [TileCovers, TileSize.side]; omega
  have hrow : y - 8 * (y / 8) = y % 8 := by omega
  have hcolumn : x - 8 * (x / 8) = x % 8 := by omega
  rw [tilesPicture_covered hapart hmem hcov, Nat.mul_comm (y / 8), hrow, hcolumn]

/-- The codes of complete codes, laid end to end, are their bits. -/
theorem codeBits_flatMap_codes (qs : List Quad8) : codeBits (qs.flatMap Quad8.codes) = qs.flatMap Quad8.bits := List.flatMap_assoc

theorem length_flatMap_bits (qs : List Quad8) : (qs.flatMap Quad8.bits).length = (qs.map Quad8.len).sum := by
  have hlen (q : Quad8) : q.bits.length = q.len := (completeCodeLengths.2.2.1 q).1
  simp only [List.length_flatMap, hlen]

/-- A frame begun with an assembled payload has its codes before it. -/
theorem ready_assemble {s : State} {qs : List Quad8} (pad : List Bool) (hreq : s.req = none) :
    Ready (comp1Begun (assemble qs pad) s) (topTiles s.w s.h) [] (codeBits (qs.flatMap Quad8.codes)) where
  host := rfl
  req := hreq
  phase := rfl
  todo := (List.append_nil _).symm
  inFrame := topTiles_inFrame (comp1Begun (assemble qs pad) s)
  spelled k hk := by
    rw [codeBits_flatMap_codes] at hk ⊢
    have hbit : bitAt (assemble qs pad) (0 + k) = (qs.flatMap Quad8.bits ++ pad).getD k false := by
      rw [Nat.zero_add]
      exact packedBitsAreReadBack _ k
    exact hbit.trans (List.getD_append _ _ _ _ hk)
  enough := by
    have hlen : (assemble qs pad).length = ((qs.flatMap Quad8.bits).length + pad.length + 7) / 8 := by
      rw [assemble, packBits_length, List.length_append]
    rw [codeBits_flatMap_codes]
    simp only [State.remaining, comp1Begun, hlen]
    omega

/-- Settles O49: one step takes the command, one for each code draws the tiles, and one finds no tile left. -/
theorem assembledFrameDrawsItsPicture : Obligations.AssembledFrameDrawsItsPicture := by
  intro s qs pad hi hs hlen hhost
  have htiles : (topTiles s.w s.h).length = qs.length := (topTiles_length s.w s.h).trans hlen.symm
  have hdraws := Quad8.draws_list (l := (topTiles s.w s.h).zip qs) fun p hp => topTiles_size p.1 (List.of_mem_zip hp).1
  rw [List.map_fst_zip htiles.le, List.map_snd_zip htiles.ge] at hdraws
  obtain ⟨a, hrun, hframe, hpos, htodo, hpaints⟩ := hdraws _ _ (ready_assemble pad hi.noRequest)
  have hend := idleWaitsAndFrameEnds.2 a hframe.host (hframe.req hi.noRequest) hframe.phase htodo
  refine ⟨{ a with status := .ok, phase := .idle }, ?_, rfl, rfl, ?_, fun x y hx hy => ?_⟩
  · exact (Core.run_step (M := core) (step_comp1 hs hhost) _).trans ((Core.run_add hrun 1).trans (Core.run_step (M := core) hend 0))
  · rw [codeBits_flatMap_codes, length_flatMap_bits] at hpos
    exact hpos.trans (Nat.zero_add _)
  · rw [← tilesPicture_topTiles hi.widthMultiple hi.heightMultiple hlen hx hy]
    refine (hpaints x y hx hy).trans ?_
    cases tilesPicture ((topTiles s.w s.h).zip qs) x y <;> rfl

end Sys2Proof.Machine

/-! SUPPORT. Hardware reset (O40): the one action of the host that does not look at the block. -/

namespace Sys2Proof.Machine

/-- A hardware reset leaves nothing of the block as it was; the host keeps its later actions (70_reset_and_hazards.md R230). -/
theorem step_hardwareReset {s : State} {rest : List HostEvent} (h : s.host = .hardwareReset :: rest) :
    step s = .next { State.reset with host := rest } :=
  step_host h (by simp)

/-- Settles O40: the step is the reset state, which has the values of R33. -/
theorem hardwareResetFromAnywhere : Obligations.HardwareResetFromAnywhere := fun _ _ h =>
  ⟨_, step_hardwareReset h, rfl, rfl, rfl, rfl, rfl, rfl, rfl, rfl⟩

end Sys2Proof.Machine

/-! SUPPORT. A word of the opcode table, placed and run (O59): the code fetched back is the code placed, and a command is alone at the port. -/

namespace Sys2Proof.Machine

/-- A bit string packed into bytes is read back whole. -/
theorem window_packBits (bits : List Bool) : window (packBits bits) 0 bits.length = bits := by
  have hbits : ∀ k, k < bits.length → bitAt (packBits bits) (0 + k) = bits.getD k false := fun k _ => by
    rw [Nat.zero_add, packedBitsAreReadBack bits k]
  rw [window_eq_append le_rfl hbits, List.drop_of_length_le (by simp [window]), List.append_nil]

theorem tableTileBits_length (nbits w : Nat) : (tableTileBits nbits w).length = maxOwnBits := by simp [tableTileBits, maxOwnBits]

/-- The bits of a tile word fill the fetched window. -/
theorem tableEncoding_tile_length {nbits w : Nat} {size : TileSize} {bits : List Bool} (h : tableEncoding nbits w = some (.tile size bits)) :
    bits.length = maxOwnBits := by
  have hbits : bits = tableTileBits nbits w := by
    simp only [tableEncoding] at h
    split at h
    · split at h
      · cases h; rfl
      · split at h <;> cases h
    · cases h; rfl
  rw [hbits, tableTileBits_length]

/-- A placed code that fills the fetched window is the code fetched. -/
theorem fetchTile_place {size : TileSize} {bits : List Bool} (h : bits.length = maxOwnBits) (s : State) :
    (s.place (.tile size bits)).fetchTile size = decodeTile size bits := by
  have hwindow : window (packBits bits) 0 maxOwnBits = bits := h ▸ window_packBits bits
  simp only [State.fetchTile, State.place, h, Nat.sub_self, List.replicate_zero, List.append_nil, hwindow]

/-- A placed encoding is the step's instruction, whichever space it is of. -/
theorem step_place {e : Encoding} (h : ∀ size bits, e = .tile size bits → bits.length = maxOwnBits) (s : State) :
    step (s.place e) = exec (decode e) { s.place e with host := [], req := none } := by
  obtain ⟨hcommand, hrequest, htile, -⟩ := stepRunsTheDecodedInstruction
  cases e with
  | tile size bits =>
    calc step (s.place (.tile size bits))
        = exec ((s.place (.tile size bits)).fetchTile size) (s.place (.tile size bits)) := htile _ ⟨0, 0, size⟩ [] rfl rfl ⟨rfl, rfl⟩
      _ = exec (decodeTile size bits) (s.place (.tile size bits)) := by rw [fetchTile_place (h size bits rfl)]
  | command c => exact hcommand (s.place (.command c)) c [] rfl
  | request r => exact hrequest (s.place (.request r)) r rfl rfl

/-- Settles O59: a word that stands for an instruction has an encoding, and the step runs the encoding placed. -/
theorem placedWordIsRun : Obligations.PlacedWordIsRun := by
  intro s nbits w i hw
  obtain ⟨e, he, rfl⟩ := Option.map_eq_some_iff.1 hw
  have hplace : s.withFetchWord nbits w = s.place e := by simp only [State.withFetchWord, he]
  refine ⟨_, ?_, rfl⟩
  rw [hplace]
  exact step_place (fun size bits htile => tableEncoding_tile_length (htile ▸ he)) s

end Sys2Proof.Machine
